-- ==== Sys2Proof/Word.lean ====
section
/-!
DEFINITION. The widths of SPI-TE, which are parameters (R6 of 00_scope.md), and its words: the bit vectors the spec gives
a width. A word of no named width is one of the reference widths, the only ones at which packets exist (R60 of
30_encoding.md; log 1).
-/

namespace Sys2Proof

/-- The widths among the parameters of R6. `NPIN` is not one of its own: "= 2^PIN_W". -/
structure Widths where
  /-- `ADDR_W`: width of a buffer cursor. -/
  addrW : Nat
  /-- `LEN_W`: width of `remaining`. -/
  lenW : Nat
  /-- `PIN_W`: width of a pin bit-position identifier. -/
  pinW : Nat
  /-- `CB_W`: width of a callback token. -/
  cbW : Nat
  /-- `CFG_W`: width of the opaque configuration value of `initialize`. -/
  cfgW : Nat
deriving DecidableEq, Repr

/-- `NPIN`: the number of pin bit positions (R6). -/
abbrev Widths.npin (W : Widths) : Nat := 2 ^ W.pinW

/-- The constraints R6 puts on the widths. -/
abbrev Widths.wf (W : Widths) : Prop := 1 ≤ W.addrW ∧ 1 ≤ W.lenW ∧ 1 ≤ W.pinW ∧ 1 ≤ W.cbW

/-- The reference widths of R6, at which the packet encoding is defined (R60). -/
abbrev Config.widths : Widths := { addrW := 16, lenW := 16, pinW := 3, cbW := 16, cfgW := 8 }

/-- A byte: "A byte is 8 bits everywhere" (R6). -/
abbrev Byte := BitVec 8

/-- A buffer cursor: a byte address in `Mem` (R6, R40). -/
abbrev Addr (W : Widths := Config.widths) := BitVec W.addrW

/-- A byte count (R6, R13). -/
abbrev Count (W : Widths := Config.widths) := BitVec W.lenW

/-- A callback token (R6, R13). -/
abbrev Token (W : Widths := Config.widths) := BitVec W.cbW

/-- A pin bit position (R6, R12). -/
abbrev Pin (W : Widths := Config.widths) := BitVec W.pinW

/-- One bit for each of the `NPIN` pins (R6, R18). -/
abbrev PinBits (W : Widths := Config.widths) := BitVec W.npin

/-- The opaque operand of `INIT` (R6, R22). -/
abbrev BusConfig (W : Widths := Config.widths) := BitVec W.cfgW

end Sys2Proof
end

