-- ==== Sys2Proof/Config.lean ====
section
/-!
DEFINITION. What is fixed for one SPI-TE and is not state: the parameters of R6 of 00_scope.md beside the widths, the
platform's device windows (R45 of 20_memory.md), their reference values, and the one free value of the model.
-/

namespace Sys2Proof

/-- A range of buffer addresses behind which the platform has a device: its first and its last address (R45). -/
structure Window (W : Widths := Config.widths) where
  first : Addr W
  last  : Addr W
deriving DecidableEq, Repr

/-- The parameters a model takes as arguments beside the widths (R6, R29), and where the platform maps devices (R45). -/
structure Params (W : Widths := Config.widths) where
  /-- `QCAP`: capacity of the queue in descriptors, the current descriptor not counted. -/
  qcap : Nat
  /-- `SEL_ACTIVE`: the logic level that means "asserted" on a select line. -/
  selActive : Bool
  /-- `PIN_CLK`: the bus clock pin. -/
  pinClk : Pin W
  /-- `PIN_DIN`: the bus data-in pin. -/
  pinDin : Pin W
  /-- `PIN_DOUT`: the bus data-out pin. -/
  pinDout : Pin W
  /-- Where the platform maps devices into the buffer address space (R45, D26; log 19). -/
  devices : List (Window W)
deriving DecidableEq, Repr

/-- The constraints R6 puts on the parameters: those on the widths, `QCAP >= 2`, and the three reserved pins distinct. -/
abbrev Params.wf {W : Widths} (P : Params W) : Prop :=
  W.wf ∧ 2 ≤ P.qcap ∧ P.pinClk ≠ P.pinDin ∧ P.pinClk ≠ P.pinDout ∧ P.pinDin ≠ P.pinDout

/-- The reference values of R6, at which `exec`, `step` and `State.reset` run (DESIGN CHOICE, safe: log 2). "The source
fixes no address: no reserved range" (R46): no device window (log 19). -/
def Config.params : Params :=
  { qcap := 8, selActive := false, pinClk := 5#3, pinDin := 4#3, pinDout := 3#3, devices := [] }

/-- FREE VALUE: the byte an address of `Mem` holds that nothing has written since reset. R30 of 10_state.md and U12 of
93_implementation_defined.md leave it "unspecified (any value)"; nothing can evaluate it (DESIGN CHOICE, safe: log 8). -/
opaque Config.memAtReset : Nat → Byte

end Sys2Proof
end

