-- ==== Sys2Proof/Syntax.lean ====
section
/-!
DEFINITION. The syntax of SPI-TE: the values its operations carry (R12, R13 of 10_state.md) and the nine operations of
spec/opcode_table.json (R60, R61 of 30_encoding.md), one constructor a row. At other widths than the reference widths these
are the "decoded operation terms" that "a model with other values works on" (R60).
-/

namespace Sys2Proof

/-- A Device (R12): the pair (dbit, lbit). A value, not a handle; two Devices are the same device exactly when both
fields are equal (R92), which is equality of this structure. -/
structure Device (W : Widths := Config.widths) where
  /-- Index into `DIR`: "bit position for direction control". -/
  dbit : Pin W
  /-- Index into `LVL`: "bit position for the logic level it drives". -/
  lbit : Pin W
deriving DecidableEq, Repr

/-- The three modes of a descriptor (R13, R66). The reserved code 0b00 has no constructor: no operation produces it
(DEDUCED from R66 and R75, safe: log 13). -/
inductive Mode where
  | read
  | write
  | readWrite
deriving DecidableEq, Repr

/-- What a DESC record gives that the operation takes unchanged (R75): "`device`, `data`, `remaining` and `callback` are
always taken from the record unchanged". The record's mode is overwritten by every operation (R72). -/
structure Request (W : Widths := Config.widths) where
  device    : Option (Device W)
  remaining : Count W
  data      : Addr W
  callback  : Option (Token W)
deriving DecidableEq, Repr

/-- The nine operations of R61, one constructor for each row of spec/opcode_table.json. A record's own capture cursor is
an operand only where R75 keeps it: in `WRITE` and in the write descriptor of `READ_WRITE`. -/
inductive Instr (W : Widths := Config.widths) where
  /-- `INIT` (R140). -/
  | init (cfg : BusConfig W)
  /-- `CREATE_DEVICE` (R90). -/
  | createDevice (dev : Device W)
  /-- `RELEASE_DEVICE` (R91). -/
  | releaseDevice (dev : Device W)
  /-- `WRITE` (R142): the record, and its capture cursor. -/
  | write (d : Request W) (capture : Option (Addr W))
  /-- `READ` (R143): the record, and the capture buffer `cap`. -/
  | read (d : Request W) (cap : Addr W)
  /-- `READ_WRITE` (R144): the write record and its capture cursor, the read record, and the capture buffer `cap`. -/
  | readWrite (w : Request W) (wcapture : Option (Addr W)) (r : Request W) (cap : Addr W)
  /-- `FLUSH` (R145). -/
  | flush
  /-- `SHIFT_DONE` (R114): the shifter's step, with the byte the peripheral returned. -/
  | shiftDone (rx : Byte)
  /-- `XFER_COMPLETE` (R115): the handler's step. -/
  | xferComplete
deriving DecidableEq, Repr

/-- Why a byte sequence is no packet: the four answers `invalid` of R73. -/
inductive Invalid where
  /-- An opcode byte outside the table of R61. -/
  | unknownOpcode (op : Byte)
  /-- A FLAGS byte with one of bits 7:5 set. -/
  | reservedFlags
  /-- A PINS byte that is read, with bit 3 or bit 7 set. -/
  | reservedPins
  /-- Fewer bytes than the opcode demands (R71). -/
  | truncated
deriving DecidableEq, Repr

end Sys2Proof
end

