-- ==== Sys2Proof/Machine/State.lean ====
section
/-!
DEFINITION. The state of SPI-TE (R10 of 10_state.md), the values it holds, the events it emits (R28), the ways a step can
stop, and reset (R30 of 10_state.md, R220 of 70_reset_and_hazards.md). All of it is plain data.
-/

namespace Sys2Proof.Machine

variable {W : Widths}

/-- The engine state flag: "exactly one of {IDLE, BUSY}" (R11). -/
inductive EngineState where
  | idle
  | busy
deriving DecidableEq, Repr

/-- A Transfer Descriptor (R13). -/
structure Desc (W : Widths := Config.widths) where
  /-- The target; absent is the source's "null" (invariant I1 is checked when the descriptor is started, R14). -/
  device    : Option (Device W)
  /-- Cursor into the buffer being shifted out. -/
  data      : Addr W
  /-- "count of bytes not yet shifted", counted down when a byte is loaded (R118). -/
  remaining : Count W
  mode      : Mode
  /-- Optional output cursor. -/
  capture   : Option (Addr W)
  /-- Optional notification, a token (R13). -/
  callback  : Option (Token W)
deriving DecidableEq, Repr

/-- How a host operation ended: `OK` or one of the four errors (R68, R190). -/
inductive ResultCode where
  | ok
  | invalidDevice
  | bufferOverflow
  | flushFailed
  | invalidPinConflict
deriving DecidableEq, Repr

/-- The output events (R28). -/
inductive Event (W : Widths := Config.widths) where
  /-- `DirOut(p)`: pin `p` configured for output. -/
  | dirOut (p : Pin W)
  /-- `SetMaster`: `CTRL.MSTR` written 1. -/
  | setMaster
  /-- `Sel(p, A)`: select line asserted, `LVL[p]` written `SEL_ACTIVE`. -/
  | selAssert (p : Pin W)
  /-- `Sel(p, D)`: select line deasserted, `LVL[p]` written `not SEL_ACTIVE`. -/
  | selDeassert (p : Pin W)
  /-- `Load(b)`: `TXR` written `b`, exchange started. -/
  | load (b : Byte)
  /-- `MemWr(a, b)`: byte `b` stored at buffer address `a`. -/
  | memWr (a : Addr W) (b : Byte)
  /-- `Callback(t)`: the notification with token `t` invoked. -/
  | callback (t : Token W)
  /-- `Release(d)`: descriptor `d`, as it is at that moment, handed back to the allocator. -/
  | release (d : Desc W)
  /-- `Diag(e)`: error `e` found in interrupt context. -/
  | diag (e : ResultCode)
  /-- `Result(e)`: a host operation ended; `CREATE_DEVICE` with success also carries the Device. -/
  | result (e : ResultCode) (dev : Option (Device W))
deriving DecidableEq, Repr

/-- The two execution contexts (R203 of 60_exceptions.md), the operand `ctx` of `START_NEXT` (R112). -/
inductive Context where
  | foreground
  | interrupt
deriving DecidableEq, Repr

/-- Buffer memory `Mem` (R40) as the list of the bytes that have been written, by rising address, no address twice. An
address that is not listed holds an unspecified byte (R30, U12): the free value `Config.memAtReset` (log 8). -/
abbrev Memory := List Host.Cell

/-- The canonical form at widths `W`: addresses strictly rising, and each an address of the space (R40: `2^ADDR_W` bytes).
No entry can equal what an unlisted address holds, since that is no known value (log 8). -/
abbrev Memory.wf (W : Widths) (m : Memory) : Prop :=
  m.Pairwise (fun x y => x.1 < y.1) ∧ ∀ c ∈ m, c.1 < 2 ^ W.addrW

/-- The state of SPI-TE. The names are those of R10. -/
structure State (W : Widths := Config.widths) where
  /-- `STATE`, the engine state flag (R11). -/
  engine   : EngineState
  /-- `CUR`, the current descriptor (R15). -/
  cur      : Option (Desc W)
  /-- `ACTIVE`, the active device (R16). -/
  active   : Option (Device W)
  /-- `Q`, the pending-transfer queue, oldest first (R17). -/
  q        : List (Desc W)
  /-- `DIR`, pin direction bits, 1 = output (R18). -/
  dir      : PinBits W
  /-- `LVL`, pin output level bits (R18). -/
  lvl      : PinBits W
  /-- `TXR`, the byte loaded for transmission (R19). -/
  txr      : Byte
  /-- `RXR`, the byte received by the last completed exchange (R19). -/
  rxr      : Byte
  /-- `XIP`, an exchange is in flight (R19). -/
  xip      : Bool
  /-- `IFR.IF`, completion interrupt pending (R20). -/
  ifrIF    : Bool
  /-- `CTRL.IE`, completion interrupt enabled (R21). -/
  ctrlIE   : Bool
  /-- `CTRL.MSTR`, the master-mode configuration bit (R21). -/
  ctrlMSTR : Bool
  /-- `CFG`, the operand of `INIT` (R22). -/
  cfg      : BusConfig W
  /-- `Mem`, buffer memory (R40). -/
  mem      : Memory
  /-- The output trace, oldest event first (R28). -/
  trace    : List (Event W)
  /-- THE MODEL'S OWN FIELD: the bytes of the stimulus script the environment has still to issue (R60; DESIGN CHOICE,
  safe: log 3). -/
  script   : List Byte
deriving DecidableEq, Repr

/-- Why the machine stops with a fault. Every one is safe: the model stops where it cannot say what the hardware does. No
run from reset reaches one. -/
inductive Fault where
  /-- Raised by `LOAD` while `XIP = 1` or `IFR.IF = 1`: "a model that can reach it must treat it as a fault" (R113, U1).
  Safe: log 9. -/
  | loadCollision
  /-- Raised by `EXHAUSTED` when `ACTIVE = none`, against its precondition `ACTIVE = c.device` (R119): there is no line to
  deassert. Safe: log 10. -/
  | noActiveDevice
  /-- Raised by `START_NEXT` on an empty queue, against its precondition `Q != []` (R112); the `Empty` answer of `DEQUEUE`
  is "never produced" (R162). Safe: log 11. -/
  | dequeueEmpty
deriving DecidableEq, Repr

/-- Why a step is refused: the spec gives the stimulus no step. Every one is safe: "Errs toward unprovable" (U2, U3). -/
inductive Refusal where
  /-- Raised by `exec` for an instruction that has no meaning yet; no arm of this model uses it. Safe. -/
  | notModelled (mnemonic : String)
  /-- Raised by `step` when no stimulus is left: no agent acts. Safe: log 4. -/
  | noStimulus
  /-- Raised by `step` for bytes that are no packet (R73, U2). Safe: log 5. -/
  | invalidPacket (why : Invalid)
  /-- Raised by `WRITE`, `READ`, `READ_WRITE` for a descriptor whose present Device names a reserved pin (R73, U2).
  Safe: log 6. -/
  | illFormedDevice
  /-- Raised by `INIT` while a transfer is in flight or descriptors are queued (R140, U3). Safe. -/
  | initNotIdle
  /-- Raised by `SHIFT_DONE` when `XIP = 0` (R114, R69, U2). Safe. -/
  | noExchangeInFlight
  /-- Raised by `XFER_COMPLETE` when `IFR.IF = 0` or `CTRL.IE = 0` (R115, R69, U2). Safe. -/
  | handlerNotEnabled
  /-- Raised by `WRITE`, `READ`, `READ_WRITE` and `XFER_COMPLETE` where a cursor of the current descriptor comes to point at
  a device the platform maps (R45, D26). Safe: log 19. -/
  | deviceUnderCursor
deriving DecidableEq, Repr

/-- What an operation answers: a value, a fault or a refusal. -/
abbrev Answer (α : Type) := Host.Outcome α Fault Refusal

/-- The state after reset (R30, R220), for any parameters. `TXR`, `RXR` and `CFG` are unspecified there; the 0 is a DESIGN
CHOICE, unsafe (log 7). The script is empty (log 3). -/
def State.resetAt (P : Params W) : State W :=
  { engine := .idle, cur := none, active := none, q := [], dir := 0#_,
    lvl := if P.selActive then 0#_ else BitVec.allOnes _,
    txr := 0#8, rxr := 0#8, xip := false, ifrIF := false, ctrlIE := false, ctrlMSTR := false, cfg := 0#_,
    mem := [], trace := [], script := [] }

/-- The state after reset at the reference parameters. -/
def State.reset : State := State.resetAt Config.params

end Sys2Proof.Machine
end

