-- ==== Sys2Proof/WellFormed.lean ====
section
/-!
DEFINITION. Which operations are well-formed (R73 of 30_encoding.md): a descriptor's present Device must be valid
(R12 of 10_state.md). Nothing else can be ill-formed: every other constraint of an encoding is a matter of its bits,
which the decoder checks.
-/

namespace Sys2Proof

variable {W : Widths}

/-- The pins `CREATE_DEVICE` refuses: `RESERVED` of R90, R46. -/
abbrev Params.reserved (P : Params W) (p : Pin W) : Prop :=
  p = P.pinClk ∨ p = P.pinDin ∨ p = P.pinDout

/-- A Device is valid "when neither `dbit` nor `lbit` is one of `PIN_CLK`, `PIN_DIN`, `PIN_DOUT`" (R12). -/
abbrev Device.valid (P : Params W) (dev : Device W) : Prop :=
  ¬ P.reserved dev.dbit ∧ ¬ P.reserved dev.lbit

/-- A present Device is valid; an absent one is well-formed (R73: "a DESC record with `dev_v = 1`"). -/
abbrev deviceOk (P : Params W) (device : Option (Device W)) : Prop :=
  ∀ dev ∈ device, dev.valid P

/-- A DESC record is well-formed when its device is (R73). -/
abbrev Request.wellFormed (P : Params W) (r : Request W) : Prop :=
  deviceOk P r.device

/-- R73: a packet that decodes is ill-formed exactly when a DESC record of it carries a Device that is not valid. The
PINS operands of `CREATE_DEVICE` and `RELEASE_DEVICE` are no DESC record. -/
def Instr.wellFormed (P : Params W) : Instr W → Prop
  | .init _ => True
  | .createDevice _ => True
  | .releaseDevice _ => True
  | .write d _ => d.wellFormed P
  | .read d _ => d.wellFormed P
  | .readWrite w _ r _ => w.wellFormed P ∧ r.wellFormed P
  | .flush => True
  | .shiftDone _ => True
  | .xferComplete => True

end Sys2Proof
end

