-- ==== Sys2Proof/Machine/Flags.lean ====
section
/-!
DEFINITION. The status conditions the rules read. SPI-TE has no arithmetic condition codes (R24 of 10_state.md); these
are the derived conditions on its one-bit items, its queue and its pins.
-/

namespace Sys2Proof.Machine

variable {W : Widths}

/-- One bit of `DIR` or `LVL`, by pin (R18). -/
def pinBit (v : PinBits W) (p : Pin W) : Bool := v.getLsbD p.toNat

/-- `asserted(dev)` is `DIR[dev.dbit] = 1 and LVL[dev.lbit] = SEL_ACTIVE` (R18). -/
abbrev asserted (P : Params W) (dev : Device W) (s : State W) : Prop :=
  pinBit s.dir dev.dbit = true ∧ pinBit s.lvl dev.lbit = P.selActive

/-- `IS_EMPTY() = (|Q| = 0)` (R163), the condition *queue empty* of R24. -/
abbrev isEmpty (s : State W) : Prop := s.q.length = 0

/-- The condition *queue full*: `|Q| = QCAP` (R24). -/
abbrev isFull (P : Params W) (s : State W) : Prop := s.q.length = P.qcap

/-- The number of free slots, `QCAP - |Q|` (R160). -/
def freeSlots (P : Params W) (s : State W) : Nat := P.qcap - s.q.length

/-- The precondition of `INIT` (R140). -/
abbrev initEnabled (s : State W) : Prop :=
  s.engine = .idle ∧ s.cur = none ∧ s.q = [] ∧ s.xip = false ∧ s.ifrIF = false

/-- The enabling condition of `SHIFT_DONE`: `XIP = 1` (R114). -/
abbrev shiftEnabled (s : State W) : Prop := s.xip = true

/-- The enabling condition of `XFER_COMPLETE`: `IFR.IF = 1 and CTRL.IE = 1` (R115, R198). -/
abbrev handlerEnabled (s : State W) : Prop := s.ifrIF = true ∧ s.ctrlIE = true

/-- A mode *includes a read component* when it is `READ` or `READ_WRITE` (R13), `mode[0] = 1` (R66). -/
def includesRead (m : Mode) : Bool := m = .read || m = .readWrite

end Sys2Proof.Machine
end

