-- ==== Sys2Proof/Decode.lean ====
section
/-!
DEFINITION. The packet encoding (30_encoding.md): the opcode table, a decoder that is total on any bytes and rejects by
name (R73), the canonical encoder (R72), and the codes of the spec's enumerations that packets and responses carry.
-/

namespace Sys2Proof

/-! ### Fields -/

/-- A 16-bit field is `{byte[k+1], byte[k]}` (R70). -/
def word16 (lo hi : Byte) : BitVec 16 := hi ++ lo

/-- The byte of a 16-bit field at the lower offset (R70). -/
def lowByte (v : BitVec 16) : Byte := v.extractLsb' 0 8

/-- The byte of a 16-bit field at the higher offset (R70). -/
def highByte (v : BitVec 16) : Byte := v.extractLsb' 8 8

/-- The code of a mode (R66): `READ = 0b01`, `WRITE = 0b10`, `READ_WRITE = 0b11`. -/
def Mode.code : Mode → BitVec 2
  | .read => 0b01#2
  | .write => 0b10#2
  | .readWrite => 0b11#2

/-- A Device from a PINS byte that is read (R64, R73): bits 2:0 `dbit`, bits 6:4 `lbit`, bits 3 and 7 zero. -/
def decodePins (b : Byte) : Except Invalid Device :=
  if b.getLsbD 3 || b.getLsbD 7 then .error .reservedPins
  else .ok { dbit := b.extractLsb' 0 3, lbit := b.extractLsb' 4 3 }

/-- The PINS byte of a Device (R64). -/
def encodePins (dev : Device) : Byte := 0#1 ++ dev.lbit ++ 0#1 ++ dev.dbit

/-- The FLAGS byte (R65): bits 1:0 `mode`, bit 2 `dev_v`, bit 3 `cap_v`, bit 4 `cb_v`, bits 7:5 zero. -/
def encodeFlags (m : Mode) (devV capV cbV : Bool) : Byte :=
  0#3 ++ BitVec.ofBool cbV ++ BitVec.ofBool capV ++ BitVec.ofBool devV ++ m.code

/-- An optional value behind a presence bit. -/
def present {α : Type} (v : Bool) (x : α) : Option α := if v then some x else none

/-! ### The DESC record (R63) -/

/-- The device of a DESC record: PINS is ignored when `dev_v = 0` (R72). -/
def decodeDevice (devV : Bool) (pins : Byte) : Except Invalid (Option Device) :=
  if devV then
    match decodePins pins with
    | .error e => .error e
    | .ok dev => .ok (some dev)
  else .ok none

/-- One DESC record from the front of a byte list: what the operation may take from it, its capture cursor, and the rest
(R63, R65, R70). FLAGS.`mode` is ignored (R72). -/
def decodeDesc : List Byte → Except Invalid (Request × Option Addr × List Byte)
  | flags :: pins :: r0 :: r1 :: d0 :: d1 :: c0 :: c1 :: k0 :: k1 :: rest =>
    if flags.getLsbD 5 || flags.getLsbD 6 || flags.getLsbD 7 then .error .reservedFlags
    else
      match decodeDevice (flags.getLsbD 2) pins with
      | .error e => .error e
      | .ok device =>
        .ok ({ device := device, remaining := word16 r0 r1, data := word16 d0 d1,
               callback := present (flags.getLsbD 4) (word16 k0 k1) },
             present (flags.getLsbD 3) (word16 c0 c1), rest)
  | _ => .error .truncated

/-- The canonical DESC record (R72): the mode the operation will give, zero in an absent field. -/
def encodeDesc (m : Mode) (d : Request) (capture : Option Addr) : List Byte :=
  [encodeFlags m d.device.isSome capture.isSome d.callback.isSome,
   (d.device.map encodePins).getD 0#8,
   lowByte d.remaining, highByte d.remaining,
   lowByte d.data, highByte d.data,
   lowByte (capture.getD 0#16), highByte (capture.getD 0#16),
   lowByte (d.callback.getD 0#16), highByte (d.callback.getD 0#16)]

/-- A 16-bit field from the front of a byte list. -/
def decodeWord : List Byte → Except Invalid (BitVec 16 × List Byte)
  | lo :: hi :: rest => .ok (word16 lo hi, rest)
  | _ => .error .truncated

/-! ### The opcode byte (R61) -/

/-- The opcode byte of an operation (R61). -/
def Instr.opcode : Instr → Byte
  | .init _ => 0x01#8
  | .createDevice _ => 0x02#8
  | .releaseDevice _ => 0x03#8
  | .write _ _ => 0x04#8
  | .read _ _ => 0x05#8
  | .readWrite _ _ _ _ => 0x06#8
  | .flush => 0x07#8
  | .shiftDone _ => 0x80#8
  | .xferComplete => 0x81#8

/-- The packet length in bytes, learned "from the opcode byte alone" (R71); none for a byte that is no opcode. -/
def packetLength (op : Byte) : Option Nat :=
  if op = 0x01#8 then some 2
  else if op = 0x02#8 then some 2
  else if op = 0x03#8 then some 2
  else if op = 0x04#8 then some 11
  else if op = 0x05#8 then some 13
  else if op = 0x06#8 then some 23
  else if op = 0x07#8 then some 1
  else if op = 0x80#8 then some 2
  else if op = 0x81#8 then some 1
  else none

/-- The longest packet, in bytes: `READ_WRITE` (R61). -/
def maxPacketBytes : Nat := 23

/-! ### The decoder -/

/-- Format P: a PINS byte that is read (R62, R64). -/
def decodeP (make : Device → Instr) : List Byte → Except Invalid (Instr × List Byte)
  | b :: rest =>
    match decodePins b with
    | .error e => .error e
    | .ok dev => .ok (make dev, rest)
  | [] => .error .truncated

/-- Formats I and E: one operand byte (R62). -/
def decodeByte (make : Byte → Instr) : List Byte → Except Invalid (Instr × List Byte)
  | b :: rest => .ok (make b, rest)
  | [] => .error .truncated

/-- Format D (R62). -/
def decodeD (bs : List Byte) : Except Invalid (Instr × List Byte) :=
  match decodeDesc bs with
  | .error e => .error e
  | .ok (d, capture, rest) => .ok (.write d capture, rest)

/-- Format DC (R62); the record's own capture cursor is overwritten by `cap` and so ignored (R72, R75). -/
def decodeDC (bs : List Byte) : Except Invalid (Instr × List Byte) :=
  match decodeDesc bs with
  | .error e => .error e
  | .ok (d, _, rest) =>
    match decodeWord rest with
    | .error e => .error e
    | .ok (cap, rest') => .ok (.read d cap, rest')

/-- Format DDC (R62); the read record's own capture cursor is ignored (R72, R75). -/
def decodeDDC (bs : List Byte) : Except Invalid (Instr × List Byte) :=
  match decodeDesc bs with
  | .error e => .error e
  | .ok (w, wcapture, rest) =>
    match decodeDesc rest with
    | .error e => .error e
    | .ok (r, _, rest') =>
      match decodeWord rest' with
      | .error e => .error e
      | .ok (cap, rest'') => .ok (.readWrite w wcapture r cap, rest'')

/-- What follows the opcode byte, by the opcode's format (R61, R62). -/
def decodeBody (op : Byte) (bs : List Byte) : Except Invalid (Instr × List Byte) :=
  if op = 0x01#8 then decodeByte (fun cfg => .init cfg) bs
  else if op = 0x02#8 then decodeP .createDevice bs
  else if op = 0x03#8 then decodeP .releaseDevice bs
  else if op = 0x04#8 then decodeD bs
  else if op = 0x05#8 then decodeDC bs
  else if op = 0x06#8 then decodeDDC bs
  else if op = 0x07#8 then .ok (.flush, bs)
  else if op = 0x80#8 then decodeByte (fun rx => .shiftDone rx) bs
  else if op = 0x81#8 then .ok (.xferComplete, bs)
  else .error (.unknownOpcode op)

/-- The decoder, total on any bytes: the operation of the packet at the front and the bytes after it, or the name of what
makes it `invalid` (R73). -/
def decode : List Byte → Except Invalid (Instr × List Byte)
  | [] => .error .truncated
  | op :: bs => decodeBody op bs

/-! ### The encoder -/

/-- The canonical packet of an operation (R62, R72). -/
def encode (i : Instr) : List Byte :=
  i.opcode ::
    match i with
    | .init cfg => [cfg]
    | .createDevice dev => [encodePins dev]
    | .releaseDevice dev => [encodePins dev]
    | .write d capture => encodeDesc .write d capture
    | .read d cap => encodeDesc .read d (some cap) ++ [lowByte cap, highByte cap]
    | .readWrite w wcapture r cap =>
      encodeDesc .readWrite w wcapture ++ encodeDesc .read r (some cap) ++ [lowByte cap, highByte cap]
    | .flush => []
    | .shiftDone rx => [rx]
    | .xferComplete => []

/-! ### The table's numbering -/

/-- A packet taken as one number: byte `k` occupies bits `[8k+7 : 8k]` (R62). -/
def packetNumber : List Byte → Nat
  | [] => 0
  | b :: bs => b.toNat + 256 * packetNumber bs

/-- The bytes of the longest packet whose low `nbits` bits are those of `w` and whose other bits are zero (R62). -/
def tableBytes (nbits w : Nat) : List Byte :=
  (List.range maxPacketBytes).map fun k => BitVec.ofNat 8 ((w % 2 ^ nbits) >>> (8 * k))

/-- The operation the decoder reads from a packet given as a number in the table's numbering. -/
def decodeTableWord (nbits w : Nat) : Option Instr :=
  match decode (tableBytes nbits w) with
  | .ok (i, _) => some i
  | .error _ => none

/-- One row of spec/opcode_table.json: a packet `p` of `length` bytes is of the row's operation when
`p and mask = match` (R62). -/
structure OpcodeRow where
  mnemonic : String
  length   : Nat
  value    : Nat
  mask     : Nat
deriving DecidableEq, Repr

/-- spec/opcode_table.json's `length_bytes`, `match` and `mask`. -/
def opcodeTable : List OpcodeRow :=
  [ ⟨"INIT", 2, 0x0001, 0x00FF⟩,
    ⟨"CREATE_DEVICE", 2, 0x0002, 0x88FF⟩,
    ⟨"RELEASE_DEVICE", 2, 0x0003, 0x88FF⟩,
    ⟨"WRITE", 11, 0x04, 0xE0FF⟩,
    ⟨"READ", 13, 0x05, 0xE0FF⟩,
    ⟨"READ_WRITE", 23, 0x06, 0xE0000000000000000000E0FF⟩,
    ⟨"FLUSH", 1, 0x07, 0xFF⟩,
    ⟨"SHIFT_DONE", 2, 0x0080, 0x00FF⟩,
    ⟨"XFER_COMPLETE", 1, 0x81, 0xFF⟩ ]

/-- The table's mnemonic of an operation. -/
def Instr.mnemonic : Instr → String
  | .init _ => "INIT"
  | .createDevice _ => "CREATE_DEVICE"
  | .releaseDevice _ => "RELEASE_DEVICE"
  | .write _ _ => "WRITE"
  | .read _ _ => "READ"
  | .readWrite _ _ _ _ => "READ_WRITE"
  | .flush => "FLUSH"
  | .shiftDone _ => "SHIFT_DONE"
  | .xferComplete => "XFER_COMPLETE"

/-- A packet of `n` bytes given as a number matches a row (R62). -/
abbrev OpcodeRow.matches (row : OpcodeRow) (n p : Nat) : Prop :=
  n = row.length ∧ p &&& row.mask = row.value

end Sys2Proof
end

