-- ==== Sys2Proof/Machine/Operands.lean ====
section
/-!
DEFINITION. The operand forms: how each operation builds its descriptors from the packet (R75 of 30_encoding.md), cursor
arithmetic (R47 of 20_memory.md), and the codes and bytes of a response (R68, R78 of 30_encoding.md).
-/

namespace Sys2Proof.Machine

variable {W : Widths}

/-- Tagging (R75): the record with a mode and a capture cursor; `device`, `data`, `remaining` and `callback` "are always
taken from the record unchanged". -/
def tag (m : Mode) (capture : Option (Addr W)) (d : Request W) : Desc W :=
  { device := d.device, data := d.data, remaining := d.remaining, mode := m, capture := capture, callback := d.callback }

/-- The descriptor of `WRITE`: `mode <- WRITE`, its `capture` as the record gives it (R75). -/
def writeDesc (d : Request W) (capture : Option (Addr W)) : Desc W := tag .write capture d

/-- The descriptor of `READ`: `mode <- READ`, `capture <- some(cap)` (R75). -/
def readDesc (d : Request W) (cap : Addr W) : Desc W := tag .read (some cap) d

/-- The write descriptor of `READ_WRITE`: `mode <- READ_WRITE`, its `capture` as given (R75). -/
def commandDesc (w : Request W) (wcapture : Option (Addr W)) : Desc W := tag .readWrite wcapture w

/-- Advancing a cursor by one, modulo `2^ADDR_W` (R47). -/
def nextAddr (a : Addr W) : Addr W := a + 1#_

/-- The result codes (R68). -/
def ResultCode.code : ResultCode → Byte
  | .ok => 0#8
  | .invalidDevice => 1#8
  | .bufferOverflow => 2#8
  | .flushFailed => 3#8
  | .invalidPinConflict => 4#8

/-- A response as bytes (R78): the code, followed for a created Device by its PINS byte. Only `Result` is a response. -/
def Event.response : Event → Option (List Byte)
  | .result e (some dev) => some [e.code, encodePins dev]
  | .result e none => some [e.code]
  | _ => none

end Sys2Proof.Machine
end

