-- ==== Sys2Proof/Machine/Ops.lean ====
section
/-!
DEFINITION. The shared operations over memory, registers, pins and the trace; the port effects (R205 of
60_exceptions.md); entering the handler and leaving it (R200, R201); and the environment's moves (R7, R53).
-/

namespace Sys2Proof.Machine

variable {W : Widths}

/-! ### Answers -/

/-- Go on with a value, or stop as the answer stopped. -/
def andThen {α β : Type} (r : Answer α) (k : α → Answer β) : Answer β :=
  match r with
  | .next a => k a
  | .fault f => .fault f
  | .refused e => .refused e

/-! ### Buffer memory (20_memory.md) -/

/-- The byte a memory lists at an address, if it lists one. -/
def Memory.find (a : Nat) : Memory → Option Byte
  | [] => none
  | (k, v) :: m => if k = a then some v else Memory.find a m

/-- A memory with the byte at one address replaced; the canonical form is kept. -/
def Memory.put (a : Nat) (v : Byte) : Memory → Memory
  | [] => [(a, v)]
  | (k, x) :: m =>
    if a < k then (a, v) :: (k, x) :: m
    else if a = k then (a, v) :: m
    else (k, x) :: Memory.put a v m

/-- The byte `Mem[a]` of a memory: the listed byte, or the free value of an address nothing has written (log 8). -/
def Memory.byteAt (m : Memory) (a : Addr W) : Byte := (Memory.find a.toNat m).getD (Config.memAtReset a.toNat)

/-- `MemRead(a, 1)`: "returns the byte `Mem[addr]`", with no side effect (R41). -/
def memRead (a : Addr W) (s : State W) : Byte := Memory.byteAt s.mem a

/-- An address behind which the platform has a device (R45). -/
def onDevice (P : Params W) (a : Addr W) : Bool := P.devices.any fun w => decide (w.first ≤ a) && decide (a ≤ w.last)

/-- "a device ... where a cursor points" (R45): at the byte that is loaded, or at the byte that will be captured. -/
def cursorOnDevice (P : Params W) (c : Desc W) : Bool :=
  onDevice P c.data || includesRead c.mode && c.capture.any (onDevice P)

/-- "a model should refuse it" (R45): a step that leaves a current descriptor with a cursor on a device is refused. The
data cursor of a current descriptor is where its last load read, and its capture cursor is where its next completion stores,
so this covers every access of R41 and R42 (log 19). -/
def refuseDevices (P : Params W) (r : Answer (State W)) : Answer (State W) :=
  andThen r fun t =>
    match t.cur with
    | none => .next t
    | some c => if cursorOnDevice P c then .refused .deviceUnderCursor else .next t

/-! ### Events and registers -/

/-- `emit E` (R9): append one event to the trace. -/
def emit (e : Event W) (s : State W) : State W := { s with trace := s.trace ++ [e] }

/-- `MemWrite(a, 1, v)`: "sets `Mem[addr] <- v` and emits `MemWr(addr, v)`" (R42). -/
def memWrite (a : Addr W) (v : Byte) (s : State W) : State W :=
  emit (.memWr a v) { s with mem := Memory.put a.toNat v s.mem }

/-- `CUR` after a change of the current descriptor's fields (R15). -/
def setCur (c : Desc W) (s : State W) : State W := { s with cur := some c }

/-- `CUR <- none`. -/
def clearCur (s : State W) : State W := { s with cur := none }

/-- `STATE <- v`. -/
def setEngine (v : EngineState) (s : State W) : State W := { s with engine := v }

/-! ### Pins (R18) -/

/-- A pin vector with one bit written. -/
def setPin (v : PinBits W) (p : Pin W) (b : Bool) : PinBits W :=
  if b then v ||| (1#_ <<< p.toNat) else v &&& ~~~(1#_ <<< p.toNat)

/-- "configure pin direction": `DIR[p] <- 1; emit DirOut(p)` (R205, R93). -/
def configureOutput (p : Pin W) (s : State W) : State W := emit (.dirOut p) { s with dir := setPin s.dir p true }

/-- `CTRL.MSTR <- 1; emit SetMaster` (R93, R140). -/
def setMaster (s : State W) : State W := emit .setMaster { s with ctrlMSTR := true }

/-- `ASSERT(dev)`: `LVL[dev.lbit] <- SEL_ACTIVE; emit Sel(dev.lbit, A)` (R94). -/
def assertLine (P : Params W) (dev : Device W) (s : State W) : State W :=
  emit (.selAssert dev.lbit) { s with lvl := setPin s.lvl dev.lbit P.selActive }

/-- `DEASSERT(dev)`: `LVL[dev.lbit] <- not SEL_ACTIVE; emit Sel(dev.lbit, D)` (R95). -/
def deassertLine (P : Params W) (dev : Device W) (s : State W) : State W :=
  emit (.selDeassert dev.lbit) { s with lvl := setPin s.lvl dev.lbit (!P.selActive) }

/-! ### The shifter's port (R113, R114) -/

/-- `LOAD(b)`: `TXR <- b; XIP <- 1; emit Load(b)`; "a `LOAD` with `XIP = 1` or with `IFR.IF = 1`" is a fault
(R113, U1, log 9). -/
def load (b : Byte) (s : State W) : Answer (State W) :=
  if s.xip = true ∨ s.ifrIF = true then .fault .loadCollision
  else .next (emit (.load b) { s with txr := b, xip := true })

/-- The shifter's completion: `XIP <- 0; RXR <- rx; IFR.IF <- 1` (R114). -/
def completeExchange (rx : Byte) (s : State W) : State W := { s with xip := false, rxr := rx, ifrIF := true }

/-! ### The completion interrupt (R197 to R201) -/

/-- Entry to the handler: "It clears `IFR.IF` and reads `RXR`"; it "saves nothing and changes no mode" (R200). The byte
received is the first component. -/
def enterHandler (s : State W) : Byte × State W := (s.rxr, { s with ifrIF := false })

/-- The end of a handler run: "There is no return instruction; the handler step simply ends and restores nothing"
(R201). -/
def leaveHandler (s : State W) : State W := s

/-! ### Results (R9, R78, R195) -/

/-- The end of a host operation: "Ending an operation emits `Result(code)` as its last event" (R9), whether it returns or
raises. -/
def endWith (code : ResultCode) (s : State W) : State W := emit (.result code none) s

/-! ### The environment's moves -/

/-- The host stores a byte of its own memory between two steps (R40, R48, R49, R53). It is no operation of SPI-TE and emits
no event (DESIGN CHOICE, safe: log 15). -/
def State.hostStore (a : Addr W) (v : Byte) (s : State W) : State W := { s with mem := Memory.put a.toNat v s.mem }

/-- The environment adds stimulus packets at the end of the script (R60; log 3). -/
def State.feed (bytes : List Byte) (s : State W) : State W := { s with script := s.script ++ bytes }

end Sys2Proof.Machine
end

