-- ==== Sys2Proof/Machine/Queue.lean ====
section
/-!
DEFINITION. The queue and allocator collaborators, at their contract (43_queue_allocator.md): ENQUEUE, DEQUEUE, FLUSH_ALL
and RELEASE. IS_EMPTY is `isEmpty` of Machine/Flags.lean.
-/

namespace Sys2Proof.Machine

variable {W : Widths}

/-- `ENQUEUE(d)` (R161): the answer, true for success and false for `Full`, and the state; `Full` leaves `Q` unchanged. -/
def enqueue (P : Params W) (d : Desc W) (s : State W) : Bool × State W :=
  if isFull P s then (false, s) else (true, { s with q := s.q ++ [d] })

/-- `for d in ds, in order: ENQUEUE(d)` (R141). -/
def enqueueAll (P : Params W) : List (Desc W) → State W → State W
  | [], s => s
  | d :: ds, s => enqueueAll P ds (enqueue P d s).2

/-- `RELEASE(d)`: `emit Release(d)` (R165). -/
def release (d : Desc W) (s : State W) : State W := emit (.release d) s

/-- `for d in ds, in order: RELEASE(d)` (R141, R164). -/
def releaseAll : List (Desc W) → State W → State W
  | [], s => s
  | d :: ds, s => releaseAll ds (release d s)

/-- `FLUSH_ALL()` (R164): every descriptor of `Q` dequeued and released, oldest first. It does not touch `CUR`. -/
def flushAll (s : State W) : State W := releaseAll s.q { s with q := [] }

end Sys2Proof.Machine
end

