-- ==== Sys2Proof/Machine/Selector.lean ====
section
/-!
DEFINITION. The device selector (40_device_selector.md): ACTIVATE and SWITCH_GUARD, and the two host operations on
Devices. ASSERT and DEASSERT are port effects of Machine/Ops.lean.
-/

namespace Sys2Proof.Machine

variable {W : Widths}

/-- `ACTIVATE(dev)` (R93): a no-op when `dev` is active already (equality of R92); else it records the device, configures
its pin for output and repairs the master-mode bit. -/
def activate (dev : Device W) (s : State W) : State W :=
  if s.active = some dev then s
  else setMaster (configureOutput dev.dbit { s with active := some dev })

/-- `SWITCH_GUARD(dev)` (R96): deassert the old device's line when the device changes and the old line is asserted. -/
def switchGuard (P : Params W) (dev : Device W) (s : State W) : State W :=
  match s.active with
  | none => s
  | some a => if a ≠ dev ∧ asserted P a s then deassertLine P a s else s

/-- `CREATE_DEVICE` (R90): `INVALID_PIN_CONFLICT` when one of the two identifiers is reserved, else the Device. -/
def createDeviceAt (P : Params W) (dev : Device W) (s : State W) : Answer (State W) :=
  if P.reserved dev.dbit ∨ P.reserved dev.lbit then .next (endWith .invalidPinConflict s)
  else .next (emit (.result .ok (some dev)) s)

/-- `CREATE_DEVICE` (R90) at the reference parameters. -/
def execCreateDevice (dev : Device) (s : State) : Answer State := createDeviceAt Config.params dev s

/-- `RELEASE_DEVICE` (R91): `return OK`; no state is written. The operand is any pair (log 6). -/
def execReleaseDevice (_dev : Device W) (s : State W) : Answer (State W) := .next (endWith .ok s)

end Sys2Proof.Machine
end

