-- ==== Sys2Proof/Machine/Engine.lean ====
section
/-!
DEFINITION. The transfer engine (41_transfer_engine.md): EXHAUSTED, START_NEXT, KICK, CAPTURE, ADVANCE, CONTINUE, and the
two hardware steps SHIFT_DONE and XFER_COMPLETE. LOAD is a port effect of Machine/Ops.lean.
-/

namespace Sys2Proof.Machine

variable {W : Widths}

/-! ### Ending a descriptor -/

/-- Step 4a of `EXHAUSTED`: a callback that is set is invoked and its reference cleared (R119, invariant I2). -/
def fireCallback (c : Desc W) (s : State W) : Desc W × State W :=
  match c.callback with
  | none => (c, s)
  | some t => ({ c with callback := none }, setCur { c with callback := none } (emit (.callback t) s))

/-- `EXHAUSTED()` (R119), for the current descriptor `c`. The first component is true when the caller must start the next
descriptor. With no active device, against the precondition, it faults (log 10). -/
def exhausted (P : Params W) (c : Desc W) (s : State W) : Answer (Bool × State W) :=
  let (c', s1) := fireCallback c s
  match s1.active with
  | none => .fault .noActiveDevice
  | some a =>
    if isEmpty s1 then
      .next (false, setEngine .idle (deassertLine P a (clearCur (release c' s1))))
    else
      let s2 := if c'.mode = .readWrite then s1 else deassertLine P a s1
      .next (true, clearCur (release c' s2))

/-! ### Starting a descriptor -/

/-- The line of the active device deasserted if it is asserted: `if ACTIVE = some(a) and asserted(a): DEASSERT(a)` of R112
(point (c)). -/
def releaseLine (P : Params W) (s : State W) : State W :=
  match s.active with
  | none => s
  | some a => if asserted P a s then deassertLine P a s else s

/-- The null-device branch of `START_NEXT` (R112, step 3): release, report, and go idle when the queue is empty, with a
line that is still asserted deasserted. The first component is true when the loop goes on. -/
def dropNullDevice (P : Params W) (ctx : Context) (d : Desc W) (s : State W) : Bool × State W :=
  let s1 := clearCur (release d s)
  let s2 := match ctx with
    | .interrupt => emit (.diag .invalidDevice) s1
    | .foreground => s1
  if isEmpty s2 then (false, setEngine .idle (releaseLine P s2))
  else (true, s2)

/-- Steps 5 to 7 of `START_NEXT` (R112): decrement `remaining`, assert the line, load the first byte, enter BUSY. -/
def startExchange (P : Params W) (dev : Device W) (d : Desc W) (s : State W) : Answer (State W) :=
  let s1 := assertLine P dev (setCur { d with remaining := d.remaining - 1#_ } s)
  andThen (load (memRead d.data s1) s1) fun s2 => .next (setEngine .busy s2)

/-- One pass of the loop of `START_NEXT` (R112) over the descriptor `d` just dequeued. The first component is true when the
loop goes on. A zero-length descriptor goes straight to `EXHAUSTED` (R121). -/
def startPass (P : Params W) (ctx : Context) (d : Desc W) (s : State W) : Answer (Bool × State W) :=
  let s1 := setCur d s
  match d.device with
  | none => .next (dropNullDevice P ctx d s1)
  | some dev =>
    let s2 := activate dev (switchGuard P dev s1)
    if d.remaining = 0#_ then exhausted P d s2
    else andThen (startExchange P dev d s2) fun s3 => .next (false, s3)

/-- The result of `START_NEXT` after a pass over `d`: `INVALID_DEVICE` "if any descriptor passed over had no device"
(R112). -/
def resultAfter (d : Desc W) (res : ResultCode) : ResultCode :=
  match d.device with
  | none => .invalidDevice
  | some _ => res

/-- The loop of `START_NEXT` (R112) over the descriptors of `Q`: each pass dequeues the head (`DEQUEUE`, R162). -/
def startLoop (P : Params W) (ctx : Context) : List (Desc W) → ResultCode → State W → Answer (ResultCode × State W)
  | [], _, _ => .fault .dequeueEmpty
  | d :: rest, res, s =>
    match startPass P ctx d { s with q := rest } with
    | .fault f => .fault f
    | .refused e => .refused e
    | .next (false, s') => .next (resultAfter d res, s')
    | .next (true, s') => startLoop P ctx rest (resultAfter d res) s'

/-- `START_NEXT(ctx)` (R112). -/
def startNext (P : Params W) (ctx : Context) (s : State W) : Answer (ResultCode × State W) :=
  startLoop P ctx s.q .ok s

/-- `KICK()` (R111): "engine kicks off a transfer only if currently idle". -/
def kick (P : Params W) (s : State W) : Answer (ResultCode × State W) :=
  match s.engine with
  | .busy => .next (.ok, s)
  | .idle => startNext P .foreground s

/-! ### A completed byte -/

/-- `CAPTURE(rx)` (R116), for the current descriptor `c`: the descriptor with its capture cursor advanced, and the state
with the byte stored; or both unchanged, the byte discarded. -/
def capture (rx : Byte) (c : Desc W) (s : State W) : Desc W × State W :=
  match c.capture with
  | none => (c, s)
  | some a =>
    if includesRead c.mode then
      ({ c with capture := some (nextAddr a) }, setCur { c with capture := some (nextAddr a) } (memWrite a rx s))
    else (c, s)

/-- `ADVANCE()` (R117): `CUR.data <- CUR.data + 1`. -/
def advance (c : Desc W) (s : State W) : Desc W × State W :=
  ({ c with data := nextAddr c.data }, setCur { c with data := nextAddr c.data } s)

/-- `CONTINUE()` (R118): decrement `remaining` and load the next byte; the select line is not touched. -/
def continueTransfer (c : Desc W) (s : State W) : Answer (State W) :=
  let s1 := setCur { c with remaining := c.remaining - 1#_ } s
  load (memRead c.data s1) s1

/-- The body of the handler for the current descriptor `c` and the received byte `rx` (R115, steps 1 to 4). -/
def handleByte (P : Params W) (rx : Byte) (c : Desc W) (s : State W) : Answer (State W) :=
  let (c1, s1) := capture rx c s
  let (c2, s2) := advance c1 s1
  if c2.remaining ≠ 0#_ then continueTransfer c2 s2
  else
    andThen (exhausted P c2 s2) fun (more, s3) =>
      if more then andThen (startNext P .interrupt s3) fun (_, s4) => .next s4
      else .next s3

/-- One run of the handler, where it is enabled (R115). With `CUR = none` it clears the flag and does nothing else (corner
case (a)). -/
def runHandler (P : Params W) (s : State W) : Answer (State W) :=
  if handlerEnabled s then
    let (rx, s0) := enterHandler s
    match s0.cur with
    | none => .next (leaveHandler s0)
    | some c => andThen (handleByte P rx c s0) fun s' => .next (leaveHandler s')
  else .refused .handlerNotEnabled

/-- `XFER_COMPLETE` (R115), a device under a cursor refused (R45). -/
def xferCompleteAt (P : Params W) (s : State W) : Answer (State W) := refuseDevices P (runHandler P s)

/-- `XFER_COMPLETE` (R115) at the reference parameters. -/
def execXferComplete (s : State) : Answer State := xferCompleteAt Config.params s

/-- `SHIFT_DONE rx` (R114): the shifter's completion, where an exchange is in flight. -/
def execShiftDone (rx : Byte) (s : State W) : Answer (State W) :=
  if shiftEnabled s then .next (completeExchange rx s) else .refused .noExchangeInFlight

end Sys2Proof.Machine
end

