-- ==== Sys2Proof/Machine/Api.lean ====
section
/-!
DEFINITION. The public operations (42_public_api.md): INIT, SUBMIT, WRITE, READ, READ_WRITE and FLUSH.
-/

namespace Sys2Proof.Machine

variable {W : Widths}

/-- `INIT cfg` (R140), where its precondition holds; elsewhere the step is refused (U3). -/
def execInit (cfg : BusConfig W) (s : State W) : Answer (State W) :=
  if initEnabled s then
    let s1 := setMaster { s with cfg := cfg }
    .next (endWith .ok { s1 with ifrIF := false, ctrlIE := true, engine := .idle })
  else .refused .initNotIdle

/-- `SUBMIT(ds)` (R141): all of `ds` enqueued and then kicked, or all of it released and `BUFFER_OVERFLOW`. -/
def submit (P : Params W) (ds : List (Desc W)) (s : State W) : Answer (ResultCode × State W) :=
  if freeSlots P s < ds.length then .next (.bufferOverflow, releaseAll ds s)
  else kick P (enqueueAll P ds s)

/-- A submitting operation from end to end: an ill-formed packet is refused (R73), the result of `SUBMIT` ends the
operation (R9), and a device under a cursor is refused (R45). -/
def submitOp (P : Params W) (ds : List (Desc W)) (s : State W) : Answer (State W) :=
  if ∀ d ∈ ds, deviceOk P d.device then
    refuseDevices P (andThen (submit P ds s) fun (code, s') => .next (endWith code s'))
  else .refused .illFormedDevice

/-- `WRITE` (R142). -/
def writeAt (P : Params W) (d : Request W) (capture : Option (Addr W)) (s : State W) : Answer (State W) :=
  submitOp P [writeDesc d capture] s

/-- `READ` (R143). -/
def readAt (P : Params W) (d : Request W) (cap : Addr W) (s : State W) : Answer (State W) :=
  submitOp P [readDesc d cap] s

/-- `READ_WRITE` (R144): the command descriptor, then the read descriptor. -/
def readWriteAt (P : Params W) (w : Request W) (wcapture : Option (Addr W)) (r : Request W) (cap : Addr W) (s : State W) :
    Answer (State W) :=
  submitOp P [commandDesc w wcapture, readDesc r cap] s

/-- `WRITE` (R142) at the reference parameters. -/
def execWrite (d : Request) (capture : Option Addr) (s : State) : Answer State := writeAt Config.params d capture s

/-- `READ` (R143) at the reference parameters. -/
def execRead (d : Request) (cap : Addr) (s : State) : Answer State := readAt Config.params d cap s

/-- `READ_WRITE` (R144) at the reference parameters. -/
def execReadWrite (w : Request) (wcapture : Option Addr) (r : Request) (cap : Addr) (s : State) : Answer State :=
  readWriteAt Config.params w wcapture r cap s

/-- `FLUSH` (R145): `FLUSH_FAILED` when BUSY, else every queued descriptor is released. -/
def execFlush (s : State W) : Answer (State W) :=
  match s.engine with
  | .busy => .next (endWith .flushFailed s)
  | .idle => .next (endWith .ok (flushAll s))

end Sys2Proof.Machine
end

