-- ==== Sys2Proof/Machine/Dispatch.lean ====
section
/-!
DEFINITION. One arm for each constructor of Instr.
-/

namespace Sys2Proof.Machine

def exec (i : Instr) (s : State) : Host.Outcome State Fault Refusal :=
  match i with
  | .init cfg => Sys2Proof.Machine.execInit cfg s
  | .createDevice dev => Sys2Proof.Machine.execCreateDevice dev s
  | .releaseDevice dev => Sys2Proof.Machine.execReleaseDevice dev s
  | .write d capture => Sys2Proof.Machine.execWrite d capture s
  | .read d cap => Sys2Proof.Machine.execRead d cap s
  | .readWrite w wcapture r cap => Sys2Proof.Machine.execReadWrite w wcapture r cap s
  | .flush => Sys2Proof.Machine.execFlush s
  | .shiftDone rx => Sys2Proof.Machine.execShiftDone rx s
  | .xferComplete => Sys2Proof.Machine.execXferComplete s

end Sys2Proof.Machine
end

