-- ==== Sys2Proof/Machine/Fetch.lean ====
section
/-!
DEFINITION. Taking the next stimulus packet from the script (R60, R73 of 30_encoding.md): what stands for an instruction
fetch in a machine that fetches nothing (R23 of 10_state.md; log 3).
-/

namespace Sys2Proof.Machine

/-- The next operation of the script and the state with its packet taken off the script; refused when no stimulus is left
(log 4) or the bytes are no packet (R73). -/
def fetch (s : State) : Answer (Instr × State) :=
  match s.script with
  | [] => .refused .noStimulus
  | _ :: _ =>
    match decode s.script with
    | .error why => .refused (.invalidPacket why)
    | .ok (i, rest) => .next (i, { s with script := rest })

/-- `s` with the packet of a table word as its whole script. -/
def placePacket (s : State) (nbits w : Nat) : State := { s with script := tableBytes nbits w }

end Sys2Proof.Machine
end

