-- ==== Sys2Proof/Machine/Step.lean ====
section
/-!
DEFINITION. One step of SPI-TE: the next packet of the script, run as one atomic step (R8 of 00_scope.md).
-/

namespace Sys2Proof.Machine

/-- One step: the environment's next stimulus is taken from the script and run. -/
def step (s : State) : Host.Outcome State Fault Refusal :=
  match fetch s with
  | .next (i, s') => exec i s'
  | .fault f => .fault f
  | .refused e => .refused e

/-- `s` with a table word's packet placed so that the next `step` runs it. -/
def State.withFetchWord (s : State) (nbits w : Nat) : State := placePacket s nbits w

end Sys2Proof.Machine
end

