-- ==== Sys2Proof/Machine/Registers.lean ====
section
/-!
DEFINITION. The register numbers and layouts of R27 of 10_state.md, as a read-only view of the state. No operation of
SPI-TE exposes a register: "the host has no register read or write operation" (log 22).
-/

namespace Sys2Proof.Machine

variable {W : Widths}

/-- The width of a register by its number (R27); none for a number that is not in the table ("no such register"). -/
def regWidth (W : Widths) : Nat → Option Nat
  | 0 => some 1
  | 1 => some 2
  | 2 => some 1
  | 3 => some (1 + 2 * W.pinW)
  | 4 => some 6
  | 5 => some (2 * W.pinW)
  | 6 => some W.lenW
  | 7 => some W.addrW
  | 8 => some W.addrW
  | 9 => some W.cbW
  | 10 => some 8
  | 11 => some 8
  | 12 => some 1
  | 13 => some W.cfgW
  | 14 => some W.npin
  | 15 => some W.npin
  | _ => none

/-- `STATE` as a bit (R27, R67): IDLE = 0, BUSY = 1. -/
def EngineState.code : EngineState → BitVec 1
  | .idle => 0#1
  | .busy => 1#1

/-- `CTRL` (R27): bit 0 `IE`, bit 1 `MSTR`. -/
def ctrlWord (s : State W) : BitVec 2 := BitVec.ofBool s.ctrlMSTR ++ BitVec.ofBool s.ctrlIE

/-- `ACTIVE` (R27): bit 0 valid, then `dbit`, then `lbit`; all zero when it is `none` (log 22). -/
def activeWord (s : State W) : BitVec (W.pinW + W.pinW + 1) :=
  match s.active with
  | none => 0#_
  | some a => a.lbit ++ a.dbit ++ 1#1

/-- `CUR.flags` (R27): bits 1:0 `mode`, bit 2 device present, bit 3 capture present, bit 4 callback present, bit 5 `CUR` is
`some`; all zero when `CUR = none` (log 22). -/
def curFlagsWord (s : State W) : BitVec 6 :=
  match s.cur with
  | none => 0#6
  | some c =>
    1#1 ++ BitVec.ofBool c.callback.isSome ++ BitVec.ofBool c.capture.isSome ++ BitVec.ofBool c.device.isSome ++ c.mode.code

/-- `CUR.device` (R27): `dbit` low, `lbit` high. -/
def deviceWord (dev : Device W) : BitVec (W.pinW + W.pinW) := dev.lbit ++ dev.dbit

/-- The number register `i` holds (R27); none for a number outside the table, and for a value register whose presence bit
is 0 ("holds no meaningful value"). -/
def readReg (i : Nat) (s : State W) : Option Nat :=
  match i with
  | 0 => some s.engine.code.toNat
  | 1 => some (ctrlWord s).toNat
  | 2 => some (BitVec.ofBool s.ifrIF).toNat
  | 3 => some (activeWord s).toNat
  | 4 => some (curFlagsWord s).toNat
  | 5 => (s.cur.bind Desc.device).map fun dev => (deviceWord dev).toNat
  | 6 => s.cur.map fun c => c.remaining.toNat
  | 7 => s.cur.map fun c => c.data.toNat
  | 8 => (s.cur.bind Desc.capture).map BitVec.toNat
  | 9 => (s.cur.bind Desc.callback).map BitVec.toNat
  | 10 => some s.txr.toNat
  | 11 => some s.rxr.toNat
  | 12 => some (BitVec.ofBool s.xip).toNat
  | 13 => some s.cfg.toNat
  | 14 => some s.dir.toNat
  | 15 => some s.lvl.toNat
  | _ => none

end Sys2Proof.Machine
end

