-- ==== Sys2Proof/Machine/Parametric.lean ====
section
/-!
DEFINITION. The machine at any parameters (R6 of 00_scope.md and R29 of 10_state.md: they are "parameters of the step
relation"), widths included. `exec`, `step` and `State.reset` are this machine at `Config.params` (log 2). Then the
pseudo-instructions of R77 of 30_encoding.md.
-/

namespace Sys2Proof.Machine

variable {W : Widths}

/-- The meaning of an operation at parameters `P`. -/
def execAt (P : Params W) (i : Instr W) (s : State W) : Answer (State W) :=
  match i with
  | .init cfg => execInit cfg s
  | .createDevice dev => createDeviceAt P dev s
  | .releaseDevice dev => execReleaseDevice dev s
  | .write d capture => writeAt P d capture s
  | .read d cap => readAt P d cap s
  | .readWrite w wcapture r cap => readWriteAt P w wcapture r cap s
  | .flush => execFlush s
  | .shiftDone rx => execShiftDone rx s
  | .xferComplete => xferCompleteAt P s

/-- One step at parameters `P` with the reference widths, the only ones at which packets exist (R60). At other widths a
step is an operation: `execAt`. -/
def stepAt (P : Params) (s : State) : Answer State := andThen (fetch s) fun (i, s') => execAt P i s'

/-- A list of operations run in order at parameters `P`, stopping at the first that does not answer a next state. -/
def runAt (P : Params W) : List (Instr W) → State W → Answer (State W)
  | [], s => .next s
  | i :: is, s => andThen (execAt P i s) (runAt P is)

/-- `XFER rx=<byte>`: `SHIFT_DONE rx=<byte>` then `XFER_COMPLETE` (R77). -/
def xfer (rx : Byte) : List (Instr W) := [.shiftDone rx, .xferComplete]

/-- `XFER*n rx=<b1>,...,<bn>`: `n` such pairs in order (R77). -/
def xfers : List Byte → List (Instr W)
  | [] => []
  | rx :: rxs => xfer rx ++ xfers rxs

end Sys2Proof.Machine
end

