-- ==== Sys2Proof/Safety.lean ====
section
/-!
DEFINITION. What counts as a safe run, in the terms claims use: the invariant of reachable states (R31 of 10_state.md and
50_invariants.md), the states a run can reach, and what a list of events says (R28).
-/

namespace Sys2Proof.Machine

variable {W : Widths}

/-! ### The invariant -/

/-- The invariant every reachable state meets at a step boundary. -/
structure Inv (P : Params W) (s : State W) : Prop where
  /-- R171: "engine state is IDLE if and only if the queue is empty and no descriptor is current". -/
  idle_iff : s.engine = .idle ↔ s.q = [] ∧ s.cur = none
  /-- R17, R31: `|Q| <= QCAP`. -/
  queue_bounded : s.q.length ≤ P.qcap
  /-- R73, R31: a present device of a queued descriptor is valid. -/
  queue_valid : ∀ d ∈ s.q, deviceOk P d.device
  /-- R31: `CUR = some(c)` implies `c.device = some(dev)` with `dev` valid and `ACTIVE = some(dev)`. -/
  current_active : ∀ c ∈ s.cur, c.device.isSome = true ∧ deviceOk P c.device ∧ s.active = c.device
  /-- R27: when valid, `ACTIVE` is a valid Device. -/
  active_valid : deviceOk P s.active
  /-- R93, R18: `ACTIVATE` made the active device's pin an output, and no `DIR` bit is ever cleared. -/
  active_output : ∀ a ∈ s.active, pinBit s.dir a.dbit = true
  /-- R181: `STATE = BUSY <-> (XIP = 1 or IFR.IF = 1)`. -/
  busy_iff : s.engine = .busy ↔ s.xip = true ∨ s.ifrIF = true
  /-- R181: `STATE = BUSY <-> CUR != none` (the other direction is that of R171). -/
  busy_current : s.engine = .busy → s.cur.isSome = true
  /-- R181: never `XIP = 1 and IFR.IF = 1`. -/
  one_exchange : ¬ (s.xip = true ∧ s.ifrIF = true)
  /-- R175: BUSY implies the active device's line is asserted. -/
  busy_asserted : s.engine = .busy → ∀ a ∈ s.active, asserted P a s
  /-- R175: IDLE implies it is not. -/
  idle_deasserted : s.engine = .idle → ∀ a ∈ s.active, ¬ asserted P a s
  /-- R97: a line at the active level is the active device's. -/
  only_active_line : ∀ p : Pin W, pinBit s.lvl p = P.selActive → s.active.map Device.lbit = some p
  /-- The memory is in its canonical form. -/
  mem_wf : Memory.wf W s.mem

/-! ### Runs -/

/-- R45: no cursor of the current descriptor points at a device of the platform. -/
def noDevice (P : Params W) (s : State W) : Prop := ∀ c ∈ s.cur, ¬ cursorOnDevice P c

/-- The states a run reaches (R170), at any parameters: from reset, by operations, by the host's own stores to buffer
memory, and with any packets still to be issued (the script is the environment's, log 3). A step of `stepAt` is an operation
from a state with its packet taken off the script. -/
inductive Reachable (P : Params W) : State W → Prop where
  | reset : Reachable P (State.resetAt P)
  | script (bytes : List Byte) (s : State W) : Reachable P s → Reachable P { s with script := bytes }
  | hostStore (a : Addr W) (v : Byte) (s : State W) : Reachable P s → Reachable P (s.hostStore a v)
  | operation (i : Instr W) (s t : State W) : Reachable P s → execAt P i s = .next t → Reachable P t

/-- When an operation has a step in a state, apart from being well-formed: the preconditions and enabling conditions of
R140, R114 and R115; every other operation always has one. -/
def enabled : Instr W → State W → Prop
  | .init _, s => initEnabled s
  | .createDevice _, _ => True
  | .releaseDevice _, _ => True
  | .write _ _, _ => True
  | .read _ _, _ => True
  | .readWrite _ _ _ _, _ => True
  | .flush, _ => True
  | .shiftDone _, s => shiftEnabled s
  | .xferComplete, s => handlerEnabled s

/-! ### What events say -/

/-- The tokens of the `Callback` events, in order. -/
def callbacksOf : List (Event W) → List (Token W)
  | [] => []
  | .callback t :: es => t :: callbacksOf es
  | _ :: es => callbacksOf es

/-- The descriptors of the `Release` events, in order. -/
def releasesOf : List (Event W) → List (Desc W)
  | [] => []
  | .release d :: es => d :: releasesOf es
  | _ :: es => releasesOf es

/-- The bytes of the `Load` events, in order: what goes out on the wire. -/
def loadsOf : List (Event W) → List Byte
  | [] => []
  | .load b :: es => b :: loadsOf es
  | _ :: es => loadsOf es

/-- The stores of the `MemWr` events, in order. -/
def storesOf : List (Event W) → List (Addr W × Byte)
  | [] => []
  | .memWr a b :: es => (a, b) :: storesOf es
  | _ :: es => storesOf es

/-- The `Result` events, in order. -/
def resultsOf : List (Event W) → List ResultCode
  | [] => []
  | .result e _ :: es => e :: resultsOf es
  | _ :: es => resultsOf es

/-- The level bits after the `Sel` events of a list. -/
def levelsAfter (P : Params W) : List (Event W) → PinBits W → PinBits W
  | [], v => v
  | .selAssert p :: es, v => levelsAfter P es (setPin v p P.selActive)
  | .selDeassert p :: es, v => levelsAfter P es (setPin v p (!P.selActive))
  | _ :: es, v => levelsAfter P es v

/-- The direction bits after the `DirOut` events of a list. -/
def directionsAfter : List (Event W) → PinBits W → PinBits W
  | [], v => v
  | .dirOut p :: es, v => directionsAfter es (setPin v p true)
  | _ :: es, v => directionsAfter es v

/-- The memory after the `MemWr` events of a list. -/
def memoryAfter : List (Event W) → Memory → Memory
  | [], m => m
  | .memWr a b :: es, m => memoryAfter es (Memory.put a.toNat b m)
  | _ :: es, m => memoryAfter es m

/-- How many *transitions* of the line of pin `p` a list of events shows: `Sel` events "whose level differs from the level
bit's value before it" (R28). -/
def transitions (P : Params W) (p : Pin W) : List (Event W) → PinBits W → Nat
  | [], _ => 0
  | .selAssert p' :: es, v =>
    (if p' = p ∧ pinBit v p ≠ P.selActive then 1 else 0) + transitions P p es (setPin v p' P.selActive)
  | .selDeassert p' :: es, v =>
    (if p' = p ∧ pinBit v p = P.selActive then 1 else 0) + transitions P p es (setPin v p' (!P.selActive))
  | _ :: es, v => transitions P p es v

/-- At most one select line is at the active level (R97). -/
abbrev oneLine (P : Params W) (v : PinBits W) : Prop :=
  ∀ p q : Pin W, pinBit v p = P.selActive → pinBit v q = P.selActive → p = q

/-- At most one select line is at the active level before, between and after the events of a list: "at every point inside a
step" (R97). -/
def oneLineThroughout (P : Params W) : List (Event W) → PinBits W → Prop
  | [], v => oneLine P v
  | e :: es, v => oneLine P v ∧ oneLineThroughout P es (levelsAfter P [e] v)

/-- The events of `ACTIVATE` of `dev` where `active` is the active device (R93): none when it is `dev` already. -/
def activationEvents (active : Option (Device W)) (dev : Device W) : List (Event W) :=
  if active = some dev then [] else [.dirOut dev.dbit, .setMaster]

/-! ### Descriptors held and owed -/

/-- The descriptors an operation submits, tagged (R75), in order. -/
def submitted : Instr W → List (Desc W)
  | .init _ => []
  | .createDevice _ => []
  | .releaseDevice _ => []
  | .write d capture => [writeDesc d capture]
  | .read d cap => [readDesc d cap]
  | .readWrite w wcapture r cap => [commandDesc w wcapture, readDesc r cap]
  | .flush => []
  | .shiftDone _ => []
  | .xferComplete => []

/-- The descriptors of it that are enqueued: all or nothing (R141). -/
def accepted (P : Params W) (i : Instr W) (s : State W) : List (Desc W) :=
  if freeSlots P s < (submitted i).length then [] else submitted i

/-- A descriptor advanced by `n` exchanges, as it is released at its end (R119 corner case (e)): `remaining` 0, the data
cursor and the capture cursor of a capturing descriptor advanced by `n`, the callback cleared. -/
def ended (n : Nat) (d : Desc W) : Desc W :=
  { device := d.device, data := d.data + BitVec.ofNat _ n, remaining := 0#_, mode := d.mode,
    capture := if includesRead d.mode then d.capture.map (· + BitVec.ofNat _ n) else d.capture, callback := none }

/-- What the `Release` event of a queued descriptor will carry: a null-device descriptor is released as it is (R112), any
other after `remaining` exchanges. -/
def releaseDue (d : Desc W) : Desc W :=
  match d.device with
  | none => d
  | some _ => ended d.remaining.toNat d

/-- What the `Release` events of the held descriptors will carry, in order: the current descriptor has one exchange more to
complete than `remaining` says, then the queue. -/
def releasesDue (s : State W) : List (Desc W) :=
  (s.cur.map fun c => ended (c.remaining.toNat + 1) c).toList ++ s.q.map releaseDue

/-- The callback a descriptor still owes: none for a null-device descriptor, which is dropped (R112, R173). -/
def callbackDue (d : Desc W) : Option (Token W) :=
  match d.device with
  | none => none
  | some _ => d.callback

/-- The callbacks owed by a list of descriptors, in order. -/
def callbacksDue (ds : List (Desc W)) : List (Token W) := ds.filterMap callbackDue

/-- The descriptors SPI-TE holds: the current one, then the queue (invariant I3, R176). -/
def held (s : State W) : List (Desc W) := s.cur.toList ++ s.q

/-- The descriptors a run accepts, in the order it enqueues them (R172). -/
def acceptedBy (P : Params W) : List (Instr W) → State W → List (Desc W)
  | [], _ => []
  | i :: is, s =>
    match execAt P i s with
    | .next t => accepted P i s ++ acceptedBy P is t
    | _ => []

/-! ### Which byte sequences are packets -/

/-- A PINS byte that is read is no `invalid`: bits 3 and 7 are zero (R64, R73). -/
abbrev pinsReadable (b : Byte) : Prop := b.getLsbD 3 = false ∧ b.getLsbD 7 = false

/-- A DESC record is no `invalid`: FLAGS bits 7:5 are zero, and PINS is readable where it is read (R65, R72, R73). -/
abbrev recordReadable (flags pins : Byte) : Prop :=
  flags.getLsbD 5 = false ∧ flags.getLsbD 6 = false ∧ flags.getLsbD 7 = false ∧
    (flags.getLsbD 2 = true → pinsReadable pins)

/-- A byte sequence begins with a packet (R71, R73): its opcode is in the table, it is as long as the opcode demands, and
no reserved bit that is looked at is set. -/
def beginsWithPacket (bs : List Byte) : Prop :=
  ∃ op tail n, bs = op :: tail ∧ packetLength op = some n ∧ n ≤ bs.length ∧
    (op = 0x02#8 ∨ op = 0x03#8 → pinsReadable (tail.getD 0 0#8)) ∧
    (op = 0x04#8 ∨ op = 0x05#8 ∨ op = 0x06#8 → recordReadable (tail.getD 0 0#8) (tail.getD 1 0#8)) ∧
    (op = 0x06#8 → recordReadable (tail.getD 10 0#8) (tail.getD 11 0#8))

/-! ### What no rule reads -/

/-- Two states that differ at most in `TXR`, `CTRL.MSTR`, `CFG`, the trace and the script: what no rule reads (R21, R22,
U12 of 93_implementation_defined.md), what is output (R28), and what only the fetch reads. -/
structure SameButUnread (s s' : State W) : Prop where
  engine : s'.engine = s.engine
  cur : s'.cur = s.cur
  active : s'.active = s.active
  q : s'.q = s.q
  dir : s'.dir = s.dir
  lvl : s'.lvl = s.lvl
  rxr : s'.rxr = s.rxr
  xip : s'.xip = s.xip
  ifrIF : s'.ifrIF = s.ifrIF
  ctrlIE : s'.ctrlIE = s.ctrlIE
  mem : s'.mem = s.mem

/-- The descriptor `c` after `k` more of its exchanges have been handled, none of them its last (R117, R118, R116). -/
def afterExchanges (k : Nat) (c : Desc W) : Desc W :=
  { c with data := c.data + BitVec.ofNat _ k, remaining := c.remaining - BitVec.ofNat _ k,
           capture := if includesRead c.mode then c.capture.map (· + BitVec.ofNat _ k) else c.capture }

/-- The stores that capturing the bytes `rxs` from address `a` on makes, in transfer order (R182). -/
def storesFrom (a : Addr W) : List Byte → List (Addr W × Byte)
  | [] => []
  | rx :: rxs => (a, rx) :: storesFrom (nextAddr a) rxs

/-- A memory after a list of stores, in order. -/
def storeAll : List (Addr W × Byte) → Memory → Memory
  | [], m => m
  | (a, v) :: ws, m => storeAll ws (Memory.put a.toNat v m)

/-- The `MemWr` events of a list of stores. -/
def storeEvents (ws : List (Addr W × Byte)) : List (Event W) := ws.map fun w => .memWr w.1 w.2

/-- The stores a descriptor's completions make for the received bytes `rxs` (R116): none where it does not capture. -/
def capturesOf (c : Desc W) (rxs : List Byte) : List (Addr W × Byte) :=
  match c.capture with
  | none => []
  | some a => if includesRead c.mode then storesFrom a rxs else []

end Sys2Proof.Machine
end

