-- ==== Sys2Proof/Certificates/Slice0/Obligations.lean ====
section
/-!
DEFINITION. What is to be proved of the model, one `def Obligations.<Name> : Prop` each. A statement about `exec`, `step`
or `State.reset` is about the reference parameters of R6; one about `execAt P` or `State.resetAt P` is about every value of
the parameters, widths included, and one about `stepAt P` about every value at which packets exist (R60).
-/

open Sys2Proof Sys2Proof.Machine

/-! ### Encoding (30_encoding.md) -/

/-- R72: "encoding then decoding is the identity", for every operation, with any bytes after the packet. -/
def Obligations.DecodeInvertsEncode : Prop :=
  ∀ (i : Instr) (rest : List Byte), decode (encode i ++ rest) = .ok (i, rest)

/-- R72: the fields a decoder ignores. FLAGS.mode in every DESC record; PINS, `capture` and `callback` where the presence
bit says they are absent; FLAGS.`cap_v` and `capture` of the record of READ and of READ_WRITE's read record. The record
`f p r0 r1 d0 d1 c0 c1 k0 k1` and the record `f' p' r0 r1 d0 d1 c0' c1' k0' k1'` differ in such fields only. -/
def Obligations.DecoderIgnoresOverwrittenAndAbsentFields : Prop :=
  ∀ (f f' p p' r0 r1 d0 d1 c0 c1 c0' c1' k0 k1 k0' k1' : Byte),
    (f.getLsbD 2 = true → p' = p) → (f.getLsbD 4 = true → k0' = k0 ∧ k1' = k1) →
      (f' &&& 0xFC#8 = f &&& 0xFC#8 → (f.getLsbD 3 = true → c0' = c0 ∧ c1' = c1) →
        (∀ rest : List Byte,
          decode (0x04#8 :: f' :: p' :: r0 :: r1 :: d0 :: d1 :: c0' :: c1' :: k0' :: k1' :: rest) =
            decode (0x04#8 :: f :: p :: r0 :: r1 :: d0 :: d1 :: c0 :: c1 :: k0 :: k1 :: rest)) ∧
        (∀ rest : List Byte,
          decode (0x06#8 :: f' :: p' :: r0 :: r1 :: d0 :: d1 :: c0' :: c1' :: k0' :: k1' :: rest) =
            decode (0x06#8 :: f :: p :: r0 :: r1 :: d0 :: d1 :: c0 :: c1 :: k0 :: k1 :: rest))) ∧
      (f' &&& 0xF4#8 = f &&& 0xF4#8 →
        (∀ rest : List Byte,
          decode (0x05#8 :: f' :: p' :: r0 :: r1 :: d0 :: d1 :: c0' :: c1' :: k0' :: k1' :: rest) =
            decode (0x05#8 :: f :: p :: r0 :: r1 :: d0 :: d1 :: c0 :: c1 :: k0 :: k1 :: rest)) ∧
        (∀ w rest : List Byte, w.length = 10 →
          decode (0x06#8 :: w ++ f' :: p' :: r0 :: r1 :: d0 :: d1 :: c0' :: c1' :: k0' :: k1' :: rest) =
            decode (0x06#8 :: w ++ f :: p :: r0 :: r1 :: d0 :: d1 :: c0 :: c1 :: k0 :: k1 :: rest)))

/-- R73: the decoder is total, answers an operation exactly where the bytes begin with a packet, names an unknown opcode,
and an `invalid` or ill-formed packet is refused: the step gives no next state. -/
def Obligations.InvalidAndIllFormedPacketsAreRefused : Prop :=
  (∀ bs : List Byte, (∃ i rest, decode bs = .ok (i, rest)) ↔ beginsWithPacket bs) ∧
    (∀ (op : Byte) (bs : List Byte), packetLength op = none → decode (op :: bs) = .error (.unknownOpcode op)) ∧
    (∀ (s : State) (why : Invalid), s.script ≠ [] → decode s.script = .error why →
      step s = .refused (.invalidPacket why)) ∧
    (∀ (s : State) (i : Instr) (rest : List Byte), decode s.script = .ok (i, rest) →
      ¬ i.wellFormed Config.params → step s = .refused .illFormedDevice)

/-- R71: the opcode byte alone gives the length of the packet, which is one of five, and the decoder takes exactly that
many bytes. -/
def Obligations.PacketLengthComesFromOpcodeAlone : Prop :=
  ∀ (bs rest : List Byte) (i : Instr), decode bs = .ok (i, rest) →
    ∃ packet, bs = packet ++ rest ∧ packet.head? = some i.opcode ∧ packetLength i.opcode = some packet.length ∧
      packet.length ∈ [1, 2, 11, 13, 23]

/-- R62: a packet, taken as one number, matches the row of spec/opcode_table.json of its operation and no other row. -/
def Obligations.PacketMatchesItsTableRowOnly : Prop :=
  ∀ (bs rest : List Byte) (i : Instr), decode bs = .ok (i, rest) →
    ∃ packet, bs = packet ++ rest ∧
      ∀ row ∈ opcodeTable, row.matches packet.length (packetNumber packet) ↔ row.mnemonic = i.mnemonic

/-- V30 of 95_test_vectors.md: one packet of each of five formats decodes to the operation it stands for. -/
def Obligations.SpecPacketsDecodeAsWritten : Prop :=
  decode [0x01#8, 0x5C#8] = .ok (.init 0x5C#8, []) ∧
    decode [0x02#8, 0x60#8] = .ok (.createDevice ⟨0#3, 6#3⟩, []) ∧
    decode [0x04#8, 0x16#8, 0x22#8, 0x03#8, 0x00#8, 0x00#8, 0x01#8, 0x00#8, 0x00#8, 0x11#8, 0x00#8] =
      .ok (.write ⟨some ⟨2#3, 2#3⟩, 3#16, 0x0100#16, some 0x0011#16⟩ none, []) ∧
    decode [0x05#8, 0x0D#8, 0x22#8, 0x01#8, 0x00#8, 0x00#8, 0x02#8, 0x00#8, 0x03#8, 0x00#8, 0x00#8, 0x00#8, 0x03#8] =
      .ok (.read ⟨some ⟨2#3, 2#3⟩, 1#16, 0x0200#16, none⟩ 0x0300#16, []) ∧
    decode [0x80#8, 0x5A#8] = .ok (.shiftDone 0x5A#8, [])

/-! ### Reset and the step -/

/-- R30, R220: what reset leaves, for the state the spec gives a reset value, at any parameters. (`TXR`, `RXR`, `CFG` and
`Mem` are unspecified there and not spoken of.) -/
def Obligations.ResetLeavesTheSpecifiedValues : Prop :=
  ∀ (W : Widths) (P : Params W),
    (State.resetAt P).engine = .idle ∧ (State.resetAt P).cur = none ∧ (State.resetAt P).active = none ∧
      (State.resetAt P).q = [] ∧ (∀ p, pinBit (State.resetAt P).dir p = false) ∧
      (∀ p, pinBit (State.resetAt P).lvl p = !P.selActive) ∧ (State.resetAt P).xip = false ∧
      (State.resetAt P).ifrIF = false ∧ (State.resetAt P).ctrlIE = false ∧ (State.resetAt P).ctrlMSTR = false ∧
      (State.resetAt P).trace = []

/-- R221: "After reset followed by `INIT cfg`: `STATE = IDLE`, `CTRL.IE = 1`, `CTRL.MSTR = 1`, `CFG = cfg`, everything else
as after reset." -/
def Obligations.InitAfterResetGivesS0 : Prop :=
  ∀ cfg : BusConfig,
    exec (.init cfg) State.reset =
      .next { State.reset with
        engine := .idle, ctrlIE := true, ctrlMSTR := true, cfg := cfg, trace := [.setMaster, .result .ok none] }

/-- A step runs the decoded operation: what `decode` reads at the front of the script is what `exec` runs, on the state
with exactly that packet taken off the script (the model's own field, log 3). -/
def Obligations.StepRunsTheDecodedOperation : Prop :=
  (∀ (s : State) (i : Instr) (rest : List Byte), decode s.script = .ok (i, rest) →
    step s = exec i { s with script := rest }) ∧
  (∀ (s : State) (i : Instr) (rest : List Byte), s.script = encode i ++ rest →
    step s = exec i { s with script := rest })

/-- R6, R29: the machine of `exec`, `step` and `State.reset` is the machine of every parameter value, widths included, at
the reference values of R6, which meet its constraints. -/
def Obligations.ReferenceMachineIsTheParametricMachine : Prop :=
  Config.params.wf ∧ Config.widths = { addrW := 16, lenW := 16, pinW := 3, cbW := 16, cfgW := 8 } ∧
    Config.widths.npin = 8 ∧
    Config.params =
      { qcap := 8, selActive := false, pinClk := 5#3, pinDin := 4#3, pinDout := 3#3, devices := [] } ∧
    (∀ i s, exec i s = execAt Config.params i s) ∧ (∀ s, step s = stepAt Config.params s) ∧
    State.reset = State.resetAt Config.params

/-! ### The invariant (50_invariants.md) -/

/-- The invariant holds after reset, at any parameters. -/
def Obligations.ResetMeetsTheInvariant : Prop :=
  ∀ (W : Widths) (P : Params W), Inv P (State.resetAt P)

/-- Every step keeps the invariant, from every state that meets it: a step of the machine; a step at any parameters that
have packets; an operation at any parameters, widths included; and the environment's moves between steps, the host's
stores and the packets it has still to issue. -/
def Obligations.StepKeepsTheInvariant : Prop :=
  (∀ s t : State, Inv Config.params s → step s = .next t → Inv Config.params t) ∧
    (∀ (P : Params) (s t : State), Inv P s → stepAt P s = .next t → Inv P t) ∧
    ∀ (W : Widths) (P : Params W) (s : State W), Inv P s →
      (∀ (i : Instr W) (t : State W), execAt P i s = .next t → Inv P t) ∧
        (∀ (a : Addr W) (v : Byte), Inv P (s.hostStore a v)) ∧ ∀ bytes : List Byte, Inv P { s with script := bytes }

/-- At any parameters, every reachable state meets the invariant, whatever packets the environment issues and whatever
bytes the host stores between steps; and no cursor of its current descriptor is on a device of the platform (R45). Where
packets exist, what a step leads to from a reachable state is reachable. -/
def Obligations.ReachableStatesMeetTheInvariant : Prop :=
  (∀ (W : Widths) (P : Params W) (s : State W), Reachable P s → Inv P s ∧ noDevice P s) ∧
    ∀ (P : Params) (s t : State), Reachable P s → stepAt P s = .next t → Reachable P t

/-- R171 and R181, of every reachable state at any parameters. -/
def Obligations.ReachableEngineStateRules : Prop :=
  ∀ (W : Widths) (P : Params W) (s : State W), Reachable P s →
    (s.engine = .idle ↔ s.q = [] ∧ s.cur = none) ∧ (s.engine = .busy ↔ s.cur ≠ none) ∧
      (s.engine = .busy ↔ s.xip = true ∨ s.ifrIF = true) ∧ ¬ (s.xip = true ∧ s.ifrIF = true)

/-- R175: what `STATE` says of the exchange and of the active device's line, of every reachable state. -/
def Obligations.ReachableSelectLineRules : Prop :=
  ∀ (W : Widths) (P : Params W) (s : State W), Reachable P s →
    (s.engine = .idle → s.xip = false ∧ s.ifrIF = false ∧ ∀ a, s.active = some a → ¬ asserted P a s) ∧
      (s.engine = .busy → ∃ c a, s.cur = some c ∧ c.device = some a ∧ s.active = some a ∧ asserted P a s)

/-- R97, R184, from every state that meets the invariant (every reachable one does): a line at the active level is the
active device's, so of Devices with distinct `lbit` only the active one can be asserted; and at every point inside a step
at most one line is at the active level. -/
def Obligations.AtMostOneSelectLineAtEveryPoint : Prop :=
  ∀ (W : Widths) (P : Params W) (s : State W), Inv P s →
    (∀ d : Device W, asserted P d s → ∃ a, s.active = some a ∧ a.lbit = d.lbit) ∧
      (∀ d e : Device W, asserted P d s → asserted P e s → d.lbit = e.lbit) ∧
      (∀ (i : Instr W) (t : State W), execAt P i s = .next t →
        ∃ evs, t.trace = s.trace ++ evs ∧ oneLineThroughout P evs s.lvl ∧ levelsAfter P evs s.lvl = t.lvl)

/-! ### When an operation runs -/

/-- In a state that meets the invariant, a well-formed operation answers a next state exactly where it is enabled (R140,
R114, R115), and nothing faults. -/
def Obligations.EnabledOperationsComplete : Prop :=
  ∀ (i : Instr) (s : State), Inv Config.params s →
    (i.wellFormed Config.params → (enabled i s ↔ ∃ t, exec i s = .next t)) ∧ ∀ f, exec i s ≠ .fault f

/-- R69, R140, U3 and R45: a hardware step where it is not enabled, and INIT where its precondition fails, is refused by
name, in every state; and at any parameters an operation that starts or goes on with an exchange is refused exactly where
it would leave a current descriptor with a cursor on a device of the platform, and otherwise runs as if the platform had
none. -/
def Obligations.DisabledStepsAreRefused : Prop :=
  (∀ (rx : Byte) (s : State), s.xip = false → exec (.shiftDone rx) s = .refused .noExchangeInFlight) ∧
    (∀ s : State, s.ifrIF = false ∨ s.ctrlIE = false → exec .xferComplete s = .refused .handlerNotEnabled) ∧
    (∀ (cfg : BusConfig) (s : State),
      s.engine = .busy ∨ s.cur ≠ none ∨ s.q ≠ [] ∨ s.xip = true ∨ s.ifrIF = true →
        exec (.init cfg) s = .refused .initNotIdle) ∧
    ∀ (W : Widths) (P : Params W) (i : Instr W) (s t : State W), submitted i ≠ [] ∨ i = .xferComplete →
      execAt { P with devices := [] } i s = .next t →
        (¬ noDevice P t → execAt P i s = .refused .deviceUnderCursor) ∧ (noDevice P t → execAt P i s = .next t)

/-- R113, U1: a load where an exchange is in flight or a completion is pending is a fault, wherever an operation would
start one: a submission while IDLE whose first descriptor is startable, and the handler's next byte. -/
def Obligations.LoadCollisionFaults : Prop :=
  (∀ (b : Byte) (s : State), s.xip = true ∨ s.ifrIF = true → load b s = .fault .loadCollision) ∧
    (∀ (i : Instr) (s : State) (c : Desc) (rest : List Desc) (dev : Device),
      s.xip = true ∨ s.ifrIF = true → s.engine = .idle → s.q = [] → i.wellFormed Config.params →
        submitted i = c :: rest → c.device = some dev → c.remaining ≠ 0#16 → exec i s = .fault .loadCollision) ∧
    (∀ (s : State) (c : Desc), s.ifrIF = true → s.ctrlIE = true → s.xip = true → s.cur = some c → c.remaining ≠ 0#16 →
      exec .xferComplete s = .fault .loadCollision)

/-! ### INIT, CREATE_DEVICE, RELEASE_DEVICE, FLUSH -/

/-- R140: INIT where its precondition holds, its refusal elsewhere, and its packet (opcode `0x01`, format I). -/
def Obligations.InitResult : Prop :=
  ∀ (cfg : BusConfig) (s : State),
    (s.engine = .idle → s.cur = none → s.q = [] → s.xip = false → s.ifrIF = false →
      exec (.init cfg) s =
        .next { s with cfg := cfg, ctrlMSTR := true, ctrlIE := true,
                       trace := s.trace ++ [.setMaster, .result .ok none] }) ∧
    (¬ (s.engine = .idle ∧ s.cur = none ∧ s.q = [] ∧ s.xip = false ∧ s.ifrIF = false) →
      exec (.init cfg) s = .refused .initNotIdle) ∧
    encode (.init cfg) = [0x01#8, cfg]

/-- R90: CREATE_DEVICE in any state, with the response bytes of R78 and its packet (opcode `0x02`, format P); no state but
the trace is written. The three reserved pins are those of the reference parameters (R6). -/
def Obligations.CreateDeviceResult : Prop :=
  ∀ (dev : Device) (s : State),
    ((dev.dbit ∈ [5#3, 4#3, 3#3] ∨ dev.lbit ∈ [5#3, 4#3, 3#3]) →
      exec (.createDevice dev) s = .next { s with trace := s.trace ++ [.result .invalidPinConflict none] }) ∧
    (¬ (dev.dbit ∈ [5#3, 4#3, 3#3] ∨ dev.lbit ∈ [5#3, 4#3, 3#3]) →
      exec (.createDevice dev) s = .next { s with trace := s.trace ++ [.result .ok (some dev)] }) ∧
    (Event.result .invalidPinConflict none).response = some [4#8] ∧
    (Event.result .ok (some dev)).response = some [0#8, encodePins dev] ∧
    encode (.createDevice dev) = [0x02#8, encodePins dev]

/-- R91: RELEASE_DEVICE of any Device in any state returns OK and changes nothing; its packet (opcode `0x03`, format P). -/
def Obligations.ReleaseDeviceResult : Prop :=
  ∀ (dev : Device) (s : State),
    exec (.releaseDevice dev) s = .next { s with trace := s.trace ++ [.result .ok none] } ∧
      encode (.releaseDevice dev) = [0x03#8, encodePins dev]

/-- R145, R164: FLUSH fails while BUSY and changes nothing; otherwise it releases every queued descriptor, oldest first,
without running one. Its packet (opcode `0x07`, format N). -/
def Obligations.FlushResult : Prop :=
  ∀ s : State,
    (s.engine = .busy → exec .flush s = .next { s with trace := s.trace ++ [.result .flushFailed none] }) ∧
      (s.engine = .idle →
        exec .flush s = .next { s with q := [], trace := s.trace ++ s.q.map Event.release ++ [.result .ok none] }) ∧
      encode .flush = [0x07#8]

/-- R177: FLUSH with `STATE = IDLE` and `Q = []` gives `Result(OK)`, no other event, no state change. -/
def Obligations.FlushOfAnEmptyIdleQueueIsANoOp : Prop :=
  ∀ s : State, s.engine = .idle → s.q = [] → exec .flush s = .next { s with trace := s.trace ++ [.result .ok none] }

/-- R180: FLUSH while BUSY changes nothing, and whatever run would have followed without it follows with it, with the same
events after its `Result(FLUSH_FAILED)`. -/
def Obligations.FlushWhileBusyDisturbsNothing : Prop :=
  ∀ (W : Widths) (P : Params W) (s : State W), s.engine = .busy →
    ∃ u, execAt P .flush s = .next u ∧ u = { s with trace := s.trace ++ [.result .flushFailed none] } ∧
      ∀ (is : List (Instr W)) (t : State W), runAt P is s = .next t →
        ∃ evs, t.trace = s.trace ++ evs ∧
          runAt P is u = .next { t with trace := s.trace ++ [.result .flushFailed none] ++ evs }

/-! ### WRITE, READ, READ_WRITE (42_public_api.md) -/

/-- R142 corner cases (a) and (d): while BUSY, with room, WRITE, READ and READ_WRITE append their tagged descriptors (R75)
to the queue and nothing else happens, whether the devices are present or not. -/
def Obligations.SubmittingWhileBusyOnlyEnqueues : Prop :=
  ∀ s : State, s.engine = .busy →
    (∀ (d : Request) (cap : Option Addr), d.wellFormed Config.params → s.q.length + 1 ≤ Config.params.qcap →
      exec (.write d cap) s =
        .next { s with q := s.q ++ [⟨d.device, d.data, d.remaining, .write, cap, d.callback⟩],
                       trace := s.trace ++ [.result .ok none] }) ∧
    (∀ (d : Request) (cap : Addr), d.wellFormed Config.params → s.q.length + 1 ≤ Config.params.qcap →
      exec (.read d cap) s =
        .next { s with q := s.q ++ [⟨d.device, d.data, d.remaining, .read, some cap, d.callback⟩],
                       trace := s.trace ++ [.result .ok none] }) ∧
    (∀ (w r : Request) (wcap : Option Addr) (cap : Addr), w.wellFormed Config.params → r.wellFormed Config.params →
      s.q.length + 2 ≤ Config.params.qcap →
      exec (.readWrite w wcap r cap) s =
        .next { s with q := s.q ++ [⟨w.device, w.data, w.remaining, .readWrite, wcap, w.callback⟩,
                                    ⟨r.device, r.data, r.remaining, .read, some cap, r.callback⟩],
                       trace := s.trace ++ [.result .ok none] })

/-- R179, R192: with too few free slots WRITE, READ and READ_WRITE (also with exactly one free slot) release what was
submitted and end with BUFFER_OVERFLOW; nothing else changes. -/
def Obligations.OverflowReleasesAndChangesNothingElse : Prop :=
  ∀ (i : Instr) (s : State), i.wellFormed Config.params → submitted i ≠ [] →
    Config.params.qcap < s.q.length + (submitted i).length →
      exec i s =
        .next { s with trace := s.trace ++ (submitted i).map Event.release ++ [.result .bufferOverflow none] }

/-- R142 corner case (b), R112, R93, R94, R113: submitted while IDLE, a descriptor with a present device and at least one
byte is started at once. `rest` is the read descriptor of a READ_WRITE, which stays queued, and empty otherwise. -/
def Obligations.SubmittingWhileIdleStartsTheTransfer : Prop :=
  ∀ (i : Instr) (s : State) (c : Desc) (rest : List Desc) (dev : Device),
    Inv Config.params s → s.engine = .idle → i.wellFormed Config.params → submitted i = c :: rest →
      c.device = some dev → c.remaining ≠ 0#16 →
        exec i s =
          .next { s with
            engine := .busy, cur := some { c with remaining := c.remaining - 1#16 }, active := some dev, q := rest,
            dir := setPin s.dir dev.dbit true, lvl := setPin s.lvl dev.lbit Config.params.selActive,
            txr := memRead c.data s, xip := true, ctrlMSTR := s.ctrlMSTR || decide (s.active ≠ some dev),
            trace := s.trace ++ (if s.active = some dev then [] else [.dirOut dev.dbit, .setMaster]) ++
              [.selAssert dev.lbit, .load (memRead c.data s), .result .ok none] }

/-- R142 corner case (c), R191: a single descriptor without device, submitted while IDLE, is released and the operation
ends with INVALID_DEVICE; nothing else changes. -/
def Obligations.NullDeviceWhileIdleIsReleasedAndReported : Prop :=
  ∀ (i : Instr) (s : State) (c : Desc),
    Inv Config.params s → s.engine = .idle → submitted i = [c] → c.device = none →
      exec i s = .next { s with trace := s.trace ++ [.release c, .result .invalidDevice none] }

/-- R144 corner case (c), R112, R121: a READ_WRITE whose command descriptor has no device, submitted while IDLE, releases it
and goes on with the read descriptor: starts it, ends it inside the step when it has no bytes, or releases it too when it
has no device. The operation ends with INVALID_DEVICE each time, although in the first case the engine is BUSY. -/
def Obligations.NullCommandOfReadWriteIsPassedOver : Prop :=
  ∀ (i : Instr) (s : State) (w r : Desc),
    Inv Config.params s → s.engine = .idle → i.wellFormed Config.params → submitted i = [w, r] → w.device = none →
      (∀ dev : Device, r.device = some dev → r.remaining ≠ 0#16 →
        exec i s =
          .next { s with
            engine := .busy, cur := some { r with remaining := r.remaining - 1#16 }, active := some dev, q := [],
            dir := setPin s.dir dev.dbit true, lvl := setPin s.lvl dev.lbit Config.params.selActive,
            txr := memRead r.data s, xip := true, ctrlMSTR := s.ctrlMSTR || decide (s.active ≠ some dev),
            trace := s.trace ++ [.release w] ++ activationEvents s.active dev ++
              [.selAssert dev.lbit, .load (memRead r.data s), .result .invalidDevice none] }) ∧
      (∀ dev : Device, r.device = some dev → r.remaining = 0#16 →
        exec i s =
          .next { s with
            active := some dev, dir := setPin s.dir dev.dbit true,
            ctrlMSTR := s.ctrlMSTR || decide (s.active ≠ some dev),
            trace := s.trace ++ [.release w] ++ activationEvents s.active dev ++
              (r.callback.map Event.callback).toList ++
              [.release { r with callback := none }, .selDeassert dev.lbit, .result .invalidDevice none] }) ∧
      (r.device = none →
        exec i s = .next { s with trace := s.trace ++ [.release w, .release r, .result .invalidDevice none] })

/-- R121, R178: a zero-length descriptor submitted while IDLE is over inside the step: the device is activated, the callback
fires before the Result, it is released, no line is asserted and no byte is exchanged. Alone, it leaves the line written
inactive and the engine IDLE. As the command descriptor of a READ_WRITE it leaves the line as it is, and the step goes on
with the read descriptor: starts it, ends it too when it has no bytes, or releases it with INVALID_DEVICE when it has no
device. -/
def Obligations.ZeroLengthCompletesInsideTheStep : Prop :=
  (∀ (i : Instr) (s : State) (c : Desc) (dev : Device),
    Inv Config.params s → s.engine = .idle → i.wellFormed Config.params → submitted i = [c] → c.device = some dev →
      c.remaining = 0#16 →
        exec i s =
          .next { s with
            active := some dev, dir := setPin s.dir dev.dbit true,
            ctrlMSTR := s.ctrlMSTR || decide (s.active ≠ some dev),
            trace := s.trace ++ activationEvents s.active dev ++ (c.callback.map Event.callback).toList ++
              [.release { c with callback := none }, .selDeassert dev.lbit, .result .ok none] }) ∧
  ∀ (i : Instr) (s : State) (w r : Desc) (a : Device),
    Inv Config.params s → s.engine = .idle → i.wellFormed Config.params → submitted i = [w, r] → w.device = some a →
      w.remaining = 0#16 →
        (∀ dev : Device, r.device = some dev → r.remaining ≠ 0#16 →
          exec i s =
            .next { s with
              engine := .busy, cur := some { r with remaining := r.remaining - 1#16 }, active := some dev, q := [],
              dir := setPin (setPin s.dir a.dbit true) dev.dbit true,
              lvl := setPin s.lvl dev.lbit Config.params.selActive, txr := memRead r.data s, xip := true,
              ctrlMSTR := s.ctrlMSTR || decide (s.active ≠ some a) || decide (a ≠ dev),
              trace := s.trace ++ activationEvents s.active a ++ (w.callback.map Event.callback).toList ++
                [.release { w with callback := none }] ++ activationEvents (some a) dev ++
                [.selAssert dev.lbit, .load (memRead r.data s), .result .ok none] }) ∧
        (∀ dev : Device, r.device = some dev → r.remaining = 0#16 →
          exec i s =
            .next { s with
              active := some dev, dir := setPin (setPin s.dir a.dbit true) dev.dbit true,
              ctrlMSTR := s.ctrlMSTR || decide (s.active ≠ some a) || decide (a ≠ dev),
              trace := s.trace ++ activationEvents s.active a ++ (w.callback.map Event.callback).toList ++
                [.release { w with callback := none }] ++ activationEvents (some a) dev ++
                (r.callback.map Event.callback).toList ++
                [.release { r with callback := none }, .selDeassert dev.lbit, .result .ok none] }) ∧
        (r.device = none →
          exec i s =
            .next { s with
              active := some a, dir := setPin s.dir a.dbit true,
              ctrlMSTR := s.ctrlMSTR || decide (s.active ≠ some a),
              trace := s.trace ++ activationEvents s.active a ++ (w.callback.map Event.callback).toList ++
                [.release { w with callback := none }, .release r, .result .invalidDevice none] })

/-! ### SHIFT_DONE and XFER_COMPLETE (41_transfer_engine.md) -/

/-- R114: SHIFT_DONE where an exchange is in flight, for every byte the peripheral may return, whatever `CTRL.IE` is; `TXR`
keeps the transmitted byte. It cannot occur when no exchange is in flight. Its packet (opcode `0x80`, format E). -/
def Obligations.ShiftDoneResult : Prop :=
  ∀ (rx : Byte) (s : State),
    (s.xip = true → exec (.shiftDone rx) s = .next { s with xip := false, rxr := rx, ifrIF := true }) ∧
      (s.xip = false → exec (.shiftDone rx) s = .refused .noExchangeInFlight) ∧
      encode (.shiftDone rx) = [0x80#8, rx]

/-- R115 to R118: XFER_COMPLETE with bytes left: the received byte captured (or discarded), the cursors advanced,
`remaining` counted down and the next byte loaded, read after the capture. The select line is not touched. -/
def Obligations.HandlerContinuesWithTheNextByte : Prop :=
  ∀ (s : State) (c : Desc),
    s.ifrIF = true → s.ctrlIE = true → s.xip = false → s.cur = some c → c.remaining ≠ 0#16 →
      exec .xferComplete s =
        .next { s with
          ifrIF := false,
          cur := some { c with
            data := nextAddr c.data, remaining := c.remaining - 1#16,
            capture := if includesRead c.mode then c.capture.map nextAddr else c.capture },
          mem := storeAll (capturesOf c [s.rxr]) s.mem,
          txr := Memory.byteAt (storeAll (capturesOf c [s.rxr]) s.mem) (nextAddr c.data), xip := true,
          trace := s.trace ++ storeEvents (capturesOf c [s.rxr]) ++
            [.load (Memory.byteAt (storeAll (capturesOf c [s.rxr]) s.mem) (nextAddr c.data))] }

/-- R119 step 4b: XFER_COMPLETE at the last byte with an empty queue: capture, callback, release, the active device's line
deasserted, IDLE. -/
def Obligations.LastByteWithEmptyQueueGoesIdle : Prop :=
  ∀ (s : State) (c : Desc) (a : Device),
    s.ifrIF = true → s.ctrlIE = true → s.cur = some c → c.remaining = 0#16 → s.q = [] → s.active = some a →
      exec .xferComplete s =
        .next { s with
          ifrIF := false, engine := .idle, cur := none, mem := storeAll (capturesOf c [s.rxr]) s.mem,
          lvl := setPin s.lvl a.lbit (!Config.params.selActive),
          trace := s.trace ++ storeEvents (capturesOf c [s.rxr]) ++ (c.callback.map Event.callback).toList ++
            [.release (ended 1 c), .selDeassert a.lbit] }

/-- R119 step 4c, R112: XFER_COMPLETE at the last byte of a descriptor whose mode is not READ_WRITE, with a startable one
queued: the line is deasserted, the descriptor released, and the next one started, all in one step, BUSY throughout. -/
def Obligations.ChainedStartPulsesTheLine : Prop :=
  ∀ (s : State) (c d : Desc) (rest : List Desc) (a dev : Device),
    s.engine = .busy → s.ifrIF = true → s.ctrlIE = true → s.xip = false → s.cur = some c → c.remaining = 0#16 →
      c.mode ≠ .readWrite → s.q = d :: rest → s.active = some a → d.device = some dev → d.remaining ≠ 0#16 →
        exec .xferComplete s =
          .next { s with
            ifrIF := false, cur := some { d with remaining := d.remaining - 1#16 }, q := rest, active := some dev,
            mem := storeAll (capturesOf c [s.rxr]) s.mem,
            dir := if a = dev then s.dir else setPin s.dir dev.dbit true,
            lvl := setPin (setPin s.lvl a.lbit (!Config.params.selActive)) dev.lbit Config.params.selActive,
            ctrlMSTR := s.ctrlMSTR || decide (a ≠ dev),
            txr := Memory.byteAt (storeAll (capturesOf c [s.rxr]) s.mem) d.data, xip := true,
            trace := s.trace ++ storeEvents (capturesOf c [s.rxr]) ++ (c.callback.map Event.callback).toList ++
              [.selDeassert a.lbit, .release (ended 1 c)] ++
              (if a = dev then [] else [.dirOut dev.dbit, .setMaster]) ++
              [.selAssert dev.lbit, .load (Memory.byteAt (storeAll (capturesOf c [s.rxr]) s.mem) d.data)] }

/-- R120, R174: XFER_COMPLETE at the last byte of a READ_WRITE descriptor, with a startable descriptor of the same device
queued: the line is held, and the step shows no transition of any line. -/
def Obligations.ReadWriteHoldsTheLineAcrossTheBoundary : Prop :=
  ∀ (s : State) (c d : Desc) (rest : List Desc) (dev : Device),
    Inv Config.params s → s.ifrIF = true → s.ctrlIE = true → s.cur = some c → c.remaining = 0#16 →
      c.mode = .readWrite → c.device = some dev → s.q = d :: rest → d.device = some dev → d.remaining ≠ 0#16 →
        ∃ t evs, exec .xferComplete s = .next t ∧ t.trace = s.trace ++ evs ∧
          evs = storeEvents (capturesOf c [s.rxr]) ++ (c.callback.map Event.callback).toList ++
            [.release (ended 1 c), .selAssert dev.lbit,
             .load (Memory.byteAt (storeAll (capturesOf c [s.rxr]) s.mem) d.data)] ∧
          t = { s with
            ifrIF := false, cur := some { d with remaining := d.remaining - 1#16 }, q := rest,
            mem := storeAll (capturesOf c [s.rxr]) s.mem,
            txr := Memory.byteAt (storeAll (capturesOf c [s.rxr]) s.mem) d.data, xip := true, trace := s.trace ++ evs } ∧
          ∀ p, transitions Config.params p evs s.lvl = 0

/-- R96: XFER_COMPLETE at the last byte of a READ_WRITE descriptor, with a startable descriptor of another device queued:
the old line is deasserted before the new device is activated and its line asserted. -/
def Obligations.SwitchGuardDropsAHeldLineOfAnotherDevice : Prop :=
  ∀ (s : State) (c d : Desc) (rest : List Desc) (a dev : Device),
    Inv Config.params s → s.ifrIF = true → s.ctrlIE = true → s.cur = some c → c.remaining = 0#16 →
      c.mode = .readWrite → c.device = some a → s.q = d :: rest → d.device = some dev → a ≠ dev →
      d.remaining ≠ 0#16 →
        exec .xferComplete s =
          .next { s with
            ifrIF := false, cur := some { d with remaining := d.remaining - 1#16 }, q := rest, active := some dev,
            mem := storeAll (capturesOf c [s.rxr]) s.mem, dir := setPin s.dir dev.dbit true,
            lvl := setPin (setPin s.lvl a.lbit (!Config.params.selActive)) dev.lbit Config.params.selActive,
            ctrlMSTR := true, txr := Memory.byteAt (storeAll (capturesOf c [s.rxr]) s.mem) d.data, xip := true,
            trace := s.trace ++ storeEvents (capturesOf c [s.rxr]) ++ (c.callback.map Event.callback).toList ++
              [.release (ended 1 c), .selDeassert a.lbit, .dirOut dev.dbit, .setMaster, .selAssert dev.lbit,
               .load (Memory.byteAt (storeAll (capturesOf c [s.rxr]) s.mem) d.data)] }

/-- R195, R112: a null-device descriptor that the handler reaches as the last of the queue is released and reported as
`Diag`; the engine goes IDLE with the line deasserted, by EXHAUSTED or, after a READ_WRITE descriptor, by START_NEXT. -/
def Obligations.NullDeviceInTheHandlerIsADiag : Prop :=
  ∀ (s : State) (c d : Desc) (a : Device),
    Inv Config.params s → s.ifrIF = true → s.ctrlIE = true → s.cur = some c → c.remaining = 0#16 → c.device = some a →
      s.q = [d] → d.device = none →
        exec .xferComplete s =
          .next { s with
            ifrIF := false, engine := .idle, cur := none, q := [], mem := storeAll (capturesOf c [s.rxr]) s.mem,
            lvl := setPin s.lvl a.lbit (!Config.params.selActive),
            trace := s.trace ++ storeEvents (capturesOf c [s.rxr]) ++ (c.callback.map Event.callback).toList ++
              (if c.mode = .readWrite then
                [.release (ended 1 c), .release d, .diag .invalidDevice, .selDeassert a.lbit]
              else [.selDeassert a.lbit, .release (ended 1 c), .release d, .diag .invalidDevice]) }

/-- R119 step 4c and R112: how the handler goes on with the queue after a last byte, and what START_NEXT does with a
descriptor it passes over, at any parameters and from either context. A null-device descriptor is released as it is and
reported (`Diag` in the handler, INVALID_DEVICE to the foreground). A zero-length descriptor turns to its device, fires its
callback and is released; its line is written inactive, unless its mode is READ_WRITE and more is queued. With more queued
START_NEXT goes on with what is left; otherwise the engine goes IDLE. -/
def Obligations.StartNextPassesOverNullAndZeroLengthDescriptors : Prop :=
  (∀ (s : State) (c : Desc) (a : Device),
    s.ifrIF = true → s.ctrlIE = true → s.cur = some c → c.remaining = 0#16 → s.q ≠ [] → s.active = some a →
      exec .xferComplete s =
        andThen (startNext Config.params .interrupt
          { s with
            ifrIF := false, cur := none, mem := storeAll (capturesOf c [s.rxr]) s.mem,
            lvl := if c.mode = .readWrite then s.lvl else setPin s.lvl a.lbit (!Config.params.selActive),
            trace := s.trace ++ storeEvents (capturesOf c [s.rxr]) ++ (c.callback.map Event.callback).toList ++
              (if c.mode = .readWrite then [.release (ended 1 c)] else [.selDeassert a.lbit, .release (ended 1 c)]) })
          fun x => .next x.2) ∧
  ∀ (W : Widths) (P : Params W) (ctx : Context) (s : State W) (d : Desc W) (rest : List (Desc W)), s.q = d :: rest →
    (d.device = none → rest ≠ [] →
      startNext P ctx s =
        andThen (startNext P ctx
          { s with q := rest, cur := none,
                   trace := s.trace ++ [.release d] ++ (if ctx = .interrupt then [.diag .invalidDevice] else []) })
          fun x => .next (.invalidDevice, x.2)) ∧
    (d.device = none → rest = [] → (∀ a ∈ s.active, ¬ asserted P a s) →
      startNext P ctx s =
        .next (.invalidDevice, { s with
          q := [], cur := none, engine := .idle,
          trace := s.trace ++ [.release d] ++ (if ctx = .interrupt then [.diag .invalidDevice] else []) })) ∧
    (∀ a : Device W, d.device = none → rest = [] → s.active = some a → asserted P a s →
      startNext P ctx s =
        .next (.invalidDevice, { s with
          q := [], cur := none, engine := .idle, lvl := setPin s.lvl a.lbit (!P.selActive),
          trace := s.trace ++ [.release d] ++ (if ctx = .interrupt then [.diag .invalidDevice] else []) ++
            [.selDeassert a.lbit] })) ∧
    (∀ dev : Device W, d.device = some dev → d.remaining = 0#_ →
      let u := activate dev (switchGuard P dev s)
      (rest ≠ [] →
        startNext P ctx s = startNext P ctx
          { u with
            q := rest, cur := none,
            lvl := if d.mode = .readWrite then u.lvl else setPin u.lvl dev.lbit (!P.selActive),
            trace := u.trace ++ (d.callback.map Event.callback).toList ++
              (if d.mode = .readWrite then [.release { d with callback := none }]
               else [.selDeassert dev.lbit, .release { d with callback := none }]) }) ∧
      (rest = [] →
        startNext P ctx s =
          .next (.ok, { u with
            q := [], cur := none, engine := .idle, lvl := setPin u.lvl dev.lbit (!P.selActive),
            trace := u.trace ++ (d.callback.map Event.callback).toList ++
              [.release { d with callback := none }, .selDeassert dev.lbit] })))

/-- R115 corner case (a): a completion with no current descriptor clears the flag and does nothing else. -/
def Obligations.CompletionWithoutCurrentOnlyClearsTheFlag : Prop :=
  ∀ s : State, s.ifrIF = true → s.ctrlIE = true → s.cur = none →
    exec .xferComplete s = .next { s with ifrIF := false }

/-- R50: with `capture = data + 1` the received byte is the byte transmitted next; with `capture = data` the next byte
transmitted is the original one. -/
def Obligations.OverlappingCaptureIsSeenByTheNextLoad : Prop :=
  ∀ (s : State) (c : Desc),
    s.ifrIF = true → s.ctrlIE = true → s.xip = false → s.cur = some c → c.remaining ≠ 0#16 →
      includesRead c.mode = true →
        (c.capture = some (nextAddr c.data) → ∃ t, exec .xferComplete s = .next t ∧ t.txr = s.rxr) ∧
          (c.capture = some c.data → ∃ t, exec .xferComplete s = .next t ∧ t.txr = memRead (nextAddr c.data) s)

/-- R48 (a), R53, R41: a byte the host stores before the step that loads it is the byte transmitted, wherever a step loads:
the handler's next byte, the first byte of a submission while IDLE, and the first byte of the next descriptor in the
handler. (A completion that captures onto that very byte stores it first, R50.) And the host's store touches no other
byte. -/
def Obligations.HostStoreBeforeTheLoadIsTransmitted : Prop :=
  ∀ (s : State) (v : Byte),
    (∀ c : Desc, s.ifrIF = true → s.ctrlIE = true → s.xip = false → s.cur = some c → c.remaining ≠ 0#16 →
      ¬ (includesRead c.mode = true ∧ c.capture = some (nextAddr c.data)) →
        ∃ t, exec .xferComplete (s.hostStore (nextAddr c.data) v) = .next t ∧ t.txr = v) ∧
    (∀ (i : Instr) (c : Desc) (rest : List Desc) (dev : Device),
      Inv Config.params s → s.engine = .idle → i.wellFormed Config.params → submitted i = c :: rest →
        c.device = some dev → c.remaining ≠ 0#16 → ∃ t, exec i (s.hostStore c.data v) = .next t ∧ t.txr = v) ∧
    (∀ (c d : Desc) (rest : List Desc) (dev : Device),
      Inv Config.params s → s.ifrIF = true → s.ctrlIE = true → s.cur = some c → c.remaining = 0#16 → s.q = d :: rest →
        d.device = some dev → d.remaining ≠ 0#16 → ¬ (includesRead c.mode = true ∧ c.capture = some d.data) →
          ∃ t, exec .xferComplete (s.hostStore d.data v) = .next t ∧ t.txr = v) ∧
    ∀ a b : Addr, memRead a (s.hostStore b v) = if a = b then v else memRead a s

/-! ### Frames -/

/-- The frame of WRITE, READ and READ_WRITE: where they answer a next state, no byte of memory, `RXR`, `IFR.IF`,
`CTRL.IE`, `CFG` or the script changes; while BUSY nothing but `Q` and the trace does. -/
def Obligations.SubmittingOperationsFrame : Prop :=
  ∀ (i : Instr) (s t : State), submitted i ≠ [] → exec i s = .next t →
    t.rxr = s.rxr ∧ t.ifrIF = s.ifrIF ∧ t.ctrlIE = s.ctrlIE ∧ t.cfg = s.cfg ∧ t.script = s.script ∧
      (∀ a, memRead a t = memRead a s) ∧ (s.ctrlMSTR = true → t.ctrlMSTR = true) ∧
      (s.engine = .busy → t = { s with q := t.q, trace := t.trace })

/-- The frame of XFER_COMPLETE: `RXR`, `CTRL.IE`, `CFG` and the script are unchanged; every byte of memory is unchanged
except the one at the capture cursor of a capturing current descriptor, which holds the received byte; with bytes left
the queue, the active device, the pins, `CTRL.MSTR` and `STATE` are unchanged. -/
def Obligations.HandlerFrame : Prop :=
  ∀ s t : State, exec .xferComplete s = .next t →
    t.rxr = s.rxr ∧ t.ctrlIE = s.ctrlIE ∧ t.cfg = s.cfg ∧ t.script = s.script ∧ t.ifrIF = false ∧
      (∀ a, memRead a t =
        if ∃ c, s.cur = some c ∧ c.capture = some a ∧ includesRead c.mode = true then s.rxr else memRead a s) ∧
      (∀ c, s.cur = some c → c.remaining ≠ 0#16 →
        t.q = s.q ∧ t.active = s.active ∧ t.dir = s.dir ∧ t.lvl = s.lvl ∧ t.ctrlMSTR = s.ctrlMSTR ∧
          t.engine = s.engine)

/-- R42: SPI-TE writes memory in one place only: no operation but XFER_COMPLETE changes a byte. -/
def Obligations.OnlyTheHandlerWritesMemory : Prop :=
  ∀ (W : Widths) (P : Params W) (i : Instr W) (s t : State W), i ≠ .xferComplete → execAt P i s = .next t → t.mem = s.mem

/-- R198, R20, R21, R22, R19: who writes the one-bit items and the port registers. `CTRL.IE` and `CFG` only by INIT,
`RXR` only by SHIFT_DONE, `IFR.IF` set only by SHIFT_DONE. `CTRL.MSTR` is never cleared, and it is written 1, with its
event, by INIT and by every ACTIVATE that is not a no-op (the only source of `DirOut`, R93), and by nothing else. -/
def Obligations.WhoWritesTheControlRegisters : Prop :=
  ∀ (W : Widths) (P : Params W) (i : Instr W) (s t : State W), execAt P i s = .next t →
    ((∀ cfg, i ≠ .init cfg) → t.ctrlIE = s.ctrlIE ∧ t.cfg = s.cfg) ∧
      ((∀ rx, i ≠ .shiftDone rx) → t.rxr = s.rxr ∧ (t.ifrIF = true → s.ifrIF = true)) ∧
      (s.ctrlIE = true → t.ctrlIE = true) ∧
      ∃ evs, t.trace = s.trace ++ evs ∧ (t.ctrlMSTR = true ↔ s.ctrlMSTR = true ∨ Event.setMaster ∈ evs) ∧
        (Event.setMaster ∈ evs ↔ (∃ cfg, i = .init cfg) ∨ ∃ p, Event.dirOut p ∈ evs) ∧
        (t.active ≠ s.active → ∃ p, Event.dirOut p ∈ evs)

/-- R18: no operation clears a `DIR` bit; and in a state that meets the invariant no operation writes `DIR` or `LVL` at a
pin of the bus. For INIT the second half is the model's choice (log 20): what it does to those pins is out of scope (R18,
R140). -/
def Obligations.OutputsStayOutputsAndBusPinsAreUntouched : Prop :=
  ∀ (W : Widths) (P : Params W) (i : Instr W) (s t : State W), Inv P s → execAt P i s = .next t → ∀ p : Pin W,
    (pinBit s.dir p = true → pinBit t.dir p = true) ∧
      (P.reserved p → pinBit t.dir p = pinBit s.dir p ∧ pinBit t.lvl p = pinBit s.lvl p)

/-- R28: everything SPI-TE does to the outside is an event: the trace only grows, and the new events account for every
change of the level bits, the direction bits and the memory, and for the byte on the wire. -/
def Obligations.EventsAccountForEveryOutput : Prop :=
  ∀ (W : Widths) (P : Params W) (i : Instr W) (s t : State W), Inv P s → execAt P i s = .next t →
    ∃ evs, t.trace = s.trace ++ evs ∧ levelsAfter P evs s.lvl = t.lvl ∧ directionsAfter evs s.dir = t.dir ∧
      memoryAfter evs s.mem = t.mem ∧ (loadsOf evs = [] ∧ t.txr = s.txr ∨ loadsOf evs = [t.txr] ∧ t.xip = true)

/-- R78, R9: every host operation ends with exactly one `Result` event, its last; SHIFT_DONE and XFER_COMPLETE have
none. -/
def Obligations.HostOperationsEndWithOneResult : Prop :=
  ∀ (W : Widths) (P : Params W) (i : Instr W) (s t : State W), Inv P s → execAt P i s = .next t →
    ((∃ rx, i = .shiftDone rx) ∨ i = .xferComplete → ∃ evs, t.trace = s.trace ++ evs ∧ resultsOf evs = []) ∧
      (¬ ((∃ rx, i = .shiftDone rx) ∨ i = .xferComplete) →
        ∃ evs code dev, t.trace = s.trace ++ evs ++ [.result code dev] ∧ resultsOf evs = [])

/-- R21, R22, R28, U12: no rule reads `CTRL.MSTR`, `CFG`, `TXR`, the trace or what is left of the script: two states that
differ only there answer alike, with the same events, and stay that way. -/
def Obligations.UnreadRegistersDoNotInfluenceTheMachine : Prop :=
  ∀ (W : Widths) (P : Params W) (i : Instr W) (s s' t : State W), SameButUnread s s' → execAt P i s = .next t →
    ∃ t' evs, execAt P i s' = .next t' ∧ SameButUnread t t' ∧ t.trace = s.trace ++ evs ∧ t'.trace = s'.trace ++ evs

/-! ### Whole runs -/

/-- R172, R173: callbacks are owed and fired in enqueue order, each exactly once. In one step: what fires, then what is
still owed, is what was owed and then what the operation enqueued. -/
def Obligations.CallbacksFireOnceInEnqueueOrder : Prop :=
  ∀ (W : Widths) (P : Params W) (i : Instr W) (s t : State W), Inv P s → execAt P i s = .next t →
    ∃ evs, t.trace = s.trace ++ evs ∧
      callbacksOf evs ++ callbacksDue (held t) = callbacksDue (held s ++ accepted P i s)

/-- R172 over a run of any length that ends IDLE: the callbacks fired are those of the descriptors held at its start and of
all it accepted, in enqueue order, each once. -/
def Obligations.RunToIdleFiresEveryCallbackInOrder : Prop :=
  ∀ (W : Widths) (P : Params W) (is : List (Instr W)) (s t : State W), Inv P s → runAt P is s = .next t →
    t.engine = .idle →
    ∃ evs, t.trace = s.trace ++ evs ∧ callbacksOf evs = callbacksDue (held s ++ acceptedBy P is s)

/-- R176, R183, R119 corner case (e): every descriptor is released once, in enqueue order, as R119 says: `remaining` 0, the
cursors advanced by its byte count, the callback cleared (a null-device descriptor as it was). In one step: what is
released, then what is still to be, is what was to be released and then what the operation submitted; a rejected
submission is released at once and as it is. -/
def Obligations.EveryDescriptorIsReleasedOnceInOrder : Prop :=
  ∀ (W : Widths) (P : Params W) (i : Instr W) (s t : State W), Inv P s → execAt P i s = .next t →
    ∃ evs, t.trace = s.trace ++ evs ∧
      (accepted P i s = submitted i →
        releasesOf evs ++ releasesDue t = releasesDue s ++ (submitted i).map releaseDue) ∧
      (accepted P i s ≠ submitted i → releasesOf evs = submitted i ∧ releasesDue t = releasesDue s)

/-- R182: `k` exchanges of a descriptor with at least `k` bytes left to load move `k` bytes: one load each, of the byte at
the advanced cursor as memory is at that moment; one store each where it captures, in transfer order; no callback, no
release, no select event (where no cursor comes upon a device of the platform, R45). -/
def Obligations.ExchangesMoveOneByteEach : Prop :=
  ∀ (W : Widths) (P : Params W) (rxs : List Byte) (s : State W) (c : Desc W),
    s.xip = true → s.ifrIF = false → s.ctrlIE = true → s.cur = some c → rxs.length ≤ c.remaining.toNat →
      (∀ j, j ≤ rxs.length → ¬ cursorOnDevice P (afterExchanges j c)) →
      ∃ t evs, runAt P (xfers rxs) s = .next t ∧ t.trace = s.trace ++ evs ∧
        t.cur = some (afterExchanges rxs.length c) ∧ t.engine = s.engine ∧ t.q = s.q ∧ t.active = s.active ∧
        t.lvl = s.lvl ∧ t.dir = s.dir ∧ t.xip = true ∧ t.ifrIF = false ∧ t.ctrlIE = true ∧
        t.mem = storeAll (capturesOf c rxs) s.mem ∧ storesOf evs = capturesOf c rxs ∧ callbacksOf evs = [] ∧
        releasesOf evs = [] ∧ (∀ p, Event.selAssert p ∉ evs ∧ Event.selDeassert p ∉ evs) ∧
        (loadsOf evs).length = rxs.length ∧
        ∀ j, j < rxs.length →
          (loadsOf evs)[j]? =
            some (Memory.byteAt (storeAll ((capturesOf c rxs).take (j + 1)) s.mem) (c.data + BitVec.ofNat _ (j + 1)))

/-- R173, R182: a descriptor of `N` bytes takes exactly `N` completions: with `remaining` bytes still to load and nothing
else queued, the engine stays BUSY through `remaining` exchanges, and the next one fires the callback once, releases the
descriptor and goes IDLE (where no cursor comes upon a device of the platform, R45). -/
def Obligations.NBytesTakeExactlyNCompletions : Prop :=
  ∀ (W : Widths) (P : Params W) (rxs : List Byte) (rx : Byte) (s : State W) (c : Desc W),
    Inv P s → s.xip = true → s.ctrlIE = true → s.cur = some c → s.q = [] → rxs.length = c.remaining.toNat →
      (∀ j, j ≤ rxs.length → ¬ cursorOnDevice P (afterExchanges j c)) →
      ∃ u t evs, runAt P (xfers rxs) s = .next u ∧ u.engine = .busy ∧ u.trace = s.trace ++ evs ∧ callbacksOf evs = [] ∧
        runAt P (xfer rx) u = .next t ∧ t.engine = .idle ∧ t.cur = none ∧
        ∃ evs', t.trace = u.trace ++ evs' ∧ callbacksOf evs' = c.callback.toList ∧ loadsOf evs' = [] ∧
          releasesOf evs' = [ended (c.remaining.toNat + 1) c]

/-- R222, U16: with the handler masked and a completion pending the engine is BUSY for ever: no run whatever changes that. -/
def Obligations.TransferBeforeInitHangsBusy : Prop :=
  ∀ (W : Widths) (P : Params W) (is : List (Instr W)) (s t : State W), Inv P s → s.ctrlIE = false → s.ifrIF = true →
    runAt P is s = .next t → t.engine = .busy ∧ t.ctrlIE = false ∧ t.ifrIF = true ∧ t.cur = s.cur

/-- R229: while SHIFT_DONE never happens, an exchange in flight keeps the engine BUSY on the same descriptor: nothing is
dequeued, no callback fires, and submissions only lengthen the queue. -/
def Obligations.MissingShiftDoneHangsBusy : Prop :=
  ∀ (W : Widths) (P : Params W) (is : List (Instr W)) (s t : State W), Inv P s → s.xip = true →
    (∀ rx, Instr.shiftDone rx ∉ is) →
    runAt P is s = .next t →
      t.engine = .busy ∧ t.xip = true ∧ t.ifrIF = false ∧ t.cur = s.cur ∧ t.active = s.active ∧ t.lvl = s.lvl ∧
        (∃ more, t.q = s.q ++ more) ∧ ∃ evs, t.trace = s.trace ++ evs ∧ callbacksOf evs = [] ∧ loadsOf evs = []

/-! ### Memory, registers, selector -/

/-- Every memory operation keeps the canonical form, a byte written is read back, and no other byte changes (R41, R42), at
any widths. -/
def Obligations.MemoryReadsBackWhatWasWritten : Prop :=
  ∀ (W : Widths) (m : Memory) (a : Addr W) (v : Byte), Memory.wf W m →
    Memory.wf W (Memory.put a.toNat v m) ∧
      ∀ b : Addr W, Memory.byteAt (Memory.put a.toNat v m) b = if b = a then v else Memory.byteAt m b

/-- R27, at any widths: the register numbers are 0 to 15, each value fits the register's width, each register holds the item
the table names, bit by bit in the table's layout, and in a state that meets the invariant the Devices it shows are
valid. A value register whose presence bit is 0 shows nothing. Of `ACTIVE` and `CUR.flags` without a value only the clear
valid bit is spoken of: the other bits are the model's choice (log 22). -/
def Obligations.RegisterViewFollowsTheLayout : Prop :=
  ∀ (W : Widths) (s : State W),
    (∀ i, 15 < i → readReg i s = none) ∧
    (∀ i v, readReg i s = some v → ∃ w, regWidth W i = some w ∧ v < 2 ^ w) ∧
    readReg 0 s = some (if s.engine = .busy then 1 else 0) ∧
    readReg 1 s = some (s.ctrlIE.toNat + 2 * s.ctrlMSTR.toNat) ∧
    readReg 2 s = some s.ifrIF.toNat ∧
    (s.active = none → ∃ v, readReg 3 s = some v ∧ v % 2 = 0) ∧
    (∀ a, s.active = some a → readReg 3 s = some (1 + 2 * a.dbit.toNat + 2 ^ (W.pinW + 1) * a.lbit.toNat)) ∧
    (s.cur = none → (∃ v, readReg 4 s = some v ∧ v < 32) ∧ ∀ i, 5 ≤ i → i ≤ 9 → readReg i s = none) ∧
    (∀ c, s.cur = some c →
      readReg 4 s =
        some ((match c.mode with | .read => 1 | .write => 2 | .readWrite => 3) + 4 * c.device.isSome.toNat +
          8 * c.capture.isSome.toNat + 16 * c.callback.isSome.toNat + 32) ∧
      readReg 5 s = c.device.map (fun dev => dev.dbit.toNat + 2 ^ W.pinW * dev.lbit.toNat) ∧
      readReg 6 s = some c.remaining.toNat ∧ readReg 7 s = some c.data.toNat ∧
      readReg 8 s = c.capture.map (·.toNat) ∧ readReg 9 s = c.callback.map (·.toNat)) ∧
    readReg 10 s = some s.txr.toNat ∧ readReg 11 s = some s.rxr.toNat ∧ readReg 12 s = some s.xip.toNat ∧
    readReg 13 s = some s.cfg.toNat ∧ readReg 14 s = some s.dir.toNat ∧ readReg 15 s = some s.lvl.toNat ∧
    ∀ P : Params W, Inv P s → deviceOk P s.active ∧ ∀ c ∈ s.cur, deviceOk P c.device

/-- R92, R93, R96: turning to the device that is active already changes nothing and emits nothing; turning to another
records it, makes its pin an output, and touches no level bit but that of an asserted old line. -/
def Obligations.TurningToADevice : Prop :=
  ∀ (W : Widths) (P : Params W) (dev : Device W) (s : State W),
    (s.active = some dev → activate dev (switchGuard P dev s) = s) ∧
      (s.active ≠ some dev →
        let t := activate dev (switchGuard P dev s)
        t.active = some dev ∧ t.dir = setPin s.dir dev.dbit true ∧ t.ctrlMSTR = true ∧
          (∀ a, s.active = some a → asserted P a s → t.lvl = setPin s.lvl a.lbit (!P.selActive)) ∧
          ((∀ a, s.active = some a → ¬ asserted P a s) → t.lvl = s.lvl))
end

