-- ==== Sys2Proof/Laws/Decode.lean ====
section
/-!
SUPPORT. The decoder and the encoder, field by field (30_encoding.md): what each reads back of what the other writes, and
how many bytes each takes.
-/

namespace Sys2Proof

theorem word16_lowByte_highByte (v : BitVec 16) : word16 (lowByte v) (highByte v) = v := by
  unfold word16 lowByte highByte
  exact (BitVec.extractLsb'_append_extractLsb'_eq_extractLsb' (by omega)).trans (by simp)

theorem decodePins_encodePins (dev : Device) : decodePins (encodePins dev) = .ok dev := by
  obtain ⟨d, l⟩ := dev; revert d l; decide

theorem encodeFlags_bits (m : Mode) (devV capV cbV : Bool) :
    (encodeFlags m devV capV cbV).getLsbD 2 = devV ∧ (encodeFlags m devV capV cbV).getLsbD 3 = capV ∧
      (encodeFlags m devV capV cbV).getLsbD 4 = cbV ∧ (encodeFlags m devV capV cbV).getLsbD 5 = false ∧
      (encodeFlags m devV capV cbV).getLsbD 6 = false ∧ (encodeFlags m devV capV cbV).getLsbD 7 = false := by
  cases m <;> revert devV capV cbV <;> decide

theorem decodeDesc_encodeDesc (m : Mode) (d : Request) (capture : Option Addr) (rest : List Byte) :
    decodeDesc (encodeDesc m d capture ++ rest) = .ok (d, capture, rest) := by
  obtain ⟨dev, re, da, cb⟩ := d
  obtain ⟨h2, h3, h4, h5, h6, h7⟩ := encodeFlags_bits m dev.isSome capture.isSome cb.isSome
  simp only [encodeDesc, List.cons_append, List.nil_append, decodeDesc, h2, h3, h4, h5, h6, h7, word16_lowByte_highByte]
  cases dev <;> cases capture <;> cases cb <;> simp [decodeDevice, present, decodePins_encodePins]

/-- A DESC record takes ten bytes, of which the reserved FLAGS bits are zero. -/
theorem decodeDesc_ok {bs rest : List Byte} {d : Request} {capture : Option Addr}
    (h : decodeDesc bs = .ok (d, capture, rest)) :
    ∃ f p r0 r1 d0 d1 c0 c1 k0 k1,
      bs = f :: p :: r0 :: r1 :: d0 :: d1 :: c0 :: c1 :: k0 :: k1 :: rest ∧ f &&& 0xE0#8 = 0#8 := by
  have key : ∀ b : Byte, b.getLsbD 5 = false → b.getLsbD 6 = false → b.getLsbD 7 = false → b &&& 0xE0#8 = 0#8 := by
    decide
  unfold decodeDesc at h
  split at h
  · rename_i f p r0 r1 d0 d1 c0 c1 k0 k1 rest'
    split at h
    · cases h
    · rename_i hf
      simp only [Bool.or_eq_true, not_or, Bool.not_eq_true] at hf
      split at h
      · cases h
      · cases h; exact ⟨f, p, r0, r1, d0, d1, c0, c1, k0, k1, rfl, key f hf.1.1 hf.1.2 hf.2⟩
  · cases h

/-- What a DESC record says does not depend on what follows its ten bytes. -/
theorem decodeDesc_front {w : List Byte} (hw : w.length = 10) :
    ∃ x : Except Invalid (Request × Option Addr), ∀ rest, decodeDesc (w ++ rest) =
      match x with
      | .error e => .error e
      | .ok (d, c) => .ok (d, c, rest) := by
  match w, hw with
  | [w0, w1, w2, w3, w4, w5, w6, w7, w8, w9], _ =>
    simp only [List.cons_append, List.nil_append, decodeDesc]
    by_cases h : (w0.getLsbD 5 || w0.getLsbD 6 || w0.getLsbD 7) = true
    · exact ⟨.error .reservedFlags, fun rest => by rw [if_pos h]⟩
    · cases hd : decodeDevice (w0.getLsbD 2) w1 with
      | error e => exact ⟨.error e, fun rest => by rw [if_neg h]⟩
      | ok dev => exact ⟨.ok (_, _), fun rest => by rw [if_neg h]⟩

theorem decodeWord_ok {bs rest : List Byte} {v : BitVec 16} (h : decodeWord bs = .ok (v, rest)) :
    ∃ lo hi, bs = lo :: hi :: rest := by
  unfold decodeWord at h
  split at h
  · rename_i lo hi rest'; cases h; exact ⟨lo, hi, rfl⟩
  · cases h

theorem decodePins_ok {b : Byte} {dev : Device} (h : decodePins b = .ok dev) : b &&& 0x88#8 = 0#8 := by
  have key : ∀ b : Byte, b.getLsbD 3 = false → b.getLsbD 7 = false → b &&& 0x88#8 = 0#8 := by decide
  unfold decodePins at h
  split at h
  · cases h
  · rename_i hb
    simp only [Bool.or_eq_true, not_or, Bool.not_eq_true] at hb
    exact key b hb.1 hb.2

/-- Masking a packet given as a number, at its first byte (R62). -/
theorem packetNumber_and (b m v : Byte) (n M V : Nat) :
    (b.toNat + 256 * n) &&& (m.toNat + 256 * M) = v.toNat + 256 * V ↔ b &&& m = v ∧ n &&& M = V := by
  have split : ∀ x y : Nat, x < 256 → x + 256 * y = (y <<< 8) ||| x := fun x y hx => by
    have := Nat.shiftLeft_add_eq_or_of_lt (b := x) (i := 8) (by simpa using hx) y
    rw [← this, Nat.shiftLeft_eq]; omega
  have key : (b.toNat + 256 * n) &&& (m.toNat + 256 * M) = (b &&& m).toNat + 256 * (n &&& M) := by
    rw [split _ _ b.isLt, split _ _ m.isLt, split _ _ (b &&& m).isLt]
    apply Nat.eq_of_testBit_eq; intro i
    simp only [Nat.testBit_or, Nat.testBit_and, Nat.testBit_shiftLeft, BitVec.toNat_and, ge_iff_le]
    by_cases hi : 8 ≤ i
    · have high : ∀ x : Byte, x.toNat.testBit i = false := fun x =>
        Nat.testBit_lt_two_pow (Nat.lt_of_lt_of_le x.isLt (Nat.pow_le_pow_right (by omega) hi))
      simp [hi, high]
    · simp [hi]
  rw [key]
  have h1 := (b &&& m).isLt
  have h2 := v.isLt
  exact ⟨fun h => ⟨BitVec.eq_of_toNat_eq (by omega), by omega⟩, fun ⟨h, h'⟩ => by rw [h, h']⟩

end Sys2Proof
end

