-- ==== Sys2Proof/Laws/Pins.lean ====
section
/-!
SUPPORT. Pin vectors: what a written bit reads as, and that every other bit is as before (R18).
-/

namespace Sys2Proof.Machine

variable {W : Widths}

theorem pin_toNat_inj {p q : Pin W} : p.toNat = q.toNat ↔ p = q :=
  ⟨fun h => BitVec.eq_of_toNat_eq h, fun h => h ▸ rfl⟩

theorem pin_lt (p : Pin W) : p.toNat < W.npin := p.isLt

theorem oneHot_getLsbD (p q : Pin W) : ((1#_ : PinBits W) <<< p.toNat).getLsbD q.toNat = decide (p = q) := by
  have hq : q.toNat < 2 ^ W.pinW := q.isLt
  simp only [BitVec.getLsbD_shiftLeft, hq, decide_true, Bool.true_and, BitVec.getLsbD_one, ← pin_toNat_inj]
  have : 0 < 2 ^ W.pinW := Nat.two_pow_pos _
  by_cases h : p.toNat = q.toNat
  · simp [h, this]
  · by_cases hlt : q.toNat < p.toNat
    · simp [h, hlt]
    · have : q.toNat - p.toNat ≠ 0 := by omega
      simp [h, this]

theorem pinBit_setPin (v : PinBits W) (p q : Pin W) (b : Bool) :
    pinBit (setPin v p b) q = if p = q then b else pinBit v q := by
  have hq : q.toNat < 2 ^ W.pinW := q.isLt
  cases b <;> by_cases h : p = q <;>
    simp only [pinBit, setPin, Bool.false_eq_true, if_true, if_false, BitVec.getLsbD_or, BitVec.getLsbD_and,
      BitVec.getLsbD_not, oneHot_getLsbD, hq, h, decide_true, decide_false, Bool.not_true, Bool.not_false, Bool.and_true,
      Bool.and_false, Bool.or_true, Bool.or_false]

@[simp] theorem pinBit_setPin_same (v : PinBits W) (p : Pin W) (b : Bool) : pinBit (setPin v p b) p = b := by
  simp [pinBit_setPin]

theorem pinBit_setPin_other (v : PinBits W) {p q : Pin W} (h : p ≠ q) (b : Bool) :
    pinBit (setPin v p b) q = pinBit v q := by
  simp [pinBit_setPin, h]

/-- A pin vector is determined by its bits. -/
theorem pinBits_ext {v w : PinBits W} (h : ∀ p : Pin W, pinBit v p = pinBit w p) : v = w := by
  apply BitVec.eq_of_getLsbD_eq
  intro i hi
  have := h (BitVec.ofNat _ i)
  simpa [pinBit, Nat.mod_eq_of_lt hi] using this

/-- Writing a bit the level it has changes nothing. -/
theorem setPin_eq_self {v : PinBits W} {p : Pin W} {b : Bool} (h : pinBit v p = b) : setPin v p b = v :=
  pinBits_ext fun q => by
    rw [pinBit_setPin]; split
    · subst_vars; rfl
    · rfl

@[simp] theorem setPin_setPin (v : PinBits W) (p : Pin W) (b c : Bool) : setPin (setPin v p b) p c = setPin v p c :=
  pinBits_ext fun q => by simp only [pinBit_setPin]; split <;> rfl

end Sys2Proof.Machine
end

