-- ==== Sys2Proof/Laws/Events.lean ====
section
/-!
SUPPORT. What a list of events says, of a concatenation: every reading of Safety.lean splits at `++`.
-/

namespace Sys2Proof.Machine

variable {W : Widths}

@[simp] theorem callbacksOf_append (a b : List (Event W)) : callbacksOf (a ++ b) = callbacksOf a ++ callbacksOf b := by
  induction a with
  | nil => rfl
  | cons e es ih => cases e <;> simp [callbacksOf, ih]

@[simp] theorem releasesOf_append (a b : List (Event W)) : releasesOf (a ++ b) = releasesOf a ++ releasesOf b := by
  induction a with
  | nil => rfl
  | cons e es ih => cases e <;> simp [releasesOf, ih]

@[simp] theorem loadsOf_append (a b : List (Event W)) : loadsOf (a ++ b) = loadsOf a ++ loadsOf b := by
  induction a with
  | nil => rfl
  | cons e es ih => cases e <;> simp [loadsOf, ih]

@[simp] theorem storesOf_append (a b : List (Event W)) : storesOf (a ++ b) = storesOf a ++ storesOf b := by
  induction a with
  | nil => rfl
  | cons e es ih => cases e <;> simp [storesOf, ih]

@[simp] theorem resultsOf_append (a b : List (Event W)) : resultsOf (a ++ b) = resultsOf a ++ resultsOf b := by
  induction a with
  | nil => rfl
  | cons e es ih => cases e <;> simp [resultsOf, ih]

@[simp] theorem levelsAfter_append (P : Params W) (a b : List (Event W)) (v : PinBits W) :
    levelsAfter P (a ++ b) v = levelsAfter P b (levelsAfter P a v) := by
  induction a generalizing v with
  | nil => rfl
  | cons e es ih => cases e <;> simp [levelsAfter, ih]

@[simp] theorem directionsAfter_append (a b : List (Event W)) (v : PinBits W) :
    directionsAfter (a ++ b) v = directionsAfter b (directionsAfter a v) := by
  induction a generalizing v with
  | nil => rfl
  | cons e es ih => cases e <;> simp [directionsAfter, ih]

@[simp] theorem memoryAfter_append (a b : List (Event W)) (m : Memory) :
    memoryAfter (a ++ b) m = memoryAfter b (memoryAfter a m) := by
  induction a generalizing m with
  | nil => rfl
  | cons e es ih => cases e <;> simp [memoryAfter, ih]

theorem transitions_append (P : Params W) (p : Pin W) (a b : List (Event W)) (v : PinBits W) :
    transitions P p (a ++ b) v = transitions P p a v + transitions P p b (levelsAfter P a v) := by
  induction a generalizing v with
  | nil => simp [transitions, levelsAfter]
  | cons e es ih => cases e <;> simp [transitions, levelsAfter, ih, Nat.add_assoc]

theorem oneLineThroughout_start {P : Params W} {es : List (Event W)} {v : PinBits W} (h : oneLineThroughout P es v) :
    oneLine P v := by
  cases es with
  | nil => exact h
  | cons e es => exact h.1

theorem oneLineThroughout_append {P : Params W} {a b : List (Event W)} {v : PinBits W} (ha : oneLineThroughout P a v)
    (hb : oneLineThroughout P b (levelsAfter P a v)) : oneLineThroughout P (a ++ b) v := by
  induction a generalizing v with
  | nil => exact hb
  | cons e es ih => exact ⟨ha.1, ih ha.2 (by cases e <;> exact hb)⟩

/-- Where no line or one line is active, deasserting one leaves at most one active. -/
theorem oneLine_deassert {P : Params W} {v : PinBits W} (h : oneLine P v) (p : Pin W) :
    oneLine P (setPin v p (!P.selActive)) := by
  intro q r hq hr
  rw [pinBit_setPin] at hq hr
  split at hq
  · simp at hq
  · split at hr
    · simp at hr
    · exact h q r hq hr

/-- Asserting a line where every other line is inactive leaves exactly that one active. -/
theorem oneLine_assert {P : Params W} {v : PinBits W} {p : Pin W} (h : ∀ q, pinBit v q = P.selActive → q = p) :
    oneLine P (setPin v p P.selActive) := by
  have key : ∀ q, pinBit (setPin v p P.selActive) q = P.selActive → q = p := by
    intro q hq
    rw [pinBit_setPin] at hq
    split at hq
    · exact Eq.symm ‹_›
    · exact h q hq
  intro q r hq hr
  rw [key q hq, key r hr]

end Sys2Proof.Machine
end

