-- ==== Sys2Proof/Laws/Memory.lean ====
section
/-!
SUPPORT. Buffer memory: a read after a write, and the canonical form every memory operation keeps.
-/

namespace Sys2Proof.Machine

variable {W : Widths}

theorem Memory.find_put_same (a : Nat) (v : Byte) (m : Memory) : Memory.find a (Memory.put a v m) = some v := by
  induction m with
  | nil => simp [Memory.put, Memory.find]
  | cons c m ih =>
    obtain ⟨k, x⟩ := c
    simp only [Memory.put]
    split
    · simp [Memory.find]
    · split
      · simp [Memory.find]
      · rename_i h
        simp [Memory.find, Ne.symm h, ih]

theorem Memory.find_put_other {a b : Nat} (h : b ≠ a) (v : Byte) (m : Memory) :
    Memory.find b (Memory.put a v m) = Memory.find b m := by
  induction m with
  | nil => simp [Memory.put, Memory.find, h.symm]
  | cons c m ih =>
    obtain ⟨k, x⟩ := c
    simp only [Memory.put]
    split
    · simp [Memory.find, h.symm]
    · split
      · rename_i hk; subst hk
        simp [Memory.find, h.symm]
      · simp [Memory.find, ih]

@[simp] theorem Memory.byteAt_put_same (m : Memory) (a : Addr W) (v : Byte) :
    Memory.byteAt (Memory.put a.toNat v m) a = v := by
  simp [Memory.byteAt, Memory.find_put_same]

theorem Memory.byteAt_put_other (m : Memory) {a b : Addr W} (h : b ≠ a) (v : Byte) :
    Memory.byteAt (Memory.put a.toNat v m) b = Memory.byteAt m b := by
  have h' : b.toNat ≠ a.toNat := fun e => h (BitVec.eq_of_toNat_eq e)
  simp [Memory.byteAt, Memory.find_put_other h']

/-- The addresses a write lists: those listed before, and the one written. -/
theorem Memory.mem_put {a : Nat} {v : Byte} {m : Memory} {c : Host.Cell} (h : c ∈ Memory.put a v m) :
    c.1 = a ∨ c ∈ m := by
  induction m with
  | nil => simp [Memory.put] at h; simp [h]
  | cons d m ih =>
    obtain ⟨k, x⟩ := d
    simp only [Memory.put] at h
    split at h
    · rcases List.mem_cons.1 h with rfl | h'
      · exact .inl rfl
      · exact .inr h'
    · split at h
      · rcases List.mem_cons.1 h with rfl | h'
        · exact .inl rfl
        · exact .inr (List.mem_cons_of_mem _ h')
      · rcases List.mem_cons.1 h with rfl | h'
        · exact .inr (by simp)
        · exact (ih h').imp_right (List.mem_cons_of_mem _)

/-- A write of an address of the space keeps the canonical form. -/
theorem Memory.wf_put {m : Memory} (h : Memory.wf W m) {a : Nat} (ha : a < 2 ^ W.addrW) (v : Byte) :
    Memory.wf W (Memory.put a v m) := by
  obtain ⟨hp, hb⟩ := h
  refine ⟨?_, fun c hc => ?_⟩
  · clear hb
    induction m with
    | nil => simp [Memory.put]
    | cons d m ih =>
      obtain ⟨k, x⟩ := d
      obtain ⟨hk, hm⟩ := List.pairwise_cons.1 hp
      simp only [Memory.put]
      split
      · rename_i hak
        refine List.pairwise_cons.2 ⟨fun c hc => ?_, hp⟩
        rcases List.mem_cons.1 hc with rfl | hc
        · exact hak
        · exact Nat.lt_trans hak (hk c hc)
      · split
        · rename_i hak; subst hak
          exact List.pairwise_cons.2 ⟨hk, hm⟩
        · rename_i h1 h2
          refine List.pairwise_cons.2 ⟨fun c hc => ?_, ih hm⟩
          rcases Memory.mem_put hc with h | h
          · show k < c.1
            omega
          · exact hk c h
  · rcases Memory.mem_put hc with h | h
    · omega
    · exact hb c h

theorem Memory.wf_put_addr {m : Memory} (h : Memory.wf W m) (a : Addr W) (v : Byte) :
    Memory.wf W (Memory.put a.toNat v m) :=
  Memory.wf_put h a.isLt v

end Sys2Proof.Machine
end

