-- ==== Sys2Proof/Laws/State.lean ====
section
/-!
SUPPORT. One lemma for each field of State under each update of Machine/Ops.lean and Machine/Queue.lean, all by
definition, so that no proof unfolds a record update.
-/

namespace Sys2Proof.Machine

variable {W : Widths}

/-! ### emit -/

@[simp] theorem emit_engine (e : Event W) (s : State W) : (emit e s).engine = s.engine := rfl
@[simp] theorem emit_cur (e : Event W) (s : State W) : (emit e s).cur = s.cur := rfl
@[simp] theorem emit_active (e : Event W) (s : State W) : (emit e s).active = s.active := rfl
@[simp] theorem emit_q (e : Event W) (s : State W) : (emit e s).q = s.q := rfl
@[simp] theorem emit_dir (e : Event W) (s : State W) : (emit e s).dir = s.dir := rfl
@[simp] theorem emit_lvl (e : Event W) (s : State W) : (emit e s).lvl = s.lvl := rfl
@[simp] theorem emit_txr (e : Event W) (s : State W) : (emit e s).txr = s.txr := rfl
@[simp] theorem emit_rxr (e : Event W) (s : State W) : (emit e s).rxr = s.rxr := rfl
@[simp] theorem emit_xip (e : Event W) (s : State W) : (emit e s).xip = s.xip := rfl
@[simp] theorem emit_ifrIF (e : Event W) (s : State W) : (emit e s).ifrIF = s.ifrIF := rfl
@[simp] theorem emit_ctrlIE (e : Event W) (s : State W) : (emit e s).ctrlIE = s.ctrlIE := rfl
@[simp] theorem emit_ctrlMSTR (e : Event W) (s : State W) : (emit e s).ctrlMSTR = s.ctrlMSTR := rfl
@[simp] theorem emit_cfg (e : Event W) (s : State W) : (emit e s).cfg = s.cfg := rfl
@[simp] theorem emit_mem (e : Event W) (s : State W) : (emit e s).mem = s.mem := rfl
@[simp] theorem emit_trace (e : Event W) (s : State W) : (emit e s).trace = s.trace ++ [e] := rfl
@[simp] theorem emit_script (e : Event W) (s : State W) : (emit e s).script = s.script := rfl

/-! ### memWrite -/

@[simp] theorem memWrite_engine (a : Addr W) (v : Byte) (s : State W) : (memWrite a v s).engine = s.engine := rfl
@[simp] theorem memWrite_cur (a : Addr W) (v : Byte) (s : State W) : (memWrite a v s).cur = s.cur := rfl
@[simp] theorem memWrite_active (a : Addr W) (v : Byte) (s : State W) : (memWrite a v s).active = s.active := rfl
@[simp] theorem memWrite_q (a : Addr W) (v : Byte) (s : State W) : (memWrite a v s).q = s.q := rfl
@[simp] theorem memWrite_dir (a : Addr W) (v : Byte) (s : State W) : (memWrite a v s).dir = s.dir := rfl
@[simp] theorem memWrite_lvl (a : Addr W) (v : Byte) (s : State W) : (memWrite a v s).lvl = s.lvl := rfl
@[simp] theorem memWrite_txr (a : Addr W) (v : Byte) (s : State W) : (memWrite a v s).txr = s.txr := rfl
@[simp] theorem memWrite_rxr (a : Addr W) (v : Byte) (s : State W) : (memWrite a v s).rxr = s.rxr := rfl
@[simp] theorem memWrite_xip (a : Addr W) (v : Byte) (s : State W) : (memWrite a v s).xip = s.xip := rfl
@[simp] theorem memWrite_ifrIF (a : Addr W) (v : Byte) (s : State W) : (memWrite a v s).ifrIF = s.ifrIF := rfl
@[simp] theorem memWrite_ctrlIE (a : Addr W) (v : Byte) (s : State W) : (memWrite a v s).ctrlIE = s.ctrlIE := rfl
@[simp] theorem memWrite_ctrlMSTR (a : Addr W) (v : Byte) (s : State W) : (memWrite a v s).ctrlMSTR = s.ctrlMSTR := rfl
@[simp] theorem memWrite_cfg (a : Addr W) (v : Byte) (s : State W) : (memWrite a v s).cfg = s.cfg := rfl
@[simp] theorem memWrite_mem (a : Addr W) (v : Byte) (s : State W) :
    (memWrite a v s).mem = Memory.put a.toNat v s.mem := rfl
@[simp] theorem memWrite_trace (a : Addr W) (v : Byte) (s : State W) :
    (memWrite a v s).trace = s.trace ++ [.memWr a v] := rfl
@[simp] theorem memWrite_script (a : Addr W) (v : Byte) (s : State W) : (memWrite a v s).script = s.script := rfl

/-! ### setCur -/

@[simp] theorem setCur_engine (c : Desc W) (s : State W) : (setCur c s).engine = s.engine := rfl
@[simp] theorem setCur_cur (c : Desc W) (s : State W) : (setCur c s).cur = some c := rfl
@[simp] theorem setCur_active (c : Desc W) (s : State W) : (setCur c s).active = s.active := rfl
@[simp] theorem setCur_q (c : Desc W) (s : State W) : (setCur c s).q = s.q := rfl
@[simp] theorem setCur_dir (c : Desc W) (s : State W) : (setCur c s).dir = s.dir := rfl
@[simp] theorem setCur_lvl (c : Desc W) (s : State W) : (setCur c s).lvl = s.lvl := rfl
@[simp] theorem setCur_txr (c : Desc W) (s : State W) : (setCur c s).txr = s.txr := rfl
@[simp] theorem setCur_rxr (c : Desc W) (s : State W) : (setCur c s).rxr = s.rxr := rfl
@[simp] theorem setCur_xip (c : Desc W) (s : State W) : (setCur c s).xip = s.xip := rfl
@[simp] theorem setCur_ifrIF (c : Desc W) (s : State W) : (setCur c s).ifrIF = s.ifrIF := rfl
@[simp] theorem setCur_ctrlIE (c : Desc W) (s : State W) : (setCur c s).ctrlIE = s.ctrlIE := rfl
@[simp] theorem setCur_ctrlMSTR (c : Desc W) (s : State W) : (setCur c s).ctrlMSTR = s.ctrlMSTR := rfl
@[simp] theorem setCur_cfg (c : Desc W) (s : State W) : (setCur c s).cfg = s.cfg := rfl
@[simp] theorem setCur_mem (c : Desc W) (s : State W) : (setCur c s).mem = s.mem := rfl
@[simp] theorem setCur_trace (c : Desc W) (s : State W) : (setCur c s).trace = s.trace := rfl
@[simp] theorem setCur_script (c : Desc W) (s : State W) : (setCur c s).script = s.script := rfl

/-! ### clearCur -/

@[simp] theorem clearCur_engine (s : State W) : (clearCur s).engine = s.engine := rfl
@[simp] theorem clearCur_cur (s : State W) : (clearCur s).cur = none := rfl
@[simp] theorem clearCur_active (s : State W) : (clearCur s).active = s.active := rfl
@[simp] theorem clearCur_q (s : State W) : (clearCur s).q = s.q := rfl
@[simp] theorem clearCur_dir (s : State W) : (clearCur s).dir = s.dir := rfl
@[simp] theorem clearCur_lvl (s : State W) : (clearCur s).lvl = s.lvl := rfl
@[simp] theorem clearCur_txr (s : State W) : (clearCur s).txr = s.txr := rfl
@[simp] theorem clearCur_rxr (s : State W) : (clearCur s).rxr = s.rxr := rfl
@[simp] theorem clearCur_xip (s : State W) : (clearCur s).xip = s.xip := rfl
@[simp] theorem clearCur_ifrIF (s : State W) : (clearCur s).ifrIF = s.ifrIF := rfl
@[simp] theorem clearCur_ctrlIE (s : State W) : (clearCur s).ctrlIE = s.ctrlIE := rfl
@[simp] theorem clearCur_ctrlMSTR (s : State W) : (clearCur s).ctrlMSTR = s.ctrlMSTR := rfl
@[simp] theorem clearCur_cfg (s : State W) : (clearCur s).cfg = s.cfg := rfl
@[simp] theorem clearCur_mem (s : State W) : (clearCur s).mem = s.mem := rfl
@[simp] theorem clearCur_trace (s : State W) : (clearCur s).trace = s.trace := rfl
@[simp] theorem clearCur_script (s : State W) : (clearCur s).script = s.script := rfl

/-! ### setEngine -/

@[simp] theorem setEngine_engine (v : EngineState) (s : State W) : (setEngine v s).engine = v := rfl
@[simp] theorem setEngine_cur (v : EngineState) (s : State W) : (setEngine v s).cur = s.cur := rfl
@[simp] theorem setEngine_active (v : EngineState) (s : State W) : (setEngine v s).active = s.active := rfl
@[simp] theorem setEngine_q (v : EngineState) (s : State W) : (setEngine v s).q = s.q := rfl
@[simp] theorem setEngine_dir (v : EngineState) (s : State W) : (setEngine v s).dir = s.dir := rfl
@[simp] theorem setEngine_lvl (v : EngineState) (s : State W) : (setEngine v s).lvl = s.lvl := rfl
@[simp] theorem setEngine_txr (v : EngineState) (s : State W) : (setEngine v s).txr = s.txr := rfl
@[simp] theorem setEngine_rxr (v : EngineState) (s : State W) : (setEngine v s).rxr = s.rxr := rfl
@[simp] theorem setEngine_xip (v : EngineState) (s : State W) : (setEngine v s).xip = s.xip := rfl
@[simp] theorem setEngine_ifrIF (v : EngineState) (s : State W) : (setEngine v s).ifrIF = s.ifrIF := rfl
@[simp] theorem setEngine_ctrlIE (v : EngineState) (s : State W) : (setEngine v s).ctrlIE = s.ctrlIE := rfl
@[simp] theorem setEngine_ctrlMSTR (v : EngineState) (s : State W) : (setEngine v s).ctrlMSTR = s.ctrlMSTR := rfl
@[simp] theorem setEngine_cfg (v : EngineState) (s : State W) : (setEngine v s).cfg = s.cfg := rfl
@[simp] theorem setEngine_mem (v : EngineState) (s : State W) : (setEngine v s).mem = s.mem := rfl
@[simp] theorem setEngine_trace (v : EngineState) (s : State W) : (setEngine v s).trace = s.trace := rfl
@[simp] theorem setEngine_script (v : EngineState) (s : State W) : (setEngine v s).script = s.script := rfl

/-! ### configureOutput -/

@[simp] theorem configureOutput_engine (p : Pin W) (s : State W) : (configureOutput p s).engine = s.engine := rfl
@[simp] theorem configureOutput_cur (p : Pin W) (s : State W) : (configureOutput p s).cur = s.cur := rfl
@[simp] theorem configureOutput_active (p : Pin W) (s : State W) : (configureOutput p s).active = s.active := rfl
@[simp] theorem configureOutput_q (p : Pin W) (s : State W) : (configureOutput p s).q = s.q := rfl
@[simp] theorem configureOutput_dir (p : Pin W) (s : State W) : (configureOutput p s).dir = setPin s.dir p true := rfl
@[simp] theorem configureOutput_lvl (p : Pin W) (s : State W) : (configureOutput p s).lvl = s.lvl := rfl
@[simp] theorem configureOutput_txr (p : Pin W) (s : State W) : (configureOutput p s).txr = s.txr := rfl
@[simp] theorem configureOutput_rxr (p : Pin W) (s : State W) : (configureOutput p s).rxr = s.rxr := rfl
@[simp] theorem configureOutput_xip (p : Pin W) (s : State W) : (configureOutput p s).xip = s.xip := rfl
@[simp] theorem configureOutput_ifrIF (p : Pin W) (s : State W) : (configureOutput p s).ifrIF = s.ifrIF := rfl
@[simp] theorem configureOutput_ctrlIE (p : Pin W) (s : State W) : (configureOutput p s).ctrlIE = s.ctrlIE := rfl
@[simp] theorem configureOutput_ctrlMSTR (p : Pin W) (s : State W) : (configureOutput p s).ctrlMSTR = s.ctrlMSTR := rfl
@[simp] theorem configureOutput_cfg (p : Pin W) (s : State W) : (configureOutput p s).cfg = s.cfg := rfl
@[simp] theorem configureOutput_mem (p : Pin W) (s : State W) : (configureOutput p s).mem = s.mem := rfl
@[simp] theorem configureOutput_trace (p : Pin W) (s : State W) :
    (configureOutput p s).trace = s.trace ++ [.dirOut p] := rfl
@[simp] theorem configureOutput_script (p : Pin W) (s : State W) : (configureOutput p s).script = s.script := rfl

/-! ### setMaster -/

@[simp] theorem setMaster_engine (s : State W) : (setMaster s).engine = s.engine := rfl
@[simp] theorem setMaster_cur (s : State W) : (setMaster s).cur = s.cur := rfl
@[simp] theorem setMaster_active (s : State W) : (setMaster s).active = s.active := rfl
@[simp] theorem setMaster_q (s : State W) : (setMaster s).q = s.q := rfl
@[simp] theorem setMaster_dir (s : State W) : (setMaster s).dir = s.dir := rfl
@[simp] theorem setMaster_lvl (s : State W) : (setMaster s).lvl = s.lvl := rfl
@[simp] theorem setMaster_txr (s : State W) : (setMaster s).txr = s.txr := rfl
@[simp] theorem setMaster_rxr (s : State W) : (setMaster s).rxr = s.rxr := rfl
@[simp] theorem setMaster_xip (s : State W) : (setMaster s).xip = s.xip := rfl
@[simp] theorem setMaster_ifrIF (s : State W) : (setMaster s).ifrIF = s.ifrIF := rfl
@[simp] theorem setMaster_ctrlIE (s : State W) : (setMaster s).ctrlIE = s.ctrlIE := rfl
@[simp] theorem setMaster_ctrlMSTR (s : State W) : (setMaster s).ctrlMSTR = true := rfl
@[simp] theorem setMaster_cfg (s : State W) : (setMaster s).cfg = s.cfg := rfl
@[simp] theorem setMaster_mem (s : State W) : (setMaster s).mem = s.mem := rfl
@[simp] theorem setMaster_trace (s : State W) : (setMaster s).trace = s.trace ++ [.setMaster] := rfl
@[simp] theorem setMaster_script (s : State W) : (setMaster s).script = s.script := rfl

/-! ### assertLine -/

@[simp] theorem assertLine_engine (P : Params W) (d : Device W) (s : State W) :
    (assertLine P d s).engine = s.engine := rfl
@[simp] theorem assertLine_cur (P : Params W) (d : Device W) (s : State W) : (assertLine P d s).cur = s.cur := rfl
@[simp] theorem assertLine_active (P : Params W) (d : Device W) (s : State W) :
    (assertLine P d s).active = s.active := rfl
@[simp] theorem assertLine_q (P : Params W) (d : Device W) (s : State W) : (assertLine P d s).q = s.q := rfl
@[simp] theorem assertLine_dir (P : Params W) (d : Device W) (s : State W) : (assertLine P d s).dir = s.dir := rfl
@[simp] theorem assertLine_lvl (P : Params W) (d : Device W) (s : State W) :
    (assertLine P d s).lvl = setPin s.lvl d.lbit P.selActive := rfl
@[simp] theorem assertLine_txr (P : Params W) (d : Device W) (s : State W) : (assertLine P d s).txr = s.txr := rfl
@[simp] theorem assertLine_rxr (P : Params W) (d : Device W) (s : State W) : (assertLine P d s).rxr = s.rxr := rfl
@[simp] theorem assertLine_xip (P : Params W) (d : Device W) (s : State W) : (assertLine P d s).xip = s.xip := rfl
@[simp] theorem assertLine_ifrIF (P : Params W) (d : Device W) (s : State W) : (assertLine P d s).ifrIF = s.ifrIF := rfl
@[simp] theorem assertLine_ctrlIE (P : Params W) (d : Device W) (s : State W) :
    (assertLine P d s).ctrlIE = s.ctrlIE := rfl
@[simp] theorem assertLine_ctrlMSTR (P : Params W) (d : Device W) (s : State W) :
    (assertLine P d s).ctrlMSTR = s.ctrlMSTR := rfl
@[simp] theorem assertLine_cfg (P : Params W) (d : Device W) (s : State W) : (assertLine P d s).cfg = s.cfg := rfl
@[simp] theorem assertLine_mem (P : Params W) (d : Device W) (s : State W) : (assertLine P d s).mem = s.mem := rfl
@[simp] theorem assertLine_trace (P : Params W) (d : Device W) (s : State W) :
    (assertLine P d s).trace = s.trace ++ [.selAssert d.lbit] := rfl
@[simp] theorem assertLine_script (P : Params W) (d : Device W) (s : State W) :
    (assertLine P d s).script = s.script := rfl

/-! ### deassertLine -/

@[simp] theorem deassertLine_engine (P : Params W) (d : Device W) (s : State W) :
    (deassertLine P d s).engine = s.engine := rfl
@[simp] theorem deassertLine_cur (P : Params W) (d : Device W) (s : State W) : (deassertLine P d s).cur = s.cur := rfl
@[simp] theorem deassertLine_active (P : Params W) (d : Device W) (s : State W) :
    (deassertLine P d s).active = s.active := rfl
@[simp] theorem deassertLine_q (P : Params W) (d : Device W) (s : State W) : (deassertLine P d s).q = s.q := rfl
@[simp] theorem deassertLine_dir (P : Params W) (d : Device W) (s : State W) : (deassertLine P d s).dir = s.dir := rfl
@[simp] theorem deassertLine_lvl (P : Params W) (d : Device W) (s : State W) :
    (deassertLine P d s).lvl = setPin s.lvl d.lbit (!P.selActive) := rfl
@[simp] theorem deassertLine_txr (P : Params W) (d : Device W) (s : State W) : (deassertLine P d s).txr = s.txr := rfl
@[simp] theorem deassertLine_rxr (P : Params W) (d : Device W) (s : State W) : (deassertLine P d s).rxr = s.rxr := rfl
@[simp] theorem deassertLine_xip (P : Params W) (d : Device W) (s : State W) : (deassertLine P d s).xip = s.xip := rfl
@[simp] theorem deassertLine_ifrIF (P : Params W) (d : Device W) (s : State W) :
    (deassertLine P d s).ifrIF = s.ifrIF := rfl
@[simp] theorem deassertLine_ctrlIE (P : Params W) (d : Device W) (s : State W) :
    (deassertLine P d s).ctrlIE = s.ctrlIE := rfl
@[simp] theorem deassertLine_ctrlMSTR (P : Params W) (d : Device W) (s : State W) :
    (deassertLine P d s).ctrlMSTR = s.ctrlMSTR := rfl
@[simp] theorem deassertLine_cfg (P : Params W) (d : Device W) (s : State W) : (deassertLine P d s).cfg = s.cfg := rfl
@[simp] theorem deassertLine_mem (P : Params W) (d : Device W) (s : State W) : (deassertLine P d s).mem = s.mem := rfl
@[simp] theorem deassertLine_trace (P : Params W) (d : Device W) (s : State W) :
    (deassertLine P d s).trace = s.trace ++ [.selDeassert d.lbit] := rfl
@[simp] theorem deassertLine_script (P : Params W) (d : Device W) (s : State W) :
    (deassertLine P d s).script = s.script := rfl

/-! ### completeExchange -/

@[simp] theorem completeExchange_engine (rx : Byte) (s : State W) : (completeExchange rx s).engine = s.engine := rfl
@[simp] theorem completeExchange_cur (rx : Byte) (s : State W) : (completeExchange rx s).cur = s.cur := rfl
@[simp] theorem completeExchange_active (rx : Byte) (s : State W) : (completeExchange rx s).active = s.active := rfl
@[simp] theorem completeExchange_q (rx : Byte) (s : State W) : (completeExchange rx s).q = s.q := rfl
@[simp] theorem completeExchange_dir (rx : Byte) (s : State W) : (completeExchange rx s).dir = s.dir := rfl
@[simp] theorem completeExchange_lvl (rx : Byte) (s : State W) : (completeExchange rx s).lvl = s.lvl := rfl
@[simp] theorem completeExchange_txr (rx : Byte) (s : State W) : (completeExchange rx s).txr = s.txr := rfl
@[simp] theorem completeExchange_rxr (rx : Byte) (s : State W) : (completeExchange rx s).rxr = rx := rfl
@[simp] theorem completeExchange_xip (rx : Byte) (s : State W) : (completeExchange rx s).xip = false := rfl
@[simp] theorem completeExchange_ifrIF (rx : Byte) (s : State W) : (completeExchange rx s).ifrIF = true := rfl
@[simp] theorem completeExchange_ctrlIE (rx : Byte) (s : State W) : (completeExchange rx s).ctrlIE = s.ctrlIE := rfl
@[simp] theorem completeExchange_ctrlMSTR (rx : Byte) (s : State W) : (completeExchange rx s).ctrlMSTR = s.ctrlMSTR := rfl
@[simp] theorem completeExchange_cfg (rx : Byte) (s : State W) : (completeExchange rx s).cfg = s.cfg := rfl
@[simp] theorem completeExchange_mem (rx : Byte) (s : State W) : (completeExchange rx s).mem = s.mem := rfl
@[simp] theorem completeExchange_trace (rx : Byte) (s : State W) : (completeExchange rx s).trace = s.trace := rfl
@[simp] theorem completeExchange_script (rx : Byte) (s : State W) : (completeExchange rx s).script = s.script := rfl

/-! ### enterHandler -/

@[simp] theorem enterHandler_engine (s : State W) : (enterHandler s).2.engine = s.engine := rfl
@[simp] theorem enterHandler_cur (s : State W) : (enterHandler s).2.cur = s.cur := rfl
@[simp] theorem enterHandler_active (s : State W) : (enterHandler s).2.active = s.active := rfl
@[simp] theorem enterHandler_q (s : State W) : (enterHandler s).2.q = s.q := rfl
@[simp] theorem enterHandler_dir (s : State W) : (enterHandler s).2.dir = s.dir := rfl
@[simp] theorem enterHandler_lvl (s : State W) : (enterHandler s).2.lvl = s.lvl := rfl
@[simp] theorem enterHandler_txr (s : State W) : (enterHandler s).2.txr = s.txr := rfl
@[simp] theorem enterHandler_rxr (s : State W) : (enterHandler s).2.rxr = s.rxr := rfl
@[simp] theorem enterHandler_xip (s : State W) : (enterHandler s).2.xip = s.xip := rfl
@[simp] theorem enterHandler_ifrIF (s : State W) : (enterHandler s).2.ifrIF = false := rfl
@[simp] theorem enterHandler_ctrlIE (s : State W) : (enterHandler s).2.ctrlIE = s.ctrlIE := rfl
@[simp] theorem enterHandler_ctrlMSTR (s : State W) : (enterHandler s).2.ctrlMSTR = s.ctrlMSTR := rfl
@[simp] theorem enterHandler_cfg (s : State W) : (enterHandler s).2.cfg = s.cfg := rfl
@[simp] theorem enterHandler_mem (s : State W) : (enterHandler s).2.mem = s.mem := rfl
@[simp] theorem enterHandler_trace (s : State W) : (enterHandler s).2.trace = s.trace := rfl
@[simp] theorem enterHandler_script (s : State W) : (enterHandler s).2.script = s.script := rfl

/-! ### release -/

@[simp] theorem release_engine (d : Desc W) (s : State W) : (release d s).engine = s.engine := rfl
@[simp] theorem release_cur (d : Desc W) (s : State W) : (release d s).cur = s.cur := rfl
@[simp] theorem release_active (d : Desc W) (s : State W) : (release d s).active = s.active := rfl
@[simp] theorem release_q (d : Desc W) (s : State W) : (release d s).q = s.q := rfl
@[simp] theorem release_dir (d : Desc W) (s : State W) : (release d s).dir = s.dir := rfl
@[simp] theorem release_lvl (d : Desc W) (s : State W) : (release d s).lvl = s.lvl := rfl
@[simp] theorem release_txr (d : Desc W) (s : State W) : (release d s).txr = s.txr := rfl
@[simp] theorem release_rxr (d : Desc W) (s : State W) : (release d s).rxr = s.rxr := rfl
@[simp] theorem release_xip (d : Desc W) (s : State W) : (release d s).xip = s.xip := rfl
@[simp] theorem release_ifrIF (d : Desc W) (s : State W) : (release d s).ifrIF = s.ifrIF := rfl
@[simp] theorem release_ctrlIE (d : Desc W) (s : State W) : (release d s).ctrlIE = s.ctrlIE := rfl
@[simp] theorem release_ctrlMSTR (d : Desc W) (s : State W) : (release d s).ctrlMSTR = s.ctrlMSTR := rfl
@[simp] theorem release_cfg (d : Desc W) (s : State W) : (release d s).cfg = s.cfg := rfl
@[simp] theorem release_mem (d : Desc W) (s : State W) : (release d s).mem = s.mem := rfl
@[simp] theorem release_trace (d : Desc W) (s : State W) : (release d s).trace = s.trace ++ [.release d] := rfl
@[simp] theorem release_script (d : Desc W) (s : State W) : (release d s).script = s.script := rfl

/-! ### endWith -/

@[simp] theorem endWith_engine (c : ResultCode) (s : State W) : (endWith c s).engine = s.engine := rfl
@[simp] theorem endWith_cur (c : ResultCode) (s : State W) : (endWith c s).cur = s.cur := rfl
@[simp] theorem endWith_active (c : ResultCode) (s : State W) : (endWith c s).active = s.active := rfl
@[simp] theorem endWith_q (c : ResultCode) (s : State W) : (endWith c s).q = s.q := rfl
@[simp] theorem endWith_dir (c : ResultCode) (s : State W) : (endWith c s).dir = s.dir := rfl
@[simp] theorem endWith_lvl (c : ResultCode) (s : State W) : (endWith c s).lvl = s.lvl := rfl
@[simp] theorem endWith_txr (c : ResultCode) (s : State W) : (endWith c s).txr = s.txr := rfl
@[simp] theorem endWith_rxr (c : ResultCode) (s : State W) : (endWith c s).rxr = s.rxr := rfl
@[simp] theorem endWith_xip (c : ResultCode) (s : State W) : (endWith c s).xip = s.xip := rfl
@[simp] theorem endWith_ifrIF (c : ResultCode) (s : State W) : (endWith c s).ifrIF = s.ifrIF := rfl
@[simp] theorem endWith_ctrlIE (c : ResultCode) (s : State W) : (endWith c s).ctrlIE = s.ctrlIE := rfl
@[simp] theorem endWith_ctrlMSTR (c : ResultCode) (s : State W) : (endWith c s).ctrlMSTR = s.ctrlMSTR := rfl
@[simp] theorem endWith_cfg (c : ResultCode) (s : State W) : (endWith c s).cfg = s.cfg := rfl
@[simp] theorem endWith_mem (c : ResultCode) (s : State W) : (endWith c s).mem = s.mem := rfl
@[simp] theorem endWith_trace (c : ResultCode) (s : State W) : (endWith c s).trace = s.trace ++ [.result c none] := rfl
@[simp] theorem endWith_script (c : ResultCode) (s : State W) : (endWith c s).script = s.script := rfl

/-! ### hostStore -/

@[simp] theorem hostStore_engine (a : Addr W) (v : Byte) (s : State W) : (s.hostStore a v).engine = s.engine := rfl
@[simp] theorem hostStore_cur (a : Addr W) (v : Byte) (s : State W) : (s.hostStore a v).cur = s.cur := rfl
@[simp] theorem hostStore_active (a : Addr W) (v : Byte) (s : State W) : (s.hostStore a v).active = s.active := rfl
@[simp] theorem hostStore_q (a : Addr W) (v : Byte) (s : State W) : (s.hostStore a v).q = s.q := rfl
@[simp] theorem hostStore_dir (a : Addr W) (v : Byte) (s : State W) : (s.hostStore a v).dir = s.dir := rfl
@[simp] theorem hostStore_lvl (a : Addr W) (v : Byte) (s : State W) : (s.hostStore a v).lvl = s.lvl := rfl
@[simp] theorem hostStore_txr (a : Addr W) (v : Byte) (s : State W) : (s.hostStore a v).txr = s.txr := rfl
@[simp] theorem hostStore_rxr (a : Addr W) (v : Byte) (s : State W) : (s.hostStore a v).rxr = s.rxr := rfl
@[simp] theorem hostStore_xip (a : Addr W) (v : Byte) (s : State W) : (s.hostStore a v).xip = s.xip := rfl
@[simp] theorem hostStore_ifrIF (a : Addr W) (v : Byte) (s : State W) : (s.hostStore a v).ifrIF = s.ifrIF := rfl
@[simp] theorem hostStore_ctrlIE (a : Addr W) (v : Byte) (s : State W) : (s.hostStore a v).ctrlIE = s.ctrlIE := rfl
@[simp] theorem hostStore_ctrlMSTR (a : Addr W) (v : Byte) (s : State W) : (s.hostStore a v).ctrlMSTR = s.ctrlMSTR := rfl
@[simp] theorem hostStore_cfg (a : Addr W) (v : Byte) (s : State W) : (s.hostStore a v).cfg = s.cfg := rfl
@[simp] theorem hostStore_mem (a : Addr W) (v : Byte) (s : State W) :
    (s.hostStore a v).mem = Memory.put a.toNat v s.mem := rfl
@[simp] theorem hostStore_trace (a : Addr W) (v : Byte) (s : State W) : (s.hostStore a v).trace = s.trace := rfl
@[simp] theorem hostStore_script (a : Addr W) (v : Byte) (s : State W) : (s.hostStore a v).script = s.script := rfl

/-! ### feed -/

@[simp] theorem feed_engine (bytes : List Byte) (s : State W) : (s.feed bytes).engine = s.engine := rfl
@[simp] theorem feed_cur (bytes : List Byte) (s : State W) : (s.feed bytes).cur = s.cur := rfl
@[simp] theorem feed_active (bytes : List Byte) (s : State W) : (s.feed bytes).active = s.active := rfl
@[simp] theorem feed_q (bytes : List Byte) (s : State W) : (s.feed bytes).q = s.q := rfl
@[simp] theorem feed_dir (bytes : List Byte) (s : State W) : (s.feed bytes).dir = s.dir := rfl
@[simp] theorem feed_lvl (bytes : List Byte) (s : State W) : (s.feed bytes).lvl = s.lvl := rfl
@[simp] theorem feed_txr (bytes : List Byte) (s : State W) : (s.feed bytes).txr = s.txr := rfl
@[simp] theorem feed_rxr (bytes : List Byte) (s : State W) : (s.feed bytes).rxr = s.rxr := rfl
@[simp] theorem feed_xip (bytes : List Byte) (s : State W) : (s.feed bytes).xip = s.xip := rfl
@[simp] theorem feed_ifrIF (bytes : List Byte) (s : State W) : (s.feed bytes).ifrIF = s.ifrIF := rfl
@[simp] theorem feed_ctrlIE (bytes : List Byte) (s : State W) : (s.feed bytes).ctrlIE = s.ctrlIE := rfl
@[simp] theorem feed_ctrlMSTR (bytes : List Byte) (s : State W) : (s.feed bytes).ctrlMSTR = s.ctrlMSTR := rfl
@[simp] theorem feed_cfg (bytes : List Byte) (s : State W) : (s.feed bytes).cfg = s.cfg := rfl
@[simp] theorem feed_mem (bytes : List Byte) (s : State W) : (s.feed bytes).mem = s.mem := rfl
@[simp] theorem feed_trace (bytes : List Byte) (s : State W) : (s.feed bytes).trace = s.trace := rfl
@[simp] theorem feed_script (bytes : List Byte) (s : State W) : (s.feed bytes).script = s.script ++ bytes := rfl

@[simp] theorem enterHandler_rx (s : State W) : (enterHandler s).1 = s.rxr := rfl

@[simp] theorem leaveHandler_eq (s : State W) : leaveHandler s = s := rfl

end Sys2Proof.Machine
end

