-- ==== Sys2Proof/Laws/Selector.lean ====
section
/-!
SUPPORT. What the selector does to the pins, in terms of what holds also inside a step: `Mid`, the part of the invariant
that does not speak of the engine state, and `Told`, that the events of a run of pseudocode lines say what it did.
-/

namespace Sys2Proof.Machine

variable {W : Widths}

/-- The part of the invariant that holds at every point inside a step. -/
structure Mid (P : Params W) (s : State W) : Prop where
  queue_valid : ∀ d ∈ s.q, deviceOk P d.device
  active_valid : deviceOk P s.active
  active_output : ∀ a ∈ s.active, pinBit s.dir a.dbit = true
  only_active_line : ∀ p : Pin W, pinBit s.lvl p = P.selActive → s.active.map Device.lbit = some p
  mem_wf : Memory.wf W s.mem

theorem Inv.mid {P : Params W} {s : State W} (h : Inv P s) : Mid P s :=
  ⟨h.queue_valid, h.active_valid, h.active_output, h.only_active_line, h.mem_wf⟩

theorem Mid.oneLine {P : Params W} {s : State W} (h : Mid P s) : oneLine P s.lvl := fun p q hp hq =>
  Option.some.inj ((h.only_active_line p hp).symm.trans (h.only_active_line q hq))

/-- `Mid` depends on five fields. -/
theorem Mid.congr {P : Params W} {s t : State W} (h : Mid P s) (hq : t.q = s.q) (ha : t.active = s.active)
    (hd : t.dir = s.dir) (hl : t.lvl = s.lvl) (hm : t.mem = s.mem) : Mid P t :=
  ⟨by rw [hq]; exact h.queue_valid, by rw [ha]; exact h.active_valid, by rw [ha, hd]; exact h.active_output,
    by rw [ha, hl]; exact h.only_active_line, by rw [hm]; exact h.mem_wf⟩

/-- The pin an event names is no pin of the bus (R12, R90). -/
def pinFree (P : Params W) : Event W → Prop
  | .dirOut p => ¬ P.reserved p
  | .selAssert p => ¬ P.reserved p
  | .selDeassert p => ¬ P.reserved p
  | _ => True

/-- No event clears a direction bit (R18). -/
theorem directionsAfter_keeps {evs : List (Event W)} {v : PinBits W} {p : Pin W} (h : pinBit v p = true) :
    pinBit (directionsAfter evs v) p = true := by
  induction evs generalizing v with
  | nil => exact h
  | cons e es ih =>
    cases e <;> simp only [directionsAfter] <;> first | exact ih h | skip
    apply ih; rw [pinBit_setPin]; split <;> simp [h]

/-- Events that name no pin of the bus leave its direction bits. -/
theorem directionsAfter_bus {P : Params W} {evs : List (Event W)} {v : PinBits W} {p : Pin W} (hp : P.reserved p)
    (h : ∀ e ∈ evs, pinFree P e) : pinBit (directionsAfter evs v) p = pinBit v p := by
  induction evs generalizing v with
  | nil => rfl
  | cons e es ih =>
    have hes := fun e he => h e (List.mem_cons_of_mem _ he)
    have h0 := h e (by simp)
    cases e <;> simp only [directionsAfter] <;> rw [ih hes]
    rw [pinBit_setPin_other]; rintro rfl; exact h0 hp

/-- Events that name no pin of the bus leave its level bits. -/
theorem levelsAfter_bus {P : Params W} {evs : List (Event W)} {v : PinBits W} {p : Pin W} (hp : P.reserved p)
    (h : ∀ e ∈ evs, pinFree P e) : pinBit (levelsAfter P evs v) p = pinBit v p := by
  induction evs generalizing v with
  | nil => rfl
  | cons e es ih =>
    have hes := fun e he => h e (List.mem_cons_of_mem _ he)
    have h0 := h e (by simp)
    cases e <;> simp only [levelsAfter] <;> rw [ih hes] <;>
    · rw [pinBit_setPin_other]; rintro rfl; exact h0 hp

/-- From `s` to `t` the events `evs` were emitted, and they say what happened to the pins and the memory, with at most one
select line asserted at every point and no pin of the bus touched. -/
structure Told (P : Params W) (s t : State W) (evs : List (Event W)) : Prop where
  trace : t.trace = s.trace ++ evs
  levels : levelsAfter P evs s.lvl = t.lvl
  directions : directionsAfter evs s.dir = t.dir
  memory : memoryAfter evs s.mem = t.mem
  lines : oneLineThroughout P evs s.lvl
  noResult : resultsOf evs = []
  pins : ∀ e ∈ evs, pinFree P e

theorem Told.trans {P : Params W} {s t u : State W} {a b : List (Event W)} (h : Told P s t a) (k : Told P t u b) :
    Told P s u (a ++ b) :=
  ⟨by rw [k.trace, h.trace, List.append_assoc], by rw [levelsAfter_append, h.levels, k.levels],
    by rw [directionsAfter_append, h.directions, k.directions], by rw [memoryAfter_append, h.memory, k.memory],
    oneLineThroughout_append h.lines (by rw [h.levels]; exact k.lines), by simp [h.noResult, k.noResult],
    fun e he => (List.mem_append.1 he).elim (h.pins e) (k.pins e)⟩

/-- Where trace, pins and memory are as before, nothing was emitted. -/
theorem Told.silent {P : Params W} {s t : State W} (h : oneLine P s.lvl) (ht : t.trace = s.trace) (hl : t.lvl = s.lvl)
    (hd : t.dir = s.dir) (hm : t.mem = s.mem) : Told P s t [] :=
  ⟨by simp [ht], hl.symm, hd.symm, hm.symm, h, rfl, by simp⟩

/-- Events after which trace, pins and memory change no further. -/
theorem Told.congr {P : Params W} {s t u : State W} {evs : List (Event W)} (h : Told P s t evs) (ht : u.trace = t.trace)
    (hl : u.lvl = t.lvl) (hd : u.dir = t.dir) (hm : u.mem = t.mem) : Told P s u evs :=
  ⟨by rw [ht, h.trace], by rw [hl, h.levels], by rw [hd, h.directions], by rw [hm, h.memory], h.lines, h.noResult, h.pins⟩

theorem told_release {P : Params W} {s : State W} (h : oneLine P s.lvl) (d : Desc W) :
    Told P s (release d s) [.release d] :=
  ⟨rfl, rfl, rfl, rfl, ⟨h, h⟩, rfl, by simp [pinFree]⟩

theorem told_diag {P : Params W} {s : State W} (h : oneLine P s.lvl) (e : ResultCode) :
    Told P s (emit (.diag e) s) [.diag e] :=
  ⟨rfl, rfl, rfl, rfl, ⟨h, h⟩, rfl, by simp [pinFree]⟩

theorem told_callback {P : Params W} {s : State W} (h : oneLine P s.lvl) (t : Token W) :
    Told P s (emit (.callback t) s) [.callback t] :=
  ⟨rfl, rfl, rfl, rfl, ⟨h, h⟩, rfl, by simp [pinFree]⟩

theorem told_deassert {P : Params W} {s : State W} (h : oneLine P s.lvl) {dev : Device W} (hv : dev.valid P) :
    Told P s (deassertLine P dev s) [.selDeassert dev.lbit] :=
  ⟨rfl, rfl, rfl, rfl, ⟨h, oneLine_deassert h _⟩, rfl, by simpa [pinFree] using hv.2⟩

/-- Deasserting keeps `Mid`. -/
theorem Mid.deassert {P : Params W} {s : State W} (h : Mid P s) (dev : Device W) : Mid P (deassertLine P dev s) :=
  ⟨h.queue_valid, h.active_valid, h.active_output, fun p hp => by
    simp only [deassertLine_lvl, pinBit_setPin] at hp
    split at hp
    · simp at hp
    · exact h.only_active_line p hp, h.mem_wf⟩

/-- Deasserting the active device's line leaves every line inactive. -/
theorem Mid.deassert_active {P : Params W} {s : State W} (h : Mid P s) {a : Device W} (ha : s.active = some a) (p : Pin W) :
    pinBit (deassertLine P a s).lvl p ≠ P.selActive := by
  intro hp
  simp only [deassertLine_lvl, pinBit_setPin] at hp
  split at hp
  · simp at hp
  · rename_i hne
    have := h.only_active_line p hp
    simp [ha] at this
    exact hne this

/-- The active device's line is asserted exactly when its level bit is active: its pin is an output. -/
theorem Mid.asserted_iff {P : Params W} {s : State W} (h : Mid P s) {a : Device W} (ha : s.active = some a) :
    asserted P a s ↔ pinBit s.lvl a.lbit = P.selActive :=
  ⟨fun h' => h'.2, fun h' => ⟨h.active_output a ha, h'⟩⟩

/-- When the active device's line is not asserted, no line is at the active level. -/
theorem Mid.no_line {P : Params W} {s : State W} (h : Mid P s) (hn : ∀ a ∈ s.active, ¬ asserted P a s) (p : Pin W) :
    pinBit s.lvl p ≠ P.selActive := by
  intro hp
  have := h.only_active_line p hp
  obtain ⟨a, ha, rfl⟩ := Option.map_eq_some_iff.1 this
  exact hn a ha ((h.asserted_iff ha).2 hp)

theorem deviceOk_some {P : Params W} {dev : Device W} : deviceOk P (some dev) ↔ dev.valid P :=
  ⟨fun h => h dev rfl, fun h _ hd => Option.some.inj hd ▸ h⟩

theorem deviceOk_none {P : Params W} : deviceOk P none := fun _ h => nomatch h

/-! ### What the switch guard and `ACTIVATE` do, case by case -/

theorem switchGuard_first {P : Params W} {dev : Device W} {s : State W} (h : s.active = none) : switchGuard P dev s = s := by
  simp [switchGuard, h]

theorem switchGuard_same {P : Params W} {dev : Device W} {s : State W} (h : s.active = some dev) :
    switchGuard P dev s = s := by
  simp [switchGuard, h]

theorem switchGuard_held {P : Params W} {a dev : Device W} {s : State W} (h : s.active = some a) (hne : a ≠ dev)
    (hl : asserted P a s) : switchGuard P dev s = deassertLine P a s := by
  simp only [switchGuard, h]
  exact if_pos ⟨hne, hl⟩

theorem switchGuard_released {P : Params W} {a dev : Device W} {s : State W} (h : s.active = some a) (hl : ¬ asserted P a s) :
    switchGuard P dev s = s := by
  simp only [switchGuard, h]
  exact if_neg fun k => hl k.2

theorem activate_same {dev : Device W} {s : State W} (h : s.active = some dev) : activate dev s = s := if_pos h

theorem activate_other {dev : Device W} {s : State W} (h : s.active ≠ some dev) :
    activate dev s = setMaster (configureOutput dev.dbit { s with active := some dev }) := if_neg h

/-- The switch guard acts or it does not: nothing else happens to the state. -/
theorem switchGuard_cases (P : Params W) (dev : Device W) (s : State W) :
    switchGuard P dev s = s ∨
      ∃ a, s.active = some a ∧ a ≠ dev ∧ asserted P a s ∧ switchGuard P dev s = deassertLine P a s := by
  rcases h : s.active with _ | a
  · exact .inl (switchGuard_first h)
  · by_cases hne : a = dev
    · exact .inl (switchGuard_same (hne ▸ h))
    · by_cases hl : asserted P a s
      · exact .inr ⟨a, rfl, hne, hl, switchGuard_held h hne hl⟩
      · exact .inl (switchGuard_released h hl)

/-- What turning to a device leaves alone (R96, R93): nothing but `ACTIVE`, `DIR`, `LVL`, `CTRL.MSTR` and the trace
changes. -/
structure Turned (dev : Device W) (s t : State W) : Prop where
  engine : t.engine = s.engine
  cur : t.cur = s.cur
  q : t.q = s.q
  txr : t.txr = s.txr
  rxr : t.rxr = s.rxr
  xip : t.xip = s.xip
  ifrIF : t.ifrIF = s.ifrIF
  ctrlIE : t.ctrlIE = s.ctrlIE
  cfg : t.cfg = s.cfg
  mem : t.mem = s.mem
  script : t.script = s.script
  active : t.active = some dev

theorem turned (P : Params W) (dev : Device W) (s : State W) : Turned dev s (activate dev (switchGuard P dev s)) := by
  rcases switchGuard_cases P dev s with h | ⟨a, -, -, -, h⟩ <;> rw [h]
  · by_cases ha : s.active = some dev
    · rw [activate_same ha]; exact ⟨rfl, rfl, rfl, rfl, rfl, rfl, rfl, rfl, rfl, rfl, rfl, ha⟩
    · rw [activate_other ha]; constructor <;> rfl
  · by_cases ha : (deassertLine P a s).active = some dev
    · rw [activate_same ha]; exact ⟨rfl, rfl, rfl, rfl, rfl, rfl, rfl, rfl, rfl, rfl, rfl, ha⟩
    · rw [activate_other ha]; constructor <;> rfl

/-- The events of the switch guard (R96). -/
def guardEvents (P : Params W) (dev : Device W) (s : State W) : List (Event W) :=
  match s.active with
  | none => []
  | some a => if a ≠ dev ∧ asserted P a s then [.selDeassert a.lbit] else []

/-- The events of `ACTIVATE` (R93). -/
def activateEvents (dev : Device W) (s : State W) : List (Event W) :=
  if s.active = some dev then [] else [.dirOut dev.dbit, .setMaster]

theorem Mid.switchGuard {P : Params W} {dev : Device W} {s : State W} (h : Mid P s) :
    Mid P (switchGuard P dev s) ∧ Told P s (switchGuard P dev s) (guardEvents P dev s) := by
  rcases ha : s.active with _ | a
  · rw [switchGuard_first ha]
    simp only [guardEvents, ha]
    exact ⟨h, Told.silent h.oneLine rfl rfl rfl rfl⟩
  · by_cases hc : a ≠ dev ∧ asserted P a s
    · rw [switchGuard_held ha hc.1 hc.2]
      simp only [guardEvents, ha, if_pos hc]
      exact ⟨h.deassert a, told_deassert h.oneLine (h.active_valid a ha)⟩
    · have : Sys2Proof.Machine.switchGuard P dev s = s := by
        simp only [Machine.switchGuard, ha]; exact if_neg hc
      rw [this]
      simp only [guardEvents, ha, if_neg hc]
      exact ⟨h, Told.silent h.oneLine rfl rfl rfl rfl⟩

/-- After the switch guard, a line at the active level is the line of the device turned to, and it was active already. -/
theorem switchGuard_line {P : Params W} {dev : Device W} {s : State W} (h : Mid P s) (p : Pin W)
    (hp : pinBit (switchGuard P dev s).lvl p = P.selActive) : s.active = some dev ∧ p = dev.lbit := by
  rcases ha : s.active with _ | a
  · rw [switchGuard_first ha] at hp
    have := h.only_active_line p hp
    simp [ha] at this
  · by_cases hne : a = dev
    · subst hne
      rw [switchGuard_same ha] at hp
      have := h.only_active_line p hp
      simp [ha] at this
      exact ⟨rfl, this.symm⟩
    · by_cases hl : asserted P a s
      · rw [switchGuard_held ha hne hl] at hp
        exact absurd hp (h.deassert_active ha p)
      · rw [switchGuard_released ha hl] at hp
        exact absurd hp (h.no_line (fun b hb => by rw [ha] at hb; obtain rfl := Option.some.inj hb; exact hl) p)

/-- `ACTIVATE` of a valid device keeps `Mid` where no other line is active. -/
theorem Mid.activate {P : Params W} {dev : Device W} {s : State W} (h : Mid P s) (hv : dev.valid P)
    (hno : s.active ≠ some dev → ∀ p, pinBit s.lvl p ≠ P.selActive) :
    Mid P (activate dev s) ∧ Told P s (activate dev s) (activateEvents dev s) := by
  by_cases ha : s.active = some dev
  · rw [activate_same ha]
    simp only [activateEvents, if_pos ha]
    exact ⟨h, Told.silent h.oneLine rfl rfl rfl rfl⟩
  · rw [activate_other ha]
    simp only [activateEvents, if_neg ha]
    refine ⟨⟨h.queue_valid, deviceOk_some.2 hv, fun a hd => ?_, fun p hp => absurd hp (hno ha p), h.mem_wf⟩,
      ⟨by simp, rfl, rfl, rfl, ⟨h.oneLine, h.oneLine, h.oneLine⟩, rfl, by simpa [pinFree] using hv.1⟩⟩
    obtain rfl := Option.some.inj hd
    simp

/-- The events of turning to a device (R96, R93). -/
def turnEvents (P : Params W) (dev : Device W) (s : State W) : List (Event W) :=
  guardEvents P dev s ++ activateEvents dev s

/-- Turning to a valid device keeps `Mid`, is told by its events, and leaves no line active but possibly its own. -/
theorem Mid.turn {P : Params W} {dev : Device W} {s : State W} (h : Mid P s) (hv : dev.valid P) :
    Mid P (Machine.activate dev (Machine.switchGuard P dev s)) ∧
      Told P s (Machine.activate dev (Machine.switchGuard P dev s)) (turnEvents P dev s) ∧
      ∀ p, pinBit (Machine.activate dev (Machine.switchGuard P dev s)).lvl p = P.selActive → p = dev.lbit := by
  have hact : (Machine.switchGuard P dev s).active = s.active := by
    rcases switchGuard_cases P dev s with h | ⟨a, -, -, -, h⟩ <;> rw [h]; rfl
  obtain ⟨hm, ht⟩ := h.switchGuard (dev := dev)
  obtain ⟨hm', ht'⟩ := hm.activate hv fun hne p hp => hne (hact.trans (switchGuard_line h p hp).1)
  have hev : activateEvents dev (Machine.switchGuard P dev s) = activateEvents dev s := by
    simp only [activateEvents, hact]
  refine ⟨hm', by unfold turnEvents; rw [← hev]; exact ht.trans ht', fun p hp => ?_⟩
  refine (switchGuard_line h p ?_).2
  by_cases ha : (Machine.switchGuard P dev s).active = some dev
  · rwa [activate_same ha] at hp
  · rw [activate_other ha] at hp; exact hp

theorem turnEvents_quiet (P : Params W) (dev : Device W) (s : State W) :
    callbacksOf (turnEvents P dev s) = [] ∧ releasesOf (turnEvents P dev s) = [] ∧
      loadsOf (turnEvents P dev s) = [] ∧ storesOf (turnEvents P dev s) = [] := by
  have hg : ∃ l : List (Pin W), guardEvents P dev s = l.map Event.selDeassert := by
    rcases ha : s.active with _ | a
    · exact ⟨[], by simp [guardEvents, ha]⟩
    · by_cases hc : a ≠ dev ∧ asserted P a s
      · exact ⟨[a.lbit], by simp only [guardEvents, ha, if_pos hc]; rfl⟩
      · exact ⟨[], by simp only [guardEvents, ha, if_neg hc]; rfl⟩
  obtain ⟨l, hl⟩ := hg
  have h0 : ∀ l : List (Pin W), callbacksOf (l.map Event.selDeassert) = [] ∧ releasesOf (l.map Event.selDeassert) = [] ∧
      loadsOf (l.map Event.selDeassert) = [] ∧ storesOf (l.map Event.selDeassert) = [] := by
    intro l
    induction l with
    | nil => exact ⟨rfl, rfl, rfl, rfl⟩
    | cons p l ih => exact ih
  obtain ⟨h1, h2, h3, h4⟩ := h0 l
  unfold turnEvents activateEvents
  rw [hl]
  split <;> simp [h1, h2, h3, h4, callbacksOf, releasesOf, loadsOf, storesOf]

end Sys2Proof.Machine
end

