-- ==== Sys2Proof/Laws/Engine.lean ====
section
/-!
SUPPORT. What the engine's procedures can do (41_transfer_engine.md): EXHAUSTED, one pass of START_NEXT, its loop, and
the handler, each said once.
-/

namespace Sys2Proof.Machine

variable {W : Widths}

/-! ### Answers -/

@[simp] theorem andThen_next {α β : Type} (a : α) (k : α → Answer β) : andThen (.next a) k = k a := rfl
@[simp] theorem andThen_fault {α β : Type} (f : Fault) (k : α → Answer β) : andThen (.fault f) k = .fault f := rfl
@[simp] theorem andThen_refused {α β : Type} (e : Refusal) (k : α → Answer β) :
    andThen (.refused e) k = .refused e := rfl

theorem andThen_eq_next {α β : Type} {r : Answer α} {k : α → Answer β} {b : β} (h : andThen r k = .next b) :
    ∃ a, r = .next a ∧ k a = .next b := by
  cases r with
  | next a => exact ⟨a, rfl, h⟩
  | fault f => cases h
  | refused e => cases h

/-! ### LOAD (R113) -/

theorem load_ready {b : Byte} {s : State W} (hx : s.xip = false) (hi : s.ifrIF = false) :
    load b s = .next (emit (.load b) { s with txr := b, xip := true }) := by
  simp [load, hx, hi]

theorem load_collides {b : Byte} {s : State W} (h : s.xip = true ∨ s.ifrIF = true) : load b s = .fault .loadCollision :=
  if_pos h

/-! ### EXHAUSTED (R119) -/

/-- The events of step 4a. -/
def callbackEvents (c : Desc W) : List (Event W) := (c.callback.map Event.callback).toList

/-- The released form of the descriptor `EXHAUSTED` ends: its callback cleared (R119 corner case (e)). -/
def cleared (c : Desc W) : Desc W := { c with callback := none }

/-- Step 4a clears the callback, and touches `CUR` and the trace only. -/
theorem fireCallback_eq (c : Desc W) (s : State W) :
    ∃ x, fireCallback c s = (cleared c, { s with cur := x, trace := s.trace ++ callbackEvents c }) := by
  obtain ⟨dev, da, re, mo, ca, cb⟩ := c
  cases cb
  · exact ⟨s.cur, by simp [fireCallback, callbackEvents, cleared]⟩
  · exact ⟨_, rfl⟩

/-- Step 4b: with an empty queue, `EXHAUSTED` releases, deasserts and goes IDLE. -/
theorem exhausted_last {P : Params W} {c : Desc W} {s : State W} {a : Device W} (ha : s.active = some a) (hq : s.q = []) :
    exhausted P c s = .next (false,
      { s with cur := none, engine := .idle, lvl := setPin s.lvl a.lbit (!P.selActive),
               trace := s.trace ++ callbackEvents c ++ [.release (cleared c), .selDeassert a.lbit] }) := by
  obtain ⟨x, hx⟩ := fireCallback_eq c s
  simp [exhausted, hx, ha, hq, setEngine, deassertLine, clearCur, release, emit, cleared]

/-- Step 4c after a `READ_WRITE` descriptor: the line is left as it is. -/
theorem exhausted_held {P : Params W} {c : Desc W} {s : State W} {a : Device W} (ha : s.active = some a) (hq : s.q ≠ [])
    (hm : c.mode = .readWrite) :
    exhausted P c s = .next (true,
      { s with cur := none, trace := s.trace ++ callbackEvents c ++ [.release (cleared c)] }) := by
  obtain ⟨x, hx⟩ := fireCallback_eq c s
  simp [exhausted, hx, ha, hq, hm, clearCur, release, emit, cleared]

/-- Step 4c after any other descriptor: the line is deasserted. -/
theorem exhausted_chained {P : Params W} {c : Desc W} {s : State W} {a : Device W} (ha : s.active = some a) (hq : s.q ≠ [])
    (hm : c.mode ≠ .readWrite) :
    exhausted P c s = .next (true,
      { s with cur := none, lvl := setPin s.lvl a.lbit (!P.selActive),
               trace := s.trace ++ callbackEvents c ++ [.selDeassert a.lbit, .release (cleared c)] }) := by
  obtain ⟨x, hx⟩ := fireCallback_eq c s
  simp [exhausted, hx, ha, hq, hm, clearCur, release, emit, cleared, deassertLine]

/-- Against the precondition, with no active device, `EXHAUSTED` faults. -/
theorem exhausted_no_active {P : Params W} {c : Desc W} {s : State W} (ha : s.active = none) :
    exhausted P c s = .fault .noActiveDevice := by
  obtain ⟨x, hx⟩ := fireCallback_eq c s
  simp [exhausted, hx, ha]

theorem told_callbackEvents {P : Params W} {s : State W} (h : oneLine P s.lvl) (c : Desc W) (u : State W)
    (ht : u.trace = s.trace ++ callbackEvents c) (hl : u.lvl = s.lvl) (hd : u.dir = s.dir) (hm : u.mem = s.mem) :
    Told P s u (callbackEvents c) := by
  rcases hc : c.callback with _ | t <;> simp only [callbackEvents, hc, Option.map_none, Option.map_some,
    Option.toList_none, Option.toList_some] at ht ⊢
  · exact Told.silent h (by simpa using ht) hl hd hm
  · exact ⟨ht, hl.symm, hd.symm, hm.symm, ⟨h, h⟩, rfl, by simp [pinFree]⟩

theorem callbackEvents_says (c : Desc W) :
    callbacksOf (callbackEvents c) = c.callback.toList ∧ releasesOf (callbackEvents c) = [] ∧
      loadsOf (callbackEvents c) = [] ∧ storesOf (callbackEvents c) = [] := by
  rcases hc : c.callback with _ | t <;> simp [callbackEvents, hc, callbacksOf, releasesOf, loadsOf, storesOf]

/-- What a start, or the end of a descriptor, leaves alone. -/
structure Quiet (s t : State W) : Prop where
  rxr : t.rxr = s.rxr
  ifrIF : t.ifrIF = s.ifrIF
  ctrlIE : t.ctrlIE = s.ctrlIE
  cfg : t.cfg = s.cfg
  mem : t.mem = s.mem
  script : t.script = s.script

theorem Quiet.refl (s : State W) : Quiet s s := ⟨rfl, rfl, rfl, rfl, rfl, rfl⟩

theorem Quiet.trans {s t u : State W} (h : Quiet s t) (k : Quiet t u) : Quiet s u :=
  ⟨k.rxr.trans h.rxr, k.ifrIF.trans h.ifrIF, k.ctrlIE.trans h.ctrlIE, k.cfg.trans h.cfg, k.mem.trans h.mem,
    k.script.trans h.script⟩

/-- What `EXHAUSTED` does to the current descriptor `c`, whose device is active: it is told by its events, owes the one
callback and the one release, and either goes IDLE with no line active or leaves the queue to be started. -/
structure Exhausted (P : Params W) (c : Desc W) (s : State W) (more : Bool) (t : State W) (evs : List (Event W)) : Prop where
  quiet : Quiet s t
  told : Told P s t evs
  mid : Mid P t
  callbacks : callbacksOf evs = c.callback.toList
  releases : releasesOf evs = [cleared c]
  loads : loadsOf evs = []
  stores : storesOf evs = []
  more_iff : more = true ↔ s.q ≠ []
  cur : t.cur = none
  q : t.q = s.q
  active : t.active = s.active
  txr : t.txr = s.txr
  xip : t.xip = s.xip
  ctrlMSTR : t.ctrlMSTR = s.ctrlMSTR
  dir : t.dir = s.dir
  engine : t.engine = if more then s.engine else .idle
  noLine : more = false → ∀ p, pinBit t.lvl p ≠ P.selActive

theorem exhausted_spec {P : Params W} {c : Desc W} {s : State W} {a : Device W} (h : Mid P s) (ha : s.active = some a) :
    ∃ more t evs, exhausted P c s = .next (more, t) ∧ Exhausted P c s more t evs := by
  obtain ⟨hcb, hcr, hcl, hcs⟩ := callbackEvents_says c
  have hD := h.deassert a
  have hva := (h.active_valid a ha).2
  have hp : ∀ e ∈ [Event.release (cleared c), .selDeassert a.lbit], pinFree P e := by simpa [pinFree] using hva
  have hp' : ∀ e ∈ [Event.selDeassert a.lbit, .release (cleared c)], pinFree P e := by simpa [pinFree] using hva
  have tD : Told P s _ _ := told_callbackEvents h.oneLine c { s with trace := s.trace ++ callbackEvents c } rfl rfl rfl rfl
  by_cases hq : s.q = []
  · refine ⟨_, _, _, exhausted_last ha hq, ⟨⟨rfl, rfl, rfl, rfl, rfl, rfl⟩,
      (tD.trans (b := [.release (cleared c), .selDeassert a.lbit])
        ⟨by simp, rfl, rfl, rfl, ⟨h.oneLine, h.oneLine, oneLine_deassert h.oneLine _⟩, rfl, hp⟩),
      hD.congr rfl rfl rfl rfl rfl, ?_, ?_, ?_, ?_, by simp [hq], rfl, rfl, rfl, rfl, rfl, rfl, rfl, rfl,
      fun _ => h.deassert_active ha⟩⟩ <;>
      simp [hcb, hcr, hcl, hcs, callbacksOf, releasesOf, loadsOf, storesOf]
  · by_cases hm : c.mode = .readWrite
    · refine ⟨_, _, _, exhausted_held ha hq hm, ⟨⟨rfl, rfl, rfl, rfl, rfl, rfl⟩,
        (tD.trans (b := [.release (cleared c)]) ⟨by simp, rfl, rfl, rfl, ⟨h.oneLine, h.oneLine⟩, rfl, by simp [pinFree]⟩),
        h.congr rfl rfl rfl rfl rfl, ?_, ?_, ?_, ?_, by simp [hq], rfl, rfl, rfl, rfl, rfl, rfl, rfl, rfl, by simp⟩⟩ <;>
        simp [hcb, hcr, hcl, hcs, callbacksOf, releasesOf, loadsOf, storesOf]
    · refine ⟨_, _, _, exhausted_chained ha hq hm, ⟨⟨rfl, rfl, rfl, rfl, rfl, rfl⟩,
        (tD.trans (b := [.selDeassert a.lbit, .release (cleared c)])
          ⟨by simp, rfl, rfl, rfl, ⟨h.oneLine, oneLine_deassert h.oneLine _, oneLine_deassert h.oneLine _⟩, rfl, hp'⟩),
        hD.congr rfl rfl rfl rfl rfl, ?_, ?_, ?_, ?_, by simp [hq], rfl, rfl, rfl, rfl, rfl, rfl, rfl, rfl, by simp⟩⟩ <;>
        simp [hcb, hcr, hcl, hcs, callbacksOf, releasesOf, loadsOf, storesOf]

end Sys2Proof.Machine
end

