-- ==== Sys2Proof/Laws/Start.lean ====
section
/-!
SUPPORT. START_NEXT (R112 of 41_transfer_engine.md): its three branches as equations, what a pass can do, and what the
loop can do, over a queue of any length.
-/

namespace Sys2Proof.Machine

variable {W : Widths}

/-- The events that report a null-device descriptor (R112, R195). -/
def nullEvents (ctx : Context) (d : Desc W) : List (Event W) :=
  match ctx with
  | .foreground => [.release d]
  | .interrupt => [.release d, .diag .invalidDevice]

theorem releaseLine_quiet {P : Params W} {s : State W} (h : ∀ a ∈ s.active, ¬ asserted P a s) : releaseLine P s = s := by
  rcases ha : s.active with _ | a
  · simp [releaseLine, ha]
  · simp only [releaseLine, ha]
    exact if_neg (h a ha)

theorem releaseLine_held {P : Params W} {s : State W} {a : Device W} (ha : s.active = some a) (h : asserted P a s) :
    releaseLine P s = deassertLine P a s := by
  simp only [releaseLine, ha]
  exact if_pos h

/-- Release and report (R112, R195): what the null-device branch does before it looks at the queue. -/
theorem dropNullDevice_eq (P : Params W) (ctx : Context) (d : Desc W) (s : State W) :
    dropNullDevice P ctx d s =
      if isEmpty s then
        (false, setEngine .idle (releaseLine P { s with cur := none, trace := s.trace ++ nullEvents ctx d }))
      else (true, { s with cur := none, trace := s.trace ++ nullEvents ctx d }) := by
  cases ctx <;> simp [dropNullDevice, nullEvents, clearCur, release, emit]

/-- The null-device branch with descriptors left: release, report, go on (R112). -/
theorem dropNullDevice_more {P : Params W} {ctx : Context} {d : Desc W} {s : State W} (hq : s.q ≠ []) :
    dropNullDevice P ctx d s = (true, { s with cur := none, trace := s.trace ++ nullEvents ctx d }) := by
  rw [dropNullDevice_eq, if_neg (by simpa using hq)]

/-- The null-device branch with no descriptor left and no line held: release, report, go IDLE (R112). -/
theorem dropNullDevice_last {P : Params W} {ctx : Context} {d : Desc W} {s : State W} (hq : s.q = [])
    (hl : ∀ a ∈ s.active, ¬ asserted P a s) :
    dropNullDevice P ctx d s =
      (false, { s with cur := none, engine := .idle, trace := s.trace ++ nullEvents ctx d }) := by
  rw [dropNullDevice_eq, if_pos (by simp [hq]),
    releaseLine_quiet (s := { s with cur := none, trace := s.trace ++ nullEvents ctx d }) hl]
  rfl

/-- The null-device branch with no descriptor left and the line held: the line is deasserted too (R112 point (c)). -/
theorem dropNullDevice_last_held {P : Params W} {ctx : Context} {d : Desc W} {s : State W} {a : Device W} (hq : s.q = [])
    (ha : s.active = some a) (hl : asserted P a s) :
    dropNullDevice P ctx d s =
      (false, { s with cur := none, engine := .idle, lvl := setPin s.lvl a.lbit (!P.selActive),
                       trace := s.trace ++ nullEvents ctx d ++ [.selDeassert a.lbit] }) := by
  rw [dropNullDevice_eq, if_pos (by simp [hq]),
    releaseLine_held (s := { s with cur := none, trace := s.trace ++ nullEvents ctx d }) ha hl]
  rfl

theorem told_nullEvents {P : Params W} {s u : State W} (h : oneLine P s.lvl) (ctx : Context) (d : Desc W)
    (ht : u.trace = s.trace ++ nullEvents ctx d) (hl : u.lvl = s.lvl) (hd : u.dir = s.dir) (hm : u.mem = s.mem) :
    Told P s u (nullEvents ctx d) := by
  cases ctx
  · exact ⟨ht, hl.symm, hd.symm, hm.symm, ⟨h, h⟩, rfl, by simp [nullEvents, pinFree]⟩
  · exact ⟨ht, hl.symm, hd.symm, hm.symm, ⟨h, h, h⟩, rfl, by simp [nullEvents, pinFree]⟩

theorem nullEvents_says (ctx : Context) (d : Desc W) :
    callbacksOf (nullEvents ctx d) = [] ∧ releasesOf (nullEvents ctx d) = [d] ∧ loadsOf (nullEvents ctx d) = [] ∧
      storesOf (nullEvents ctx d) = [] := by
  cases ctx <;> simp [nullEvents, callbacksOf, releasesOf, loadsOf, storesOf]

/-- The starting branch of a pass: device turned to, `remaining` counted down, line asserted, first byte loaded (R112). -/
theorem startExchange_eq {P : Params W} {dev : Device W} {d : Desc W} {s : State W} (hx : s.xip = false)
    (hi : s.ifrIF = false) :
    startExchange P dev d s =
      .next { s with cur := some { d with remaining := d.remaining - 1#_ }, lvl := setPin s.lvl dev.lbit P.selActive,
                     txr := memRead d.data s, xip := true, engine := .busy,
                     trace := s.trace ++ [.selAssert dev.lbit, .load (memRead d.data s)] } := by
  simp [startExchange, load, hx, hi, assertLine, setCur, setEngine, emit, memRead]

/-- Turning to a device from a state in which no other device's line is asserted (R96, R93): IDLE, or the chained start. -/
theorem turn_quiet {P : Params W} {s : State W} {dev : Device W} (hn : ∀ a ∈ s.active, a ≠ dev → ¬ asserted P a s)
    (ho : s.active = some dev → pinBit s.dir dev.dbit = true) :
    activate dev (switchGuard P dev s) =
      { s with active := some dev, dir := setPin s.dir dev.dbit true,
               ctrlMSTR := s.ctrlMSTR || decide (s.active ≠ some dev),
               trace := s.trace ++ (if s.active = some dev then [] else [.dirOut dev.dbit, .setMaster]) } := by
  have hg : switchGuard P dev s = s := by
    rcases ha : s.active with _ | a
    · exact switchGuard_first ha
    · by_cases h : a = dev
      · subst h; exact switchGuard_same ha
      · exact switchGuard_released ha (hn a ha h)
  rw [hg]
  by_cases ha : s.active = some dev
  · rw [activate_same ha, setPin_eq_self (ho ha)]; simp [ha]; rw [← ha]
  · rw [activate_other ha]; simp [ha, setMaster, configureOutput, emit]

/-- A pass over a startable descriptor from such a state (R112, steps 4 to 7). -/
theorem startPass_quiet {P : Params W} {ctx : Context} {d : Desc W} {dev : Device W} {s : State W} (hd : d.device = some dev)
    (hr : d.remaining ≠ 0#_) (hn : ∀ a ∈ s.active, a ≠ dev → ¬ asserted P a s)
    (ho : s.active = some dev → pinBit s.dir dev.dbit = true) (hx : s.xip = false) (hi : s.ifrIF = false) :
    startPass P ctx d s =
      .next (false, { s with
        engine := .busy, cur := some { d with remaining := d.remaining - 1#_ }, active := some dev,
        dir := setPin s.dir dev.dbit true, lvl := setPin s.lvl dev.lbit P.selActive,
        txr := memRead d.data s, xip := true, ctrlMSTR := s.ctrlMSTR || decide (s.active ≠ some dev),
        trace := s.trace ++ (if s.active = some dev then [] else [.dirOut dev.dbit, .setMaster]) ++
          [.selAssert dev.lbit, .load (memRead d.data s)] }) := by
  simp only [startPass, hd, if_neg hr]
  rw [turn_quiet (s := setCur d s) hn ho, startExchange_eq (by exact hx) (by exact hi)]
  by_cases ha : s.active = some dev <;> simp [memRead, hd, ha]

/-- What one pass of the loop of START_NEXT can do, over the descriptor `d` with `rest` left in the queue. -/
structure Pass (P : Params W) (d : Desc W) (rest : List (Desc W)) (s : State W) (more : Bool)
    (t : State W) (evs : List (Event W)) : Prop where
  quiet : Quiet s t
  told : Told P s t evs
  mid : Mid P t
  callbacks : callbacksOf evs ++ callbacksDue (held t) = callbacksDue (d :: rest)
  releases : releasesOf evs ++ releasesDue t = (d :: rest).map releaseDue
  loads : loadsOf evs = if t.xip then [t.txr] else []
  stores : storesOf evs = []
  goesOn : more = true → t.q = rest ∧ rest ≠ [] ∧ t.cur = none ∧ t.xip = false
  ends : more = false → Inv P t
  txr : t.xip = false → t.txr = s.txr

/-- An Inv from `Mid`, for a state that has gone IDLE. -/
theorem Mid.inv_idle {P : Params W} {s : State W} (h : Mid P s) (he : s.engine = .idle) (hq : s.q = []) (hc : s.cur = none)
    (hx : s.xip = false) (hi : s.ifrIF = false) (hl : ∀ p, pinBit s.lvl p ≠ P.selActive) : Inv P s where
  idle_iff := by simp [he, hq, hc]
  queue_bounded := by simp [hq]
  queue_valid := h.queue_valid
  current_active := by simp [hc]
  active_valid := h.active_valid
  active_output := h.active_output
  busy_iff := by simp [he, hx, hi]
  busy_current := by simp [he]
  one_exchange := by simp [hx]
  busy_asserted := by simp [he]
  idle_deasserted := fun _ a ha hs => hl _ ((h.asserted_iff ha).1 hs)
  only_active_line := h.only_active_line
  mem_wf := h.mem_wf

/-- An Inv from `Mid`, for a state with an exchange in flight. -/
theorem Mid.inv_busy {P : Params W} {s : State W} (h : Mid P s) (he : s.engine = .busy) {c : Desc W} {dev : Device W}
    (hc : s.cur = some c) (hd : c.device = some dev) (ha : s.active = some dev) (hqb : s.q.length ≤ P.qcap)
    (hx : s.xip = true) (hi : s.ifrIF = false) (hl : pinBit s.lvl dev.lbit = P.selActive) : Inv P s where
  idle_iff := by simp [he, hc]
  queue_bounded := hqb
  queue_valid := h.queue_valid
  current_active := fun c' hc' => by
    rw [hc] at hc'; obtain rfl := Option.some.inj hc'
    exact ⟨by simp [hd], by rw [hd, ← ha]; exact h.active_valid, by rw [hd, ha]⟩
  active_valid := h.active_valid
  active_output := h.active_output
  busy_iff := by simp [he, hx]
  busy_current := by simp [hc]
  one_exchange := by simp [hi]
  busy_asserted := fun _ a ha' => by
    rw [ha] at ha'; obtain rfl := Option.some.inj ha'
    exact (h.asserted_iff ha).2 hl
  idle_deasserted := by simp [he]
  only_active_line := h.only_active_line
  mem_wf := h.mem_wf

theorem count_pred {r : Count W} (h : r ≠ 0#_) : (r - 1#_).toNat + 1 = r.toNat := by
  have hr : r.toNat ≠ 0 := fun e => h (BitVec.eq_of_toNat_eq (by simpa using e))
  have hlt := r.isLt
  have h1 : (1#W.lenW).toNat = 1 := by simp only [BitVec.toNat_ofNat]; exact Nat.mod_eq_of_lt (by omega)
  rw [BitVec.toNat_sub_of_le (by rw [BitVec.le_def, h1]; omega), h1]
  omega

theorem ended_zero (d : Desc W) (h : d.remaining = 0#_) : ended 0 d = cleared d := by
  obtain ⟨dev, da, re, mo, ca, cb⟩ := d
  subst h
  simp only [ended, cleared]
  congr 1
  · simp
  · cases ca <;> simp

theorem startPass_spec {P : Params W} {ctx : Context} {d : Desc W} {rest : List (Desc W)} {s : State W} (h : Mid P s)
    (hq : s.q = rest) (hd : deviceOk P d.device) (hlen : rest.length ≤ P.qcap) (hx : s.xip = false)
    (hi : s.ifrIF = false) :
    ∃ more t evs, startPass P ctx d s = .next (more, t) ∧ Pass P d rest s more t evs := by
  have hm1 : Mid P (setCur d s) := h.congr rfl rfl rfl rfl rfl
  rcases hdev : d.device with _ | dev
  · -- a null device
    obtain ⟨n1, n2, n3, n4⟩ := nullEvents_says ctx d
    have hdue : releaseDue d = d := by simp [releaseDue, hdev]
    have hcbd : callbackDue d = none := by simp [callbackDue, hdev]
    simp only [startPass, hdev]
    by_cases hr : rest = []
    · by_cases hl : ∀ a ∈ s.active, ¬ asserted P a s
      · rw [dropNullDevice_last (by simp [hq, hr]) (by exact hl)]
        refine ⟨_, _, _, rfl, ⟨⟨rfl, rfl, rfl, rfl, rfl, rfl⟩, told_nullEvents h.oneLine ctx d rfl rfl rfl rfl,
          h.congr rfl rfl rfl rfl rfl, ?_, ?_, ?_, n4, by simp, fun _ => ?_, fun _ => rfl⟩⟩
        · simp [n1, held, callbacksDue, hcbd, hq, hr]
        · simp [n2, releasesDue, hdue, hq, hr]
        · simp [n3, hx]
        · exact Mid.inv_idle (h.congr rfl rfl rfl rfl rfl) rfl (by simp [hq, hr]) rfl hx hi (h.no_line hl)
      · obtain ⟨a, ha, hl⟩ : ∃ a, s.active = some a ∧ asserted P a s := by
          by_contra hcon
          exact hl fun a ha hs => hcon ⟨a, ha, hs⟩
        rw [dropNullDevice_last_held (s := setCur d s) (by simp [hq, hr]) ha hl]
        have hD := h.deassert a
        refine ⟨_, _, _, rfl, ⟨⟨rfl, rfl, rfl, rfl, rfl, rfl⟩,
          ((told_nullEvents (u := { s with trace := s.trace ++ nullEvents ctx d }) h.oneLine ctx d rfl rfl rfl rfl).trans
            (b := [.selDeassert a.lbit]) ⟨by simp, rfl, rfl, rfl, ⟨h.oneLine, oneLine_deassert h.oneLine _⟩, rfl,
              by simpa [pinFree] using (h.active_valid a ha).2⟩),
          hD.congr rfl rfl rfl rfl rfl, ?_, ?_, ?_, ?_, by simp, fun _ => ?_, fun _ => rfl⟩⟩
        · simp [n1, held, callbacksDue, hcbd, hq, hr, callbacksOf]
        · simp [n2, releasesDue, hdue, hq, hr, releasesOf]
        · simp [n3, hx, loadsOf]
        · simp [n4, storesOf]
        · exact Mid.inv_idle (hD.congr rfl rfl rfl rfl rfl) rfl (by simp [hq, hr]) rfl hx hi (h.deassert_active ha)
    · rw [dropNullDevice_more (by simpa [hq] using hr)]
      refine ⟨_, _, _, rfl, ⟨⟨rfl, rfl, rfl, rfl, rfl, rfl⟩, told_nullEvents h.oneLine ctx d rfl rfl rfl rfl,
        h.congr rfl rfl rfl rfl rfl, ?_, ?_, ?_, n4, fun _ => ⟨hq, hr, rfl, hx⟩, by simp, fun _ => rfl⟩⟩
      · simp [n1, held, callbacksDue, hcbd, hq]
      · simp [n2, releasesDue, hdue, hq]
      · simp [n3, hx]
  · -- a present device
    have hv : dev.valid P := deviceOk_some.1 (hdev ▸ hd)
    obtain ⟨hm2, ht2, hline⟩ := hm1.turn hv
    have hT := turned P dev (setCur d s)
    obtain ⟨e1, e2, e3, e4⟩ := turnEvents_quiet P dev (setCur d s)
    simp only [startPass, hdev]
    generalize activate dev (switchGuard P dev (setCur d s)) = u at hm2 ht2 hline hT
    have hu : Quiet s u := ⟨hT.rxr, hT.ifrIF, hT.ctrlIE, hT.cfg, hT.mem, hT.script⟩
    have hsu : Told P s u (turnEvents P dev (setCur d s)) := by
      have := (Told.silent (t := setCur d s) h.oneLine rfl rfl rfl rfl).trans ht2
      simpa using this
    by_cases hz : d.remaining = 0#_
    · -- zero length
      rw [if_pos hz]
      obtain ⟨more, t, evs, hE, x⟩ := exhausted_spec (c := d) hm2 hT.active
      have htq : t.q = rest := by rw [x.q, hT.q]; exact hq
      have htx : t.xip = false := by rw [x.xip, hT.xip]; exact hx
      refine ⟨more, t, turnEvents P dev (setCur d s) ++ evs, hE, ⟨hu.trans x.quiet, hsu.trans x.told, x.mid, ?_, ?_,
        ?_, ?_, fun hmore => ⟨htq, ?_, x.cur, htx⟩, fun hmore => ?_, fun _ => x.txr.trans hT.txr⟩⟩
      · simp [e1, x.callbacks, held, x.cur, htq, callbacksDue, callbackDue, hdev, List.filterMap_cons]
        cases d.callback <;> simp
      · simp [e2, x.releases, releasesDue, x.cur, htq, releaseDue, hdev, hz, ended_zero]
      · simp [e3, x.loads, htx]
      · simp [e4, x.stores]
      · have := x.more_iff.1 hmore
        rw [hT.q] at this; rw [← hq]; exact this
      · have hnq : ¬ (u.q ≠ []) := fun hne => by simp [x.more_iff.2 hne] at hmore
        have hqe : t.q = [] := by rw [x.q]; exact not_not.1 hnq
        exact Mid.inv_idle x.mid (by simp [x.engine, hmore]) hqe x.cur htx
          (by rw [x.quiet.ifrIF, hT.ifrIF]; exact hi) (x.noLine hmore)
    · -- an exchange starts
      rw [if_neg hz, startExchange_eq (by rw [hT.xip]; exact hx) (by rw [hT.ifrIF]; exact hi)]
      simp only [andThen_next]
      have htold : Told P u
          { u with cur := some { d with remaining := d.remaining - 1#_ }, lvl := setPin u.lvl dev.lbit P.selActive,
                   txr := memRead d.data u, xip := true, engine := .busy,
                   trace := u.trace ++ [.selAssert dev.lbit, .load (memRead d.data u)] }
          [.selAssert dev.lbit, .load (memRead d.data u)] :=
        ⟨rfl, rfl, rfl, rfl, ⟨hm2.oneLine, oneLine_assert hline, oneLine_assert hline⟩, rfl,
          by simpa [pinFree] using hv.2⟩
      have hmid : Mid P
          { u with cur := some { d with remaining := d.remaining - 1#_ }, lvl := setPin u.lvl dev.lbit P.selActive,
                   txr := memRead d.data u, xip := true, engine := .busy,
                   trace := u.trace ++ [.selAssert dev.lbit, .load (memRead d.data u)] } :=
        ⟨hm2.queue_valid, hm2.active_valid, hm2.active_output, fun p hp => by
          show u.active.map Device.lbit = some p
          rw [hT.active]
          simp only [pinBit_setPin] at hp
          split at hp
          · subst_vars; rfl
          · rw [hline p hp]; rfl, hm2.mem_wf⟩
      refine ⟨false, _, _, rfl, ⟨hu.trans ⟨rfl, rfl, rfl, rfl, rfl, rfl⟩, hsu.trans htold, hmid, ?_, ?_, ?_, ?_, by simp,
        fun _ => ?_, fun hf => by cases hf⟩⟩
      · have : u.q = rest := by rw [hT.q]; exact hq
        simp [e1, callbacksOf, held, callbacksDue, callbackDue, hdev, this, List.filterMap_cons]
      · have : u.q = rest := by rw [hT.q]; exact hq
        simp only [releasesOf_append, e2, releasesOf, releasesDue, this, Option.map_some, Option.toList_some,
          List.map_cons, releaseDue, hdev, count_pred hz]
        simp [ended, hdev]
      · simp [e3, loadsOf]
      · simp [e4, storesOf]
      · exact Mid.inv_busy hmid rfl rfl hdev hT.active (by show u.q.length ≤ _; rw [hT.q]; simpa [hq] using hlen) rfl
          (by show u.ifrIF = _; rw [hT.ifrIF]; exact hi) (by simp)

/-- What START_NEXT can do over the descriptors `ds`: it is told by its events, it owes and fires the callbacks and
releases of `ds` in order, and it ends in a state that meets the invariant. -/
structure Started (P : Params W) (ds : List (Desc W)) (s t : State W) (evs : List (Event W)) : Prop where
  quiet : Quiet s t
  told : Told P s t evs
  inv : Inv P t
  callbacks : callbacksOf evs ++ callbacksDue (held t) = callbacksDue ds
  releases : releasesOf evs ++ releasesDue t = ds.map releaseDue
  loads : loadsOf evs = if t.xip then [t.txr] else []
  stores : storesOf evs = []
  txr : t.xip = false → t.txr = s.txr

/-- START_NEXT's loop answers a next state over any non-empty list of descriptors whose devices are valid. -/
theorem startLoop_spec {P : Params W} {ctx : Context} {ds : List (Desc W)} {res : ResultCode} {s : State W} (h : Mid P s)
    (hne : ds ≠ []) (hds : ∀ d ∈ ds, deviceOk P d.device) (hlen : ds.length ≤ P.qcap) (hx : s.xip = false)
    (hi : s.ifrIF = false) :
    ∃ res' t evs, startLoop P ctx ds res s = .next (res', t) ∧ Started P ds s t evs := by
  induction ds generalizing res s with
  | nil => exact absurd rfl hne
  | cons d rest ih =>
    have hm : Mid P { s with q := rest } :=
      ⟨fun d' hd' => hds d' (List.mem_cons_of_mem _ hd'), h.active_valid, h.active_output, h.only_active_line, h.mem_wf⟩
    simp only [List.length_cons] at hlen
    obtain ⟨more, t, evs, hp, x⟩ :=
      startPass_spec (ctx := ctx) (d := d) (rest := rest) hm rfl (hds d (by simp)) (by omega) hx hi
    have hT : Told P s t evs := by
      have := (Told.silent (t := { s with q := rest }) h.oneLine rfl rfl rfl rfl).trans x.told
      simpa using this
    have hQ : Quiet s t := ⟨x.quiet.rxr, x.quiet.ifrIF, x.quiet.ctrlIE, x.quiet.cfg, x.quiet.mem, x.quiet.script⟩
    cases more with
    | false =>
      refine ⟨resultAfter d res, t, evs, by simp [startLoop, hp], ⟨hQ, hT, x.ends rfl, x.callbacks, x.releases, x.loads,
        x.stores, x.txr⟩⟩
    | true =>
      obtain ⟨hq, hr, hc, hx'⟩ := x.goesOn rfl
      obtain ⟨res', t', evs', hl, y⟩ := ih (res := resultAfter d res) x.mid hr
        (fun d' hd' => hds d' (List.mem_cons_of_mem _ hd')) (by omega) hx' (by rw [hQ.ifrIF]; exact hi)
      refine ⟨res', t', evs ++ evs', by simp [startLoop, hp, hl], ⟨hQ.trans y.quiet, hT.trans y.told, y.inv, ?_, ?_, ?_,
        ?_, fun ht => (y.txr ht).trans (x.txr hx')⟩⟩
      · have h1 := x.callbacks
        simp only [held, hc, hq, Option.toList_none, List.nil_append] at h1
        rw [callbacksOf_append, List.append_assoc, y.callbacks, h1]
      · have h1 := x.releases
        simp only [releasesDue, hc, hq, Option.map_none, Option.toList_none, List.nil_append] at h1
        rw [releasesOf_append, List.append_assoc, y.releases, h1]
      · have h1 := x.loads
        simp only [hx', Bool.false_eq_true, if_false] at h1
        rw [loadsOf_append, h1, y.loads, List.nil_append]
      · simp [x.stores, y.stores]

end Sys2Proof.Machine
end

