-- ==== Sys2Proof/Laws/Handler.lean ====
section
/-!
SUPPORT. The handler (R115 to R118 of 41_transfer_engine.md) and the submitting operations (R141 of 42_public_api.md):
what each can do, said once.
-/

namespace Sys2Proof.Machine

variable {W : Widths}

/-! ### CAPTURE and ADVANCE -/

/-- The events of `CAPTURE` (R116). -/
def captureEvents (rx : Byte) (c : Desc W) : List (Event W) :=
  match c.capture with
  | none => []
  | some a => if includesRead c.mode then [.memWr a rx] else []

/-- The current descriptor after `CAPTURE` and `ADVANCE` (R116, R117): the data cursor advanced, and the capture cursor of a
capturing descriptor. -/
def moved (c : Desc W) : Desc W :=
  { c with data := nextAddr c.data, capture := if includesRead c.mode then c.capture.map nextAddr else c.capture }

/-- The state after `CAPTURE` and `ADVANCE`. -/
def afterByte (rx : Byte) (c : Desc W) (s : State W) : State W :=
  { s with cur := some (moved c), mem := memoryAfter (captureEvents rx c) s.mem,
           trace := s.trace ++ captureEvents rx c }

theorem capture_advance_eq (rx : Byte) (c : Desc W) (s : State W) :
    advance (capture rx c s).1 (capture rx c s).2 = (moved c, afterByte rx c s) := by
  obtain ⟨dev, da, re, mo, ca, cb⟩ := c
  rcases ca with _ | a
  · simp [capture, advance, moved, afterByte, captureEvents, setCur, memoryAfter]
  · by_cases hr : includesRead mo = true
    · simp [capture, advance, moved, afterByte, captureEvents, setCur, memoryAfter, hr, memWrite, emit]
    · simp [capture, advance, moved, afterByte, captureEvents, setCur, memoryAfter, hr]

theorem captureEvents_says (rx : Byte) (c : Desc W) :
    callbacksOf (captureEvents rx c) = [] ∧ releasesOf (captureEvents rx c) = [] ∧ loadsOf (captureEvents rx c) = [] ∧
      resultsOf (captureEvents rx c) = [] ∧
      (∀ P v, levelsAfter P (captureEvents rx c) v = v ∧ (oneLine P v → oneLineThroughout P (captureEvents rx c) v)) ∧
      ∀ v, directionsAfter (captureEvents rx c) v = v := by
  rcases hc : c.capture with _ | a
  · simp [captureEvents, hc, callbacksOf, releasesOf, loadsOf, resultsOf, levelsAfter, directionsAfter,
      oneLineThroughout]
  · by_cases hr : includesRead c.mode = true
    · simp only [captureEvents, hc, hr, if_true]
      exact ⟨rfl, rfl, rfl, rfl, fun P v => ⟨rfl, fun h => ⟨h, h⟩⟩, fun v => rfl⟩
    · simp only [captureEvents, hc, hr]
      exact ⟨rfl, rfl, rfl, rfl, fun P v => ⟨rfl, fun h => h⟩, fun v => rfl⟩

theorem captureEvents_pins (P : Params W) (rx : Byte) (c : Desc W) : ∀ e ∈ captureEvents rx c, pinFree P e := by
  unfold captureEvents
  cases c.capture with
  | none => simp
  | some a => dsimp only; split <;> simp [pinFree]

theorem memoryAfter_wf {es : List (Event W)} {m : Memory} (h : Memory.wf W m) : Memory.wf W (memoryAfter es m) := by
  induction es generalizing m with
  | nil => exact h
  | cons e es ih => cases e <;> first | exact ih h | exact ih (Memory.wf_put_addr h _ _)

theorem told_afterByte {P : Params W} {s : State W} (h : oneLine P s.lvl) (rx : Byte) (c : Desc W) :
    Told P s (afterByte rx c s) (captureEvents rx c) := by
  obtain ⟨-, -, -, hr, hl, hd⟩ := captureEvents_says rx c
  exact ⟨rfl, (hl P _).1, hd _, rfl, (hl P _).2 h, hr, captureEvents_pins P rx c⟩

/-- The handler's body after `CAPTURE` and `ADVANCE` (R115, steps 3 and 4). -/
theorem handleByte_eq (P : Params W) (rx : Byte) (c : Desc W) (s : State W) :
    handleByte P rx c s =
      if c.remaining ≠ 0#_ then continueTransfer (moved c) (afterByte rx c s)
      else
        andThen (exhausted P (moved c) (afterByte rx c s)) fun x =>
          if x.1 then andThen (startNext P .interrupt x.2) fun y => .next y.2 else .next x.2 := by
  simp only [handleByte, capture_advance_eq]
  rfl

theorem told_load {P : Params W} {s u : State W} {b : Byte} (h : oneLine P s.lvl) (ht : u.trace = s.trace ++ [.load b])
    (hl : u.lvl = s.lvl) (hd : u.dir = s.dir) (hm : u.mem = s.mem) : Told P s u [.load b] :=
  ⟨ht, hl.symm, hd.symm, hm.symm, ⟨h, h⟩, rfl, by simp [pinFree]⟩

/-- `CONTINUE` (R118). -/
theorem continueTransfer_eq {c : Desc W} {s : State W} (hx : s.xip = false) (hi : s.ifrIF = false) :
    continueTransfer c s =
      .next { s with cur := some { c with remaining := c.remaining - 1#_ }, txr := memRead c.data s, xip := true,
                     trace := s.trace ++ [.load (memRead c.data s)] } := by
  simp [continueTransfer, load, hx, hi, setCur, emit, memRead]

/-- What a handler run can do with the current descriptor `c`: everything `START_NEXT` can, and one captured byte. -/
structure Handled (P : Params W) (rx : Byte) (c : Desc W) (s t : State W) (evs : List (Event W)) : Prop where
  rxr : t.rxr = s.rxr
  ifrIF : t.ifrIF = s.ifrIF
  ctrlIE : t.ctrlIE = s.ctrlIE
  cfg : t.cfg = s.cfg
  script : t.script = s.script
  told : Told P s t evs
  inv : Inv P t
  callbacks : callbacksOf evs ++ callbacksDue (held t) = callbacksDue (c :: s.q)
  releases : releasesOf evs ++ releasesDue t = ended (c.remaining.toNat + 1) c :: s.q.map releaseDue
  loads : loadsOf evs = if t.xip then [t.txr] else []
  stores : storesOf evs = storesOf (captureEvents rx c)
  txr : t.xip = false → t.txr = s.txr

theorem addr_succ (a : Addr W) (n : Nat) : a + BitVec.ofNat _ (n + 1) = nextAddr a + BitVec.ofNat _ n := by
  apply BitVec.eq_of_toNat_eq
  simp only [nextAddr, BitVec.toNat_add, BitVec.toNat_ofNat, Nat.add_mod_mod, Nat.mod_add_mod]
  congr 1
  omega

theorem ended_succ (n : Nat) (c : Desc W) : ended (n + 1) c = ended n (moved c) := by
  obtain ⟨dev, da, re, mo, ca, cb⟩ := c
  simp only [ended, moved, addr_succ]
  congr 1
  by_cases hr : includesRead mo = true
  · cases ca <;> simp [hr]
  · simp [hr]

theorem ended_moved_zero {c : Desc W} (h : c.remaining = 0#_) : ended 1 c = cleared (moved c) := by
  have := ended_succ 0 c
  rw [this, ended_zero]
  exact h

theorem handleByte_spec {P : Params W} {rx : Byte} {c : Desc W} {s : State W} {dev : Device W} (h : Mid P s)
    (hqv : s.q.length ≤ P.qcap) (hc : c.device = some dev) (ha : s.active = some dev) (he : s.engine = .busy)
    (hl : pinBit s.lvl dev.lbit = P.selActive) (hx : s.xip = false) (hi : s.ifrIF = false) :
    ∃ t evs, handleByte P rx c s = .next t ∧ Handled P rx c s t evs := by
  obtain ⟨c1, c2, c3, c4, c5, c6⟩ := captureEvents_says rx c
  have hT := told_afterByte (c := c) h.oneLine rx
  have hM : Mid P (afterByte rx c s) :=
    ⟨h.queue_valid, h.active_valid, h.active_output, h.only_active_line, memoryAfter_wf h.mem_wf⟩
  rw [handleByte_eq]
  by_cases hz : c.remaining = 0#_
  · rw [if_neg (not_not.2 hz)]
    obtain ⟨more, t, evs, hE, x⟩ := exhausted_spec (c := moved c) hM ha
    rw [hE]
    have hcb : callbacksDue (c :: s.q) = c.callback.toList ++ callbacksDue s.q := by
      simp only [callbacksDue, List.filterMap_cons, callbackDue, hc]
      cases c.callback <;> rfl
    have hend : ended (c.remaining.toNat + 1) c = cleared (moved c) := by rw [hz]; exact ended_moved_zero hz
    have hmcb : (moved c).callback = c.callback := rfl
    have htx : t.xip = false := by rw [x.xip]; exact hx
    have hti : t.ifrIF = false := by rw [x.quiet.ifrIF]; exact hi
    have htq : t.q = s.q := x.q
    cases more with
    | false =>
      have hqe : t.q = [] := by
        by_contra hne
        have := x.more_iff.2 (by rw [← x.q]; exact hne)
        simp at this
      refine ⟨t, captureEvents rx c ++ evs, rfl, ⟨x.quiet.rxr, x.quiet.ifrIF, x.quiet.ctrlIE, x.quiet.cfg,
        x.quiet.script, hT.trans x.told, Mid.inv_idle x.mid (by simp [x.engine]) hqe x.cur htx hti (x.noLine rfl),
        ?_, ?_, ?_, ?_, fun _ => x.txr⟩⟩
      · rw [callbacksOf_append, c1, x.callbacks, hcb, hmcb, held, x.cur, htq]; simp
      · rw [releasesOf_append, c2, x.releases, releasesDue, x.cur, htq, hend]; simp
      · simp [c3, x.loads, htx]
      · simp [x.stores]
    | true =>
      have hne : t.q ≠ [] := by rw [x.q]; exact x.more_iff.1 rfl
      obtain ⟨res, u, evs', hs, y⟩ := startLoop_spec (ctx := .interrupt) (ds := t.q) (res := .ok) x.mid hne
        x.mid.queue_valid (by rw [htq]; exact hqv) htx hti
      simp only [andThen_next, if_true, startNext, hs]
      refine ⟨u, captureEvents rx c ++ (evs ++ evs'), rfl, ⟨?_, ?_, ?_, ?_, ?_, hT.trans (x.told.trans y.told), y.inv,
        ?_, ?_, ?_, ?_, fun ht => (y.txr ht).trans x.txr⟩⟩
      · rw [y.quiet.rxr, x.quiet.rxr]; rfl
      · rw [y.quiet.ifrIF, x.quiet.ifrIF]; rfl
      · rw [y.quiet.ctrlIE, x.quiet.ctrlIE]; rfl
      · rw [y.quiet.cfg, x.quiet.cfg]; rfl
      · rw [y.quiet.script, x.quiet.script]; rfl
      · rw [callbacksOf_append, callbacksOf_append, c1, x.callbacks, List.nil_append, List.append_assoc, y.callbacks,
          hcb, hmcb, htq]
      · rw [releasesOf_append, releasesOf_append, c2, x.releases, List.nil_append, List.append_assoc, y.releases, htq,
          hend]
        rfl
      · simp [c3, x.loads, y.loads]
      · simp [x.stores, y.stores]
  · rw [if_pos hz, continueTransfer_eq (s := afterByte rx c s) hx hi]
    refine ⟨_, captureEvents rx c ++ [.load (memRead (moved c).data (afterByte rx c s))], rfl,
      ⟨rfl, rfl, rfl, rfl, rfl, ?_, ?_, ?_, ?_, ?_, ?_, fun hf => by cases hf⟩⟩
    · exact hT.trans (told_load hM.oneLine rfl rfl rfl rfl)
    · exact Mid.inv_busy (c := { moved c with remaining := (moved c).remaining - 1#_ }) (hM.congr rfl rfl rfl rfl rfl)
        he rfl hc ha hqv rfl hi hl
    · simp [c1, callbacksOf, held, callbacksDue, callbackDue, List.filterMap_cons, moved, afterByte, hc]
    · have hend : ended ((c.remaining - 1#_).toNat + 1) { moved c with remaining := c.remaining - 1#_ } =
          ended (c.remaining.toNat + 1) c := by
        rw [count_pred hz, ended_succ]
        rfl
      simp only [releasesOf_append, c2, releasesOf, releasesDue, Option.map_some, Option.toList_some, List.nil_append]
      exact congrArg (· :: s.q.map releaseDue) hend
    · simp [c3, loadsOf]
    · simp [storesOf]

/-! ### SUBMIT (R141) -/

/-- A list of `Release` events. -/
theorem releaseAll_eq (ds : List (Desc W)) (s : State W) :
    releaseAll ds s = { s with trace := s.trace ++ ds.map Event.release } := by
  induction ds generalizing s with
  | nil => simp [releaseAll]
  | cons d ds ih => rw [releaseAll, ih]; simp [release, emit]

theorem releases_say (ds : List (Desc W)) :
    callbacksOf (ds.map Event.release) = [] ∧ releasesOf (ds.map Event.release) = ds ∧
      loadsOf (ds.map Event.release) = [] ∧ storesOf (ds.map Event.release) = [] := by
  induction ds with
  | nil => exact ⟨rfl, rfl, rfl, rfl⟩
  | cons d ds ih => exact ⟨ih.1, congrArg (d :: ·) ih.2.1, ih.2.2.1, ih.2.2.2⟩

theorem told_releases {P : Params W} {s : State W} (h : oneLine P s.lvl) (ds : List (Desc W)) :
    Told P s (releaseAll ds s) (ds.map Event.release) := by
  induction ds generalizing s with
  | nil => exact Told.silent h rfl rfl rfl rfl
  | cons d ds ih => exact (told_release h d).trans (ih (s := release d s) h)

/-- `ENQUEUE` of descriptors that fit: none answers `Full` (R141: "cannot fail now"). -/
theorem enqueueAll_eq {P : Params W} {ds : List (Desc W)} {s : State W} (h : s.q.length + ds.length ≤ P.qcap) :
    enqueueAll P ds s = { s with q := s.q ++ ds } := by
  induction ds generalizing s with
  | nil => simp [enqueueAll]
  | cons d ds ih =>
    simp only [List.length_cons] at h
    have hne : ¬ isFull P s := fun hf => by
      have : s.q.length = P.qcap := hf
      omega
    simp only [enqueueAll, enqueue, if_neg hne]
    rw [ih (by simp; omega)]
    simp

/-- `SUBMIT` without room: everything submitted is released, nothing else changes (R141, R179). -/
theorem submit_overflow {P : Params W} {ds : List (Desc W)} {s : State W} (h : freeSlots P s < ds.length) :
    submit P ds s = .next (.bufferOverflow, { s with trace := s.trace ++ ds.map Event.release }) := by
  rw [submit, if_pos h, releaseAll_eq]

theorem room_length {P : Params W} {ds : List (Desc W)} {s : State W} (h : ¬ freeSlots P s < ds.length) (hne : ds ≠ []) :
    s.q.length + ds.length ≤ P.qcap := by
  have : 0 < ds.length := List.length_pos_of_ne_nil hne
  unfold freeSlots at h
  omega

/-- `SUBMIT` with room while BUSY: everything is appended to the queue and nothing else happens (R142 corner case (a)). -/
theorem submit_busy {P : Params W} {ds : List (Desc W)} {s : State W} (h : ¬ freeSlots P s < ds.length) (hne : ds ≠ [])
    (he : s.engine = .busy) : submit P ds s = .next (.ok, { s with q := s.q ++ ds }) := by
  rw [submit, if_neg h, enqueueAll_eq (room_length h hne)]
  simp [kick, he]

/-- `SUBMIT` with room while IDLE: START_NEXT over the queue and what was submitted (R111). -/
theorem submit_idle {P : Params W} {ds : List (Desc W)} {s : State W} (h : ¬ freeSlots P s < ds.length) (hne : ds ≠ [])
    (he : s.engine = .idle) :
    submit P ds s = startLoop P .foreground (s.q ++ ds) .ok { s with q := s.q ++ ds } := by
  rw [submit, if_neg h, enqueueAll_eq (room_length h hne)]
  simp [kick, he, startNext]

/-- What `SUBMIT` can do from a state that meets the invariant. -/
structure Submitted (P : Params W) (ds acc : List (Desc W)) (s t : State W) (evs : List (Event W)) : Prop where
  quiet : Quiet s t
  told : Told P s t evs
  inv : Inv P t
  callbacks : callbacksOf evs ++ callbacksDue (held t) = callbacksDue (held s ++ acc)
  loads : loadsOf evs = if s.engine = .idle ∧ t.xip = true then [t.txr] else []
  stores : storesOf evs = []
  releases : acc = ds → releasesOf evs ++ releasesDue t = releasesDue s ++ ds.map releaseDue
  txr : s.engine = .busy ∨ t.xip = false → t.txr = s.txr
  rejected : acc ≠ ds → evs = ds.map Event.release ∧ t = { s with trace := s.trace ++ ds.map Event.release }

theorem submit_spec {P : Params W} {ds : List (Desc W)} {s : State W} (h : Inv P s) (hne : ds ≠ [])
    (hds : ∀ d ∈ ds, deviceOk P d.device) :
    ∃ code t evs, submit P ds s = .next (code, t) ∧
      Submitted P ds (if freeSlots P s < ds.length then [] else ds) s t evs := by
  by_cases hroom : freeSlots P s < ds.length
  · obtain ⟨r1, r2, r3, r4⟩ := releases_say ds
    have hI : Inv P { s with trace := s.trace ++ ds.map Event.release } :=
      ⟨h.idle_iff, h.queue_bounded, h.queue_valid, h.current_active, h.active_valid, h.active_output, h.busy_iff, h.busy_current,
          h.one_exchange, h.busy_asserted, h.idle_deasserted, h.only_active_line, h.mem_wf⟩
    have hT := told_releases h.mid.oneLine ds
    rw [releaseAll_eq] at hT
    refine ⟨_, _, ds.map Event.release, submit_overflow hroom, ?_⟩
    rw [if_pos hroom]
    refine ⟨⟨rfl, rfl, rfl, rfl, rfl, rfl⟩, hT, hI, ?_, ?_, r4, fun hn => absurd hn.symm hne, fun _ => rfl,
      fun _ => ⟨rfl, rfl⟩⟩
    · simp [r1, held]
    · rw [r3, if_neg]
      rintro ⟨he, hx⟩
      have hb := h.busy_iff.2 (.inl hx)
      rw [he] at hb
      cases hb
  · have hlen := room_length hroom hne
    rw [if_neg hroom]
    rcases he : s.engine with _ | _
    · -- IDLE
      obtain ⟨hq, hc⟩ := h.idle_iff.1 he
      have hnb : ¬ (s.xip = true ∨ s.ifrIF = true) := fun hb => by
        have := h.busy_iff.2 hb
        rw [he] at this
        cases this
      have hx : s.xip = false := by cases hx : s.xip <;> simp_all
      have hi : s.ifrIF = false := by cases hi : s.ifrIF <;> simp_all
      have hm : Mid P { s with q := s.q ++ ds } :=
        ⟨by simpa [hq] using hds, h.active_valid, h.active_output, h.only_active_line, h.mem_wf⟩
      obtain ⟨code, t, evs, hS, x⟩ := startLoop_spec (ctx := .foreground) (ds := ds) (res := .ok) hm hne hds
        (by omega) hx hi
      have hsub := submit_idle hroom hne he
      rw [hq, List.nil_append] at hsub
      have hT : Told P s t evs := by
        have := (Told.silent (t := { s with q := s.q ++ ds }) h.mid.oneLine rfl rfl rfl rfl).trans x.told
        simpa using this
      refine ⟨code, t, evs, by rw [hsub, ← hS, hq, List.nil_append],
        ⟨⟨x.quiet.rxr, x.quiet.ifrIF, x.quiet.ctrlIE, x.quiet.cfg, x.quiet.mem, x.quiet.script⟩, hT, x.inv, ?_, ?_,
          x.stores, fun _ => ?_, fun hh => x.txr (hh.resolve_left (by simp [he])), fun hn => absurd rfl hn⟩⟩
      · rw [x.callbacks]; simp [held, hc, hq]
      · rw [x.loads]; simp [he]
      · rw [x.releases]; simp [releasesDue, hc, hq]
    · -- BUSY
      have hI : Inv P { s with q := s.q ++ ds } := by
        refine ⟨⟨fun h' => (by simp [he] at h'), fun h' => absurd h'.1 (by simp [hne])⟩, by simpa using hlen,
          fun d hd => ?_, h.current_active, h.active_valid, h.active_output, h.busy_iff, h.busy_current,
          h.one_exchange, h.busy_asserted, h.idle_deasserted, h.only_active_line, h.mem_wf⟩
        rcases List.mem_append.1 hd with hd | hd
        · exact h.queue_valid d hd
        · exact hds d hd
      refine ⟨_, _, [], submit_busy hroom hne he, ⟨⟨rfl, rfl, rfl, rfl, rfl, rfl⟩,
        Told.silent h.mid.oneLine rfl rfl rfl rfl, hI, ?_, ?_, rfl, fun _ => ?_, fun _ => rfl, fun hn => absurd rfl hn⟩⟩
      · simp [held, callbacksOf]
      · simp [he, loadsOf]
      · simp [releasesDue, releasesOf]

end Sys2Proof.Machine
end

