-- ==== Sys2Proof/Laws/Devices.lean ====
section
/-!
SUPPORT. Devices under a cursor (R45 of 20_memory.md): what `refuseDevices` can answer, and that it answers as it was
answered where the platform maps no device.
-/

namespace Sys2Proof.Machine

variable {W : Widths}

theorem onDevice_iff {P : Params W} {a : Addr W} :
    onDevice P a = true ↔ ∃ w ∈ P.devices, w.first ≤ a ∧ a ≤ w.last := by
  simp [onDevice]

theorem cursorOnDevice_iff {P : Params W} {c : Desc W} :
    cursorOnDevice P c = true ↔
      onDevice P c.data = true ∨ includesRead c.mode = true ∧ ∃ a, c.capture = some a ∧ onDevice P a = true := by
  cases h : c.capture <;> simp [cursorOnDevice, h]

/-- A next state gets through exactly where no cursor of its current descriptor is on a device. -/
theorem refuseDevices_eq_next {P : Params W} {r : Answer (State W)} {t : State W} :
    refuseDevices P r = .next t ↔ r = .next t ∧ noDevice P t := by
  cases r with
  | next u =>
    simp only [refuseDevices, andThen_next]
    split
    · rename_i h
      exact ⟨fun k => ⟨k, by cases k; simp [noDevice, h]⟩, fun k => k.1⟩
    · rename_i c h
      split
      · rename_i hd
        refine ⟨fun k => (nomatch k), ?_⟩
        rintro ⟨k, hn⟩
        cases k
        exact absurd hd (hn c h)
      · rename_i hd
        exact ⟨fun k => ⟨k, by cases k; intro c' hc'; rw [h] at hc'; cases hc'; exact hd⟩, fun k => k.1⟩
  | fault f => exact ⟨fun k => (nomatch k), fun k => (nomatch k.1)⟩
  | refused e => exact ⟨fun k => (nomatch k), fun k => (nomatch k.1)⟩

theorem refuseDevices_next {P : Params W} {t : State W} (h : noDevice P t) : refuseDevices P (.next t) = .next t :=
  refuseDevices_eq_next.2 ⟨rfl, h⟩

@[simp] theorem refuseDevices_fault (P : Params W) (f : Fault) : refuseDevices P (.fault f) = .fault f := rfl

@[simp] theorem refuseDevices_refused (P : Params W) (e : Refusal) : refuseDevices P (.refused e) = .refused e := rfl

theorem refuseDevices_collides {P : Params W} {t : State W} (h : ¬ noDevice P t) :
    refuseDevices P (.next t) = .refused .deviceUnderCursor := by
  simp only [refuseDevices, andThen_next]
  split
  · rename_i hc
    exact absurd (by simp [noDevice, hc]) h
  · rename_i c hc
    rw [if_pos]
    by_contra hd
    exact h fun c' hc' => by rw [hc] at hc'; cases hc'; exact hd

/-- Without device windows no cursor is on a device. -/
theorem noDevice_of_empty {P : Params W} (h : P.devices = []) (s : State W) : noDevice P s := by
  intro c _ hd
  simp [cursorOnDevice_iff, onDevice_iff, h] at hd

theorem refuseDevices_of_empty {P : Params W} (h : P.devices = []) (r : Answer (State W)) : refuseDevices P r = r := by
  cases r with
  | next t => exact refuseDevices_next (noDevice_of_empty h t)
  | fault f => rfl
  | refused e => rfl

/-- The reference platform maps no device. -/
@[simp] theorem refuseDevices_params (r : Answer State) : refuseDevices Config.params r = r :=
  refuseDevices_of_empty rfl r

end Sys2Proof.Machine
end

