-- ==== Sys2Proof/Laws/Steps.lean ====
section
/-!
SUPPORT. The operations as calls of the procedures of Laws/Start.lean and Laws/Handler.lean, what an IDLE and a BUSY state
that meets the invariant hold, and what starts and submissions leave alone in any state.
-/

namespace Sys2Proof.Machine

variable {W : Widths}

/-! ### The invariant, read off -/

/-- The invariant depends on nine fields. -/
theorem Inv.congr {P : Params W} {s t : State W} (h : Inv P s) (he : t.engine = s.engine) (hc : t.cur = s.cur)
    (ha : t.active = s.active) (hq : t.q = s.q) (hd : t.dir = s.dir) (hl : t.lvl = s.lvl) (hx : t.xip = s.xip)
    (hi : t.ifrIF = s.ifrIF) (hm : t.mem = s.mem) : Inv P t where
  idle_iff := by rw [he, hc, hq]; exact h.idle_iff
  queue_bounded := by rw [hq]; exact h.queue_bounded
  queue_valid := by rw [hq]; exact h.queue_valid
  current_active := by rw [hc, ha]; exact h.current_active
  active_valid := by rw [ha]; exact h.active_valid
  active_output := by rw [ha, hd]; exact h.active_output
  busy_iff := by rw [he, hx, hi]; exact h.busy_iff
  busy_current := by rw [he, hc]; exact h.busy_current
  one_exchange := by rw [hx, hi]; exact h.one_exchange
  busy_asserted := by rw [he, ha]; unfold asserted; rw [hd, hl]; exact h.busy_asserted
  idle_deasserted := by rw [he, ha]; unfold asserted; rw [hd, hl]; exact h.idle_deasserted
  only_active_line := by rw [ha, hl]; exact h.only_active_line
  mem_wf := by rw [hm]; exact h.mem_wf

/-- What IDLE means in a state that meets the invariant. -/
theorem Inv.idle {P : Params W} {s : State W} (h : Inv P s) (he : s.engine = .idle) :
    s.q = [] ∧ s.cur = none ∧ s.xip = false ∧ s.ifrIF = false := by
  obtain ⟨hq, hc⟩ := h.idle_iff.1 he
  have hn : ¬ (s.xip = true ∨ s.ifrIF = true) := fun hb => by
    have := h.busy_iff.2 hb
    rw [he] at this; cases this
  simp only [not_or, Bool.not_eq_true] at hn
  exact ⟨hq, hc, hn.1, hn.2⟩

/-- What a current descriptor means in a state that meets the invariant. -/
theorem Inv.current {P : Params W} {s : State W} {c : Desc W} (h : Inv P s) (hc : s.cur = some c) :
    s.engine = .busy ∧ ∃ a, c.device = some a ∧ s.active = some a ∧ asserted P a s := by
  have he : s.engine = .busy := by
    cases he : s.engine with
    | busy => rfl
    | idle => have := (h.idle_iff.1 he).2; rw [hc] at this; cases this
  obtain ⟨h1, -, h3⟩ := h.current_active c hc
  obtain ⟨a, ha⟩ := Option.isSome_iff_exists.1 h1
  exact ⟨he, a, ha, h3.trans ha, h.busy_asserted he a (h3.trans ha)⟩

/-! ### Submitting operations (R141 to R144) -/

theorem wellFormed_iff_submitted {P : Params W} {i : Instr W} (h : submitted i ≠ []) :
    i.wellFormed P ↔ ∀ d ∈ submitted i, deviceOk P d.device := by
  cases i <;> simp [submitted] at h ⊢ <;> simp [Instr.wellFormed, writeDesc, readDesc, commandDesc, tag]

theorem execAt_submitOp {P : Params W} {i : Instr W} {s : State W} (h : submitted i ≠ []) :
    execAt P i s = submitOp P (submitted i) s := by
  cases i <;> simp [submitted] at h ⊢ <;> rfl

theorem execAt_submit {P : Params W} {i : Instr W} {s : State W} (h : submitted i ≠ []) (hw : i.wellFormed P) :
    execAt P i s = refuseDevices P (andThen (submit P (submitted i) s) fun x => .next (endWith x.1 x.2)) := by
  rw [execAt_submitOp h, submitOp, if_pos ((wellFormed_iff_submitted h).1 hw)]

/-- A submission from an IDLE state that meets the invariant is START_NEXT over what was submitted. -/
theorem Inv.submit_idle {P : Params W} {ds : List (Desc W)} {s : State W} (h : Inv P s) (he : s.engine = .idle) (hne : ds ≠ [])
    (hl : ds.length ≤ P.qcap) : submit P ds s = startLoop P .foreground ds .ok { s with q := ds } := by
  obtain ⟨hq, -⟩ := h.idle he
  rw [Machine.submit_idle (by unfold freeSlots; rw [hq]; simp only [List.length_nil]; omega) hne he, hq]
  rfl

/-! ### The handler (R115) -/

@[simp] theorem andThen_self {α : Type} (r : Answer α) : andThen r (fun x => .next x) = r := by cases r <;> rfl

theorem xferComplete_eq {P : Params W} {s : State W} {c : Desc W} (h : handlerEnabled s) (hc : s.cur = some c) :
    execAt P .xferComplete s = refuseDevices P (handleByte P s.rxr c { s with ifrIF := false }) := by
  simp only [execAt, xferCompleteAt, runHandler, if_pos h, enterHandler, hc]
  exact congrArg _ (andThen_self _)

/-- At the last byte the handler ends the descriptor and goes on with the queue. -/
theorem xferComplete_last {P : Params W} {s : State W} {c : Desc W} (h : handlerEnabled s) (hc : s.cur = some c)
    (hr : c.remaining = 0#_) :
    execAt P .xferComplete s =
      refuseDevices P (andThen (exhausted P (moved c) (afterByte s.rxr c { s with ifrIF := false })) fun x =>
        if x.1 then andThen (startNext P .interrupt x.2) fun y => .next y.2 else .next x.2) := by
  rw [xferComplete_eq h hc, handleByte_eq, if_neg (by simpa using hr)]

@[simp] theorem memoryAfter_storeEvents (ws : List (Addr W × Byte)) (m : Memory) :
    memoryAfter (storeEvents ws) m = storeAll ws m := by
  induction ws generalizing m with
  | nil => rfl
  | cons w ws ih => exact ih _

theorem captureEvents_eq (rx : Byte) (c : Desc W) : captureEvents rx c = storeEvents (capturesOf c [rx]) := by
  unfold captureEvents capturesOf
  cases c.capture with
  | none => rfl
  | some a => dsimp only; split <;> rfl

/-! ### What starts and submissions leave alone, in any state -/

/-- `Quiet`, and `CTRL.MSTR` is not cleared. -/
structure Kept (s t : State W) : Prop extends Quiet s t where
  ctrlMSTR : s.ctrlMSTR = true → t.ctrlMSTR = true

theorem Kept.trans {s t u : State W} (h : Kept s t) (k : Kept t u) : Kept s u :=
  ⟨h.toQuiet.trans k.toQuiet, fun x => k.ctrlMSTR (h.ctrlMSTR x)⟩

theorem Kept.of {s t : State W} (hr : t.rxr = s.rxr) (hi : t.ifrIF = s.ifrIF) (he : t.ctrlIE = s.ctrlIE)
    (hc : t.cfg = s.cfg) (hm : t.mem = s.mem) (hs : t.script = s.script) (hM : t.ctrlMSTR = s.ctrlMSTR) : Kept s t :=
  ⟨⟨hr, hi, he, hc, hm, hs⟩, fun h => by rw [hM]; exact h⟩

theorem kept_turn (P : Params W) (dev : Device W) (s : State W) : Kept s (activate dev (switchGuard P dev s)) := by
  have h := turned P dev s
  refine ⟨⟨h.rxr, h.ifrIF, h.ctrlIE, h.cfg, h.mem, h.script⟩, fun hm => ?_⟩
  have : (switchGuard P dev s).ctrlMSTR = s.ctrlMSTR := by
    rcases switchGuard_cases P dev s with e | ⟨a, -, -, -, e⟩ <;> rw [e]; rfl
  unfold activate; split
  · rw [this]; exact hm
  · rfl

theorem kept_exhausted {P : Params W} {c : Desc W} {s t : State W} {more : Bool} (h : exhausted P c s = .next (more, t)) :
    Kept s t := by
  rcases ha : s.active with _ | a
  · rw [exhausted_no_active ha] at h; cases h
  · by_cases hq : s.q = []
    · rw [exhausted_last ha hq] at h; cases h; exact .of rfl rfl rfl rfl rfl rfl rfl
    · by_cases hm : c.mode = .readWrite
      · rw [exhausted_held ha hq hm] at h; cases h; exact .of rfl rfl rfl rfl rfl rfl rfl
      · rw [exhausted_chained ha hq hm] at h; cases h; exact .of rfl rfl rfl rfl rfl rfl rfl

theorem kept_startPass {P : Params W} {ctx : Context} {d : Desc W} {s t : State W} {more : Bool}
    (h : startPass P ctx d s = .next (more, t)) : Kept s t := by
  unfold startPass at h
  rcases hd : d.device with _ | dev
  · simp only [hd] at h
    rw [dropNullDevice_eq] at h
    split at h
    · cases h
      unfold releaseLine; dsimp only; split <;> (try split) <;> exact .of rfl rfl rfl rfl rfl rfl rfl
    · cases h; exact .of rfl rfl rfl rfl rfl rfl rfl
  · simp only [hd] at h
    have h0 : Kept s (setCur d s) := .of rfl rfl rfl rfl rfl rfl rfl
    have ht := h0.trans (kept_turn P dev (setCur d s))
    split at h
    · exact ht.trans (kept_exhausted h)
    · obtain ⟨u, hu, hk⟩ := andThen_eq_next h
      cases hk
      unfold startExchange at hu
      obtain ⟨v, hv, hk⟩ := andThen_eq_next hu
      cases hk
      unfold load at hv; split at hv
      · cases hv
      · cases hv; exact ht.trans (.of rfl rfl rfl rfl rfl rfl rfl)

theorem kept_startLoop {P : Params W} {ctx : Context} {ds : List (Desc W)} {res code : ResultCode} {s t : State W}
    (h : startLoop P ctx ds res s = .next (code, t)) : Kept s t := by
  induction ds generalizing res s with
  | nil => cases h
  | cons d rest ih =>
    unfold startLoop at h
    have h0 : Kept s { s with q := rest } := .of rfl rfl rfl rfl rfl rfl rfl
    split at h
    · cases h
    · cases h
    · cases h; rename_i hp; exact h0.trans (kept_startPass hp)
    · rename_i hp; exact h0.trans ((kept_startPass hp).trans (ih h))

/-- Enqueueing touches the queue only. -/
theorem enqueueAll_only_q (P : Params W) (ds : List (Desc W)) (s : State W) : ∃ q, enqueueAll P ds s = { s with q := q } := by
  induction ds generalizing s with
  | nil => exact ⟨s.q, rfl⟩
  | cons d ds ih =>
    unfold enqueueAll
    obtain ⟨q, hq⟩ := ih (enqueue P d s).2
    rw [hq]; unfold enqueue; split <;> exact ⟨q, rfl⟩

theorem kept_submit {P : Params W} {ds : List (Desc W)} {s t : State W} {code : ResultCode}
    (h : submit P ds s = .next (code, t)) :
    Kept s t ∧ (s.engine = .busy → t = { s with q := t.q, trace := t.trace }) := by
  unfold submit at h
  split at h
  · rw [releaseAll_eq] at h; cases h; exact ⟨.of rfl rfl rfl rfl rfl rfl rfl, fun _ => rfl⟩
  · obtain ⟨q, hq⟩ := enqueueAll_only_q P ds s
    rw [hq] at h
    unfold kick at h
    rcases he : s.engine with _ | _
    · simp only [he, startNext] at h
      rw [← he] at h
      exact ⟨(Kept.of rfl rfl rfl rfl rfl rfl rfl : Kept s { s with q := q }).trans (kept_startLoop h),
        fun hb => by cases hb⟩
    · simp only [he] at h; cases h
      exact ⟨.of rfl rfl rfl rfl rfl rfl rfl, fun _ => by simp⟩

end Sys2Proof.Machine
end

