-- ==== Sys2Proof/Laws/Exchange.lean ====
section
/-!
SUPPORT. One exchange (R77 of 30_encoding.md: `XFER rx`) with bytes left, and the arithmetic of cursors and stores over
several (R182 of 50_invariants.md).
-/

namespace Sys2Proof.Machine

variable {W : Widths}

theorem runAt_append (P : Params W) (a b : List (Instr W)) (s : State W) :
    runAt P (a ++ b) s = andThen (runAt P a s) (runAt P b) := by
  induction a generalizing s with
  | nil => rfl
  | cons i a ih => simp only [List.cons_append, runAt]; cases execAt P i s <;> simp [ih]

/-- The descriptor after one exchange that is not its last. -/
def stepped (c : Desc W) : Desc W := { moved c with remaining := c.remaining - 1#_ }

theorem xfer_eq {P : Params W} {rx : Byte} {s : State W} {c : Desc W} (hx : s.xip = true) (he : s.ctrlIE = true)
    (hc : s.cur = some c) (hr : c.remaining ≠ 0#_) (hd : ¬ cursorOnDevice P (stepped c)) :
    runAt P (xfer rx) s =
      .next { s with
        xip := true, ifrIF := false, rxr := rx, cur := some (stepped c), mem := storeAll (capturesOf c [rx]) s.mem,
        txr := Memory.byteAt (storeAll (capturesOf c [rx]) s.mem) (nextAddr c.data),
        trace := s.trace ++ storeEvents (capturesOf c [rx]) ++
          [.load (Memory.byteAt (storeAll (capturesOf c [rx]) s.mem) (nextAddr c.data))] } := by
  simp only [xfer, runAt, execAt, execShiftDone, if_pos hx, andThen_next]
  rw [show xferCompleteAt P (completeExchange rx s) = execAt P .xferComplete (completeExchange rx s) from rfl,
    xferComplete_eq (s := completeExchange rx s) (c := c) ⟨rfl, he⟩ hc, handleByte_eq, if_pos hr,
    continueTransfer_eq rfl rfl, refuseDevices_next fun c' hc' => by cases hc'; exact hd]
  simp [moved, stepped, afterByte, completeExchange, captureEvents_eq, memRead]

theorem afterExchanges_succ (c : Desc W) (n : Nat) : afterExchanges (n + 1) c = afterExchanges n (stepped c) := by
  unfold afterExchanges stepped moved
  simp only [addr_succ]
  congr 1
  · rw [BitVec.ofNat_add, BitVec.add_comm]; ring
  · by_cases h : includesRead c.mode = true
    · cases c.capture <;> simp [h]
    · simp [h]

theorem capturesOf_take (c : Desc W) (rx : Byte) (rxs : List Byte) (j : Nat) :
    (capturesOf c (rx :: rxs)).take (j + 1) = capturesOf c [rx] ++ (capturesOf (stepped c) rxs).take j := by
  unfold capturesOf stepped moved
  cases c.capture with
  | none => simp
  | some a => by_cases h : includesRead c.mode = true <;> simp [h, storesFrom]

theorem capturesOf_cons (c : Desc W) (rx : Byte) (rxs : List Byte) :
    capturesOf c (rx :: rxs) = capturesOf c [rx] ++ capturesOf (stepped c) rxs := by
  unfold capturesOf stepped moved
  cases c.capture with
  | none => simp
  | some a => by_cases h : includesRead c.mode = true <;> simp [h, storesFrom]

theorem storeAll_append (a b : List (Addr W × Byte)) (m : Memory) : storeAll (a ++ b) m = storeAll b (storeAll a m) := by
  induction a generalizing m with
  | nil => rfl
  | cons w a ih => exact ih _

theorem storeEvents_say (ws : List (Addr W × Byte)) :
    storesOf (storeEvents ws) = ws ∧ callbacksOf (storeEvents ws) = [] ∧ releasesOf (storeEvents ws) = [] ∧
      loadsOf (storeEvents ws) = [] ∧
      ∀ p, Event.selAssert p ∉ storeEvents ws ∧ Event.selDeassert p ∉ storeEvents ws := by
  induction ws with
  | nil => simp [storeEvents, storesOf, callbacksOf, releasesOf, loadsOf]
  | cons w ws ih =>
    obtain ⟨h1, h2, h3, h4, -⟩ := ih
    exact ⟨congrArg (w :: ·) h1, h2, h3, h4, fun p => by simp [storeEvents]⟩

end Sys2Proof.Machine
end

