-- ==== Sys2Proof/Laws/PerInstr.lean ====
section
/-!
SUPPORT. Statements made of every instruction as syntax, one lemma a constructor: the canonical packet is as long as its
opcode says (R71 of 30_encoding.md).
-/

namespace Sys2Proof.Laws

/-- The canonical packet of `i` begins with its opcode and has the length the opcode gives. -/
def EncodeLength.Statement (i : Instr) : Prop :=
  (encode i).head? = some i.opcode ∧ packetLength i.opcode = some (encode i).length

theorem EncodeLength.init (cfg : BusConfig) : EncodeLength.Statement (.init cfg) := ⟨rfl, rfl⟩
theorem EncodeLength.createDevice (dev : Device) : EncodeLength.Statement (.createDevice dev) := ⟨rfl, rfl⟩
theorem EncodeLength.releaseDevice (dev : Device) : EncodeLength.Statement (.releaseDevice dev) := ⟨rfl, rfl⟩
theorem EncodeLength.write (d : Request) (capture : Option Addr) : EncodeLength.Statement (.write d capture) :=
  ⟨rfl, rfl⟩
theorem EncodeLength.read (d : Request) (cap : Addr) : EncodeLength.Statement (.read d cap) := ⟨rfl, rfl⟩
theorem EncodeLength.readWrite (w : Request) (wcapture : Option Addr) (r : Request) (cap : Addr) :
    EncodeLength.Statement (.readWrite w wcapture r cap) := ⟨rfl, rfl⟩
theorem EncodeLength.flush : EncodeLength.Statement .flush := ⟨rfl, rfl⟩
theorem EncodeLength.shiftDone (rx : Byte) : EncodeLength.Statement (.shiftDone rx) := ⟨rfl, rfl⟩
theorem EncodeLength.xferComplete : EncodeLength.Statement .xferComplete := ⟨rfl, rfl⟩

end Sys2Proof.Laws
end

