-- ==== Sys2Proof/Laws/Unread.lean ====
section
/-!
SUPPORT. What no rule reads (R21, R22 of 10_state.md, U12): each procedure, run from two states that differ only in `TXR`,
`CTRL.MSTR`, `CFG`, the trace and the script, answers alike, emits the same events, and leaves two such states.
-/

namespace Sys2Proof.Machine

variable {W : Widths}

/-- From `s` to `t` and from `s'` to `t'` the same happened, as far as any rule can tell; an unread register that was the
same in `s` and `s'` is the same in `t` and `t'`. -/
structure After (s s' t t' : State W) : Prop where
  same : SameButUnread t t'
  txr : s'.txr = s.txr → t'.txr = t.txr
  mstr : s'.ctrlMSTR = s.ctrlMSTR → t'.ctrlMSTR = t.ctrlMSTR
  cfg : s'.cfg = s.cfg → t'.cfg = t.cfg
  script : s'.script = s.script → t'.script = t.script
  tr : ∃ evs, t.trace = s.trace ++ evs ∧ t'.trace = s'.trace ++ evs

theorem After.refl {s s' : State W} (h : SameButUnread s s') : After s s' s s' :=
  ⟨h, id, id, id, id, [], by simp, by simp⟩
theorem After.trans {s s' t t' u u' : State W} (h : After s s' t t') (k : After t t' u u') : After s s' u u' := by
  obtain ⟨e1, a1, b1⟩ := h.tr
  obtain ⟨e2, a2, b2⟩ := k.tr
  exact ⟨k.same, fun x => k.txr (h.txr x), fun x => k.mstr (h.mstr x), fun x => k.cfg (h.cfg x),
    fun x => k.script (h.script x), e1 ++ e2, by rw [a2, a1]; simp, by rw [b2, b1]; simp⟩

/-- A procedure that only changes the state. -/
def Follows (f : State W → State W) : Prop := ∀ s s', SameButUnread s s' → After s s' (f s) (f s')
/-- One after the other. -/
theorem Follows.comp {f g : State W → State W} (hf : Follows f) (hg : Follows g) :
    Follows (fun s => g (f s)) := fun s s' h =>
  (hf s s' h).trans (hg _ _ (hf s s' h).same)

theorem follows_emit (e : Event W) : Follows (emit e) := fun _ _ h =>
  ⟨⟨h.engine, h.cur, h.active, h.q, h.dir, h.lvl, h.rxr, h.xip, h.ifrIF, h.ctrlIE, h.mem⟩, id, id, id, id, [e],
    rfl, rfl⟩
theorem follows_setCur (c : Desc W) : Follows (setCur c) := fun s s' h =>
  ⟨⟨h.engine, rfl, h.active, h.q, h.dir, h.lvl, h.rxr, h.xip, h.ifrIF, h.ctrlIE, h.mem⟩, id, id, id, id, [],
    by simp, by simp⟩
theorem follows_clearCur : Follows (clearCur (W := W)) := fun s s' h =>
  ⟨⟨h.engine, rfl, h.active, h.q, h.dir, h.lvl, h.rxr, h.xip, h.ifrIF, h.ctrlIE, h.mem⟩, id, id, id, id, [],
    by simp, by simp⟩
theorem follows_setEngine (v : EngineState) : Follows (setEngine (W := W) v) := fun s s' h =>
  ⟨⟨rfl, h.cur, h.active, h.q, h.dir, h.lvl, h.rxr, h.xip, h.ifrIF, h.ctrlIE, h.mem⟩, id, id, id, id, [], by simp,
    by simp⟩
theorem follows_q (q : List (Desc W)) : Follows (fun s => { s with q := q }) := fun s s' h =>
  ⟨⟨h.engine, h.cur, h.active, rfl, h.dir, h.lvl, h.rxr, h.xip, h.ifrIF, h.ctrlIE, h.mem⟩,
    id, id, id, id, [], by simp, by simp⟩
theorem follows_deassert (P : Params W) (dev : Device W) : Follows (deassertLine P dev) := fun s s' h =>
  ⟨⟨h.engine, h.cur, h.active, h.q, h.dir, by simp [h.lvl], h.rxr, h.xip, h.ifrIF, h.ctrlIE, h.mem⟩, id, id, id,
    id, [_], rfl, rfl⟩
theorem follows_assert (P : Params W) (dev : Device W) : Follows (assertLine P dev) := fun s s' h =>
  ⟨⟨h.engine, h.cur, h.active, h.q, h.dir, by simp [h.lvl], h.rxr, h.xip, h.ifrIF, h.ctrlIE, h.mem⟩, id, id, id,
    id, [_], rfl, rfl⟩
theorem follows_memWrite (a : Addr W) (v : Byte) : Follows (memWrite a v) := fun s s' h =>
  ⟨⟨h.engine, h.cur, h.active, h.q, h.dir, h.lvl, h.rxr, h.xip, h.ifrIF, h.ctrlIE, by simp [h.mem]⟩, id, id, id,
    id, [_], rfl, rfl⟩

theorem asserted_same {P a} {s s' : State W} (h : SameButUnread s s') : asserted P a s' ↔ asserted P a s := by
  unfold asserted; rw [h.dir, h.lvl]

theorem follows_switchGuard (P : Params W) (dev : Device W) : Follows (switchGuard P dev) := by
  intro s s' h
  unfold switchGuard
  rw [h.active]
  cases ha : s.active with
  | none => exact .refl h
  | some a =>
    dsimp only
    by_cases hc : a ≠ dev ∧ asserted P a s
    · rw [if_pos hc, if_pos ⟨hc.1, (asserted_same h).2 hc.2⟩]; exact follows_deassert P a s s' h
    · rw [if_neg hc, if_neg (fun k => hc ⟨k.1, (asserted_same h).1 k.2⟩)]; exact .refl h

theorem follows_activate (dev : Device W) : Follows (activate dev) := by
  intro s s' h
  unfold activate
  rw [h.active]
  split
  · exact .refl h
  · exact ⟨⟨h.engine, h.cur, rfl, h.q, by simp [h.dir], h.lvl, h.rxr, h.xip, h.ifrIF, h.ctrlIE, h.mem⟩, id,
    fun _ => rfl, id, id, [.dirOut dev.dbit, .setMaster], by simp, by simp⟩

theorem follows_releaseLine (P : Params W) : Follows (releaseLine P) := by
  intro s s' h
  unfold releaseLine
  rw [h.active]
  cases ha : s.active with
  | none => exact .refl h
  | some a =>
    dsimp only
    by_cases hc : asserted P a s
    · rw [if_pos hc, if_pos ((asserted_same h).2 hc)]; exact follows_deassert P a s s' h
    · rw [if_neg hc, if_neg (fun k => hc ((asserted_same h).1 k))]; exact .refl h

/-- A procedure that answers a value and a state. -/
def FollowsAnswer {α : Type} (f : State W → Answer (α × State W)) : Prop :=
  ∀ s s', SameButUnread s s' → ∀ x t, f s = .next (x, t) → ∃ t', f s' = .next (x, t') ∧ After s s' t t'

/-- A procedure that answers a state. -/
def FollowsState (f : State W → Answer (State W)) : Prop :=
  ∀ s s', SameButUnread s s' → ∀ t, f s = .next t → ∃ t', f s' = .next t' ∧ After s s' t t'

theorem follows_load (b : Byte) : FollowsState (load (W := W) b) := by
  intro s s' h t ht
  unfold load at *
  rw [h.xip, h.ifrIF]
  split at ht
  · cases ht
  · rename_i hn; cases ht; rw [if_neg hn]
    exact ⟨_, rfl, ⟨⟨h.engine, h.cur, h.active, h.q, h.dir, h.lvl, h.rxr, rfl, rfl, h.ctrlIE, h.mem⟩, fun _ => rfl,
      id, id, id, [_], rfl, rfl⟩⟩

theorem follows_exhausted (P : Params W) (c : Desc W) : FollowsAnswer (exhausted P c) := by
  intro s s' h x t ht
  unfold exhausted at *
  have hf : ∀ s, fireCallback c s = (cleared c, (fireCallback c s).2) := fun s => by
    obtain ⟨x, hx⟩ := fireCallback_eq c s
    rw [hx]
  have hfn : Follows (fun s => (fireCallback c s).2) := by
    intro s s' h
    unfold fireCallback
    cases c.callback with
    | none => exact .refl h
    | some t => exact (follows_emit _ s s' h).trans (follows_setCur _ _ _ (follows_emit _ s s' h).same)
  rw [hf] at ht; rw [hf]
  have h1 := hfn s s' h
  dsimp only at ht h1 ⊢
  generalize (fireCallback c s).2 = u at *
  generalize (fireCallback c s').2 = u' at *
  rw [h1.same.active]
  cases ha : u.active with
  | none => simp only [ha] at ht; cases ht
  | some a =>
    simp only [ha] at ht ⊢
    have hemp : isEmpty u' ↔ isEmpty u := by unfold isEmpty; rw [h1.same.q]
    by_cases he : isEmpty u
    · rw [if_pos he] at ht; rw [if_pos (hemp.2 he)]; cases ht
      exact ⟨_, rfl,
        h1.trans ((((follows_emit (.release (cleared c))).comp follows_clearCur).comp (follows_deassert P a)).comp
          (follows_setEngine .idle) _ _ h1.same)⟩
    · rw [if_neg he] at ht; rw [if_neg (fun k => he (hemp.1 k))]; cases ht
      refine ⟨_, rfl, h1.trans ?_⟩
      split
      · exact ((follows_emit (.release (cleared c))).comp follows_clearCur) _ _ h1.same
      · exact (((follows_deassert P a).comp (follows_emit (.release (cleared c)))).comp follows_clearCur) _ _ h1.same

theorem follows_startPass (P : Params W) (ctx : Context) (d : Desc W) : FollowsAnswer (startPass P ctx d) := by
  intro s s' h x t ht
  unfold startPass at *
  have h0 := follows_setCur d s s' h
  cases hd : d.device with
  | none =>
    simp only [hd] at *
    rw [dropNullDevice_eq] at ht ⊢
    have hemp : isEmpty (setCur d s') ↔ isEmpty (setCur d s) := by unfold isEmpty; simp [h.q]
    have hn : After s s'
        { setCur d s with cur := none, trace := (setCur d s).trace ++ nullEvents ctx d }
        { setCur d s' with cur := none, trace := (setCur d s').trace ++ nullEvents ctx d } :=
      ⟨⟨h.engine, rfl, h.active, h.q, h.dir, h.lvl, h.rxr, h.xip, h.ifrIF, h.ctrlIE, h.mem⟩, id, id, id, id,
        nullEvents ctx d, rfl, rfl⟩
    by_cases he : isEmpty (setCur d s)
    · rw [if_pos he] at ht; rw [if_pos (hemp.2 he)]; cases ht
      exact ⟨_, rfl, hn.trans (((follows_releaseLine P).comp (follows_setEngine .idle)) _ _ hn.same)⟩
    · rw [if_neg he] at ht; rw [if_neg (fun k => he (hemp.1 k))]; cases ht
      exact ⟨_, rfl, hn⟩
  | some dev =>
    simp only [hd] at *
    have ht2 := h0.trans (((follows_switchGuard P dev).comp (follows_activate dev)) _ _ h0.same)
    split at ht
    · rename_i hz; rw [if_pos hz]
      obtain ⟨t', k1, k2⟩ := follows_exhausted P d _ _ ht2.same x t ht
      exact ⟨t', k1, ht2.trans k2⟩
    · rename_i hz; rw [if_neg hz]
      obtain ⟨u, hu, hk⟩ := andThen_eq_next ht
      cases hk
      unfold startExchange at hu ⊢
      obtain ⟨v, hv, hk⟩ := andThen_eq_next hu
      cases hk
      have h3 := ht2.trans (((follows_setCur { d with remaining := d.remaining - 1#_ }).comp (follows_assert P
        dev)) _ _ ht2.same)
      have hmr : ∀ a,
        memRead a (assertLine P dev (setCur { d with remaining := d.remaining - 1#_ } (activate dev (switchGuard P
          dev (setCur d s'))))) = memRead a (assertLine P dev (setCur { d with remaining := d.remaining - 1#_ }
            (activate dev (switchGuard P dev (setCur d s))))) := by
        intro a; unfold memRead; rw [h3.same.mem]
      obtain ⟨v', k1, k2⟩ := follows_load _ _ _ h3.same v hv
      dsimp only
      rw [hmr]
      simp only [hd] at k1
      rw [k1]
      exact ⟨_, rfl, (h3.trans k2).trans (follows_setEngine .busy _ _ k2.same)⟩

theorem follows_startLoop (P : Params W) (ctx : Context) (ds : List (Desc W)) :
    ∀ res, FollowsAnswer (startLoop P ctx ds res) := by
  induction ds with
  | nil => intro res s s' h x t ht; cases ht
  | cons d rest ih =>
    intro res s s' h x t ht
    unfold startLoop at *
    have h0 := follows_q rest s s' h
    split at ht
    · cases ht
    · cases ht
    · rename_i u hp; cases ht
      obtain ⟨t', k1, k2⟩ := follows_startPass P ctx d _ _ h0.same _ _ hp
      dsimp only at k1
      rw [k1]; exact ⟨t', rfl, h0.trans k2⟩
    · rename_i u hp
      obtain ⟨t', k1, k2⟩ := follows_startPass P ctx d _ _ h0.same _ _ hp
      dsimp only at k1
      rw [k1]
      obtain ⟨t'', k3, k4⟩ := ih _ _ _ k2.same _ _ ht
      exact ⟨t'', k3, (h0.trans k2).trans k4⟩

theorem follows_releaseAll (ds : List (Desc W)) : Follows (releaseAll ds) := by
  induction ds with
  | nil => intro s s' h; exact .refl h
  | cons d ds ih => exact (follows_emit (.release d)).comp ih

theorem follows_enqueueAll (P : Params W) (ds : List (Desc W)) : Follows (enqueueAll P ds) := by
  induction ds with
  | nil => intro s s' h; exact .refl h
  | cons d ds ih =>
    refine Follows.comp (f := fun s => (enqueue P d s).2) ?_ ih
    intro s s' h
    unfold enqueue
    dsimp only
    have hf : isFull P s' ↔ isFull P s := by unfold isFull; rw [h.q]
    by_cases hh : isFull P s
    · rw [if_pos hh, if_pos (hf.2 hh)]; exact .refl h
    · rw [if_neg hh, if_neg (fun k => hh (hf.1 k)), h.q]; exact follows_q _ s s' h

theorem follows_submit (P : Params W) (ds : List (Desc W)) : FollowsAnswer (submit P ds) := by
  intro s s' h x t ht
  unfold submit at *
  rw [show freeSlots P s' = freeSlots P s by unfold freeSlots; rw [h.q]]
  split at ht
  · rename_i hh; rw [if_pos hh]; cases ht; exact ⟨_, rfl, follows_releaseAll ds s s' h⟩
  · rename_i hh; rw [if_neg hh]
    have h1 := follows_enqueueAll P ds s s' h
    unfold kick at *
    rw [h1.same.engine]
    split at ht
    · cases ht; exact ⟨_, rfl, h1⟩
    · unfold startNext at *; rw [h1.same.q]
      obtain ⟨t', k1, k2⟩ := follows_startLoop P _ _ _ _ _ h1.same _ _ ht
      exact ⟨t', k1, h1.trans k2⟩

theorem follows_handleByte (P : Params W) (rx : Byte) (c : Desc W) : FollowsState (handleByte P rx c) := by
  intro s s' h t ht
  rw [handleByte_eq] at ht ⊢
  have h1 : After s s' (afterByte rx c s) (afterByte rx c s') := ⟨⟨h.engine, rfl, h.active, h.q, h.dir, h.lvl,
    h.rxr, h.xip, h.ifrIF, h.ctrlIE, by simp [afterByte, h.mem]⟩, id, id, id, id, _, rfl, rfl⟩
  split at ht
  · rename_i hz; rw [if_pos hz]
    unfold continueTransfer at *
    dsimp only at *
    have h2 := h1.trans (follows_setCur { moved c with remaining := (moved c).remaining - 1#_ } _ _ h1.same)
    rw [show memRead (moved c).data (setCur { moved c with remaining := (moved c).remaining - 1#_ } (afterByte rx
      c s')) = memRead (moved c).data (setCur { moved c with remaining := (moved c).remaining - 1#_ } (afterByte
        rx c s)) by unfold memRead; rw [h2.same.mem]]
    obtain ⟨t', k1, k2⟩ := follows_load _ _ _ h2.same t ht
    exact ⟨t', k1, h2.trans k2⟩
  · rename_i hz; rw [if_neg hz]
    obtain ⟨⟨m, u⟩, hu, hk⟩ := andThen_eq_next ht
    obtain ⟨u', k1, k2⟩ := follows_exhausted P _ _ _ h1.same _ _ hu
    rw [k1]; dsimp only [andThen_next] at *
    split at hk
    · obtain ⟨⟨m', v⟩, hv, hk⟩ := andThen_eq_next hk
      cases hk
      rename_i hm; rw [if_pos hm]
      unfold startNext at *
      rw [k2.same.q]
      obtain ⟨v', k3, k4⟩ := follows_startLoop P _ _ _ _ _ k2.same _ _ hv
      rw [k3]; exact ⟨_, rfl, (h1.trans k2).trans k4⟩
    · rename_i hm; rw [if_neg hm]; cases hk; exact ⟨_, rfl, h1.trans k2⟩

end Sys2Proof.Machine
end

