-- ==== Sys2Proof/Machine/Written.lean ====
section
/-!
DEFINITION. The written form of packets (R76 of 30_encoding.md) with the pseudo-instructions of R77: one line of text as
the operations it stands for, and the line of an operation. Text is a list of characters. What R76 leaves open of it
is fixed by log 23; nothing in the machine reads a line.
-/

namespace Sys2Proof.Machine

/-! ### Words of a line -/

/-- A piece of a line: a run of other characters, or one of the characters that stand alone. -/
inductive Lexeme where
  | word (w : List Char)
  | sym (c : Char)
deriving DecidableEq, Repr

/-- The brace that opens a descriptor. -/
def openBrace : Char := Char.ofNat 0x7B

/-- The brace that closes a descriptor. -/
def closeBrace : Char := Char.ofNat 0x7D

/-- The characters that stand alone. -/
def symbols : List Char := ['=', '(', ')', ',', '*', openBrace, closeBrace]

/-- A word that is not empty, before the rest. -/
def flushWord (w : List Char) (rest : List Lexeme) : List Lexeme :=
  match w with
  | [] => rest
  | _ :: _ => .word w.reverse :: rest

/-- The lexemes of a line, with the characters of the word being read, last first. "A `;` starts a comment" (R76). -/
def lexemes : List Char → List Char → List Lexeme
  | w, [] => flushWord w []
  | w, c :: cs =>
    if c = ';' then flushWord w []
    else if c = ' ' then flushWord w (lexemes [] cs)
    else if c ∈ symbols then flushWord w (.sym c :: lexemes [] cs)
    else lexemes (c :: w) cs

/-! ### Numbers: "decimal or `0x` hexadecimal" (R76) -/

/-- The value of a digit in a base of at most 16. -/
def digitValue (base : Nat) (c : Char) : Option Nat :=
  let n := c.toNat
  let v := if 48 ≤ n ∧ n ≤ 57 then n - 48 else if 65 ≤ n ∧ n ≤ 70 then n - 55 else if 97 ≤ n ∧ n ≤ 102 then n - 87 else 16
  if v < base then some v else none

/-- The number of a digit string, after `acc`. -/
def digitsValue (base : Nat) : Nat → List Char → Option Nat
  | acc, [] => some acc
  | acc, c :: cs =>
    match digitValue base c with
    | none => none
    | some v => digitsValue base (base * acc + v) cs

/-- A written number. -/
def numeral : List Char → Option Nat
  | [] => none
  | '0' :: 'x' :: c :: cs => digitsValue 16 0 (c :: cs)
  | c :: cs => digitsValue 10 0 (c :: cs)

/-- A written number that fits a field of `n` bits. -/
def field (n : Nat) (w : List Char) : Option (BitVec n) :=
  match numeral w with
  | none => none
  | some v => if v < 2 ^ n then some (BitVec.ofNat n v) else none

/-! ### Operands: `name=value` (R76) -/

/-- What follows `name=`, with the text after it. -/
def named {α : Type} (name : List Char) (value : List Lexeme → Option (α × List Lexeme)) :
    List Lexeme → Option (α × List Lexeme)
  | .word w :: .sym '=' :: ls => if w = name then value ls else none
  | _ => none

/-- A number of `n` bits. -/
def numberOperand (n : Nat) : List Lexeme → Option (BitVec n × List Lexeme)
  | .word w :: ls => (field n w).map (·, ls)
  | _ => none

/-- A Device, `(dbit,lbit)`. -/
def pairOperand : List Lexeme → Option (Device × List Lexeme)
  | .sym '(' :: .word d :: .sym ',' :: .word l :: .sym ')' :: ls =>
    match field 3 d, field 3 l with
    | some dbit, some lbit => some (⟨dbit, lbit⟩, ls)
    | _, _ => none
  | _ => none

/-- The device of a descriptor: "`dev=-` means no device". -/
def deviceOperand : List Lexeme → Option (Option Device × List Lexeme)
  | .word ['-'] :: ls => some (none, ls)
  | ls => (pairOperand ls).map fun x => (some x.1, x.2)

/-- An optional number: "a missing `cap=` or `cb=` or the value `-` means absent". -/
def optionalOperand (n : Nat) (name : List Char) (ls : List Lexeme) : Option (Option (BitVec n) × List Lexeme) :=
  match ls with
  | .word w :: .sym '=' :: .word v :: rest =>
    if w = name then
      if v = ['-'] then some (none, rest) else (field n v).map fun x => (some x, rest)
    else some (none, ls)
  | _ => some (none, ls)

/-- A descriptor in braces: its request, and its capture cursor. -/
def descriptorOperand : List Lexeme → Option ((Request × Option Addr) × List Lexeme)
  | .sym c :: ls =>
    if c = openBrace then do
      let (device, ls) ← named ['d', 'e', 'v'] deviceOperand ls
      let (remaining, ls) ← named ['l', 'e', 'n'] (numberOperand 16) ls
      let (data, ls) ← named ['d', 'a', 't', 'a'] (numberOperand 16) ls
      let (capture, ls) ← optionalOperand 16 ['c', 'a', 'p'] ls
      let (callback, ls) ← optionalOperand 16 ['c', 'b'] ls
      match ls with
      | .sym c' :: ls' =>
        if c' = closeBrace then some ((⟨device, remaining, data, callback⟩, capture), ls') else none
      | _ => none
    else none
  | _ => none

/-- `<b1>,...,<bn>`: the received bytes of `XFER*n` (R77). -/
def bytesOperand : List Lexeme → Option (List Byte)
  | [.word w] => (field 8 w).map ([·])
  | .word w :: .sym ',' :: ls =>
    match field 8 w, bytesOperand ls with
    | some b, some bs => some (b :: bs)
    | _, _ => none
  | _ => none

/-! ### Lines -/

/-- The value of an operand list that must end here. -/
def ending {α : Type} : Option (α × List Lexeme) → Option α
  | some (x, []) => some x
  | _ => none

/-- The operand of `XFER` and `SHIFT_DONE`. -/
def rxOperand (ls : List Lexeme) : Option Byte := ending (named ['r', 'x'] (numberOperand 8) ls)

/-- The descriptor and the capture buffer of `READ`. -/
def readOperands (ls : List Lexeme) : Option (Request × Addr) := do
  let ((d, _), ls) ← descriptorOperand ls
  let cap ← ending (named ['c', 'a', 'p'] (numberOperand 16) ls)
  some (d, cap)

/-- The two descriptors and the capture buffer of `READ_WRITE`. -/
def readWriteOperands (ls : List Lexeme) : Option Instr := do
  let ((w, wcapture), ls) ← named ['w'] descriptorOperand ls
  let ((r, _), ls) ← named ['r'] descriptorOperand ls
  let cap ← ending (named ['c', 'a', 'p'] (numberOperand 16) ls)
  some (.readWrite w wcapture r cap)

/-- The operations of a line whose first word is `w` (R76, R77). -/
def lineOf (w : List Char) (ls : List Lexeme) : Option (List Instr) :=
  if w = "INIT".toList then (ending (named ['c', 'f', 'g'] (numberOperand 8) ls)).map fun x => [.init x]
  else if w = "CREATE_DEVICE".toList then
    (ending (named ['d', 'e', 'v'] pairOperand ls)).map fun x => [.createDevice x]
  else if w = "RELEASE_DEVICE".toList then
    (ending (named ['d', 'e', 'v'] pairOperand ls)).map fun x => [.releaseDevice x]
  else if w = "WRITE".toList then (ending (descriptorOperand ls)).map fun x => [.write x.1 x.2]
  else if w = "READ".toList then (readOperands ls).map fun x => [.read x.1 x.2]
  else if w = "READ_WRITE".toList then (readWriteOperands ls).map ([·])
  else if w = "FLUSH".toList then if ls = [] then some [.flush] else none
  else if w = "SHIFT_DONE".toList then (rxOperand ls).map fun x => [.shiftDone x]
  else if w = "XFER_COMPLETE".toList then if ls = [] then some [.xferComplete] else none
  else if w = "XFER".toList then
    match ls with
    | .sym '*' :: .word n :: .word ['r', 'x'] :: .sym '=' :: ls' =>
      match numeral n, bytesOperand ls' with
      | some k, some bs => if k = bs.length then some (xfers bs) else none
      | _, _ => none
    | _ => (rxOperand ls).map xfer
  else none

/-- The operations one line of text stands for (R76): none for a line of another form. A line with nothing but a comment
stands for no operation. -/
def assemble (line : List Char) : Option (List Instr) :=
  match lexemes [] line with
  | [] => some []
  | .word w :: ls => lineOf w ls
  | .sym _ :: _ => none

/-! ### The line of an operation -/

/-- A number in decimal. -/
def decimal (n : Nat) : List Char := Nat.toDigits 10 n

/-- The low `k` hexadecimal digits of a number. -/
def hexDigits (k n : Nat) : List Char := (List.range k).reverse.map fun i => (n / 16 ^ i % 16).digitChar

/-- A byte or a 16-bit field in hexadecimal. -/
def hexadecimal (k n : Nat) : List Char := '0' :: 'x' :: hexDigits k n

/-- `(dbit,lbit)`. -/
def writtenPair (dev : Device) : List Char := ['('] ++ decimal dev.dbit.toNat ++ [','] ++ decimal dev.lbit.toNat ++ [')']

/-- An optional field, left out where it is absent. -/
def writtenOption (name : String) (x : Option (BitVec 16)) : List Char :=
  match x with
  | none => []
  | some v => name.toList ++ hexadecimal 4 v.toNat

/-- A descriptor in braces. -/
def writtenDescriptor (d : Request) (capture : Option Addr) : List Char :=
  [openBrace] ++ "dev=".toList ++ (match d.device with | none => ['-'] | some dev => writtenPair dev) ++
    " len=".toList ++ decimal d.remaining.toNat ++ " data=".toList ++ hexadecimal 4 d.data.toNat ++
    writtenOption " cap=" capture ++ writtenOption " cb=" d.callback ++ [closeBrace]

/-- The line of an operation (R76). -/
def written : Instr → List Char
  | .init cfg => "INIT cfg=".toList ++ hexadecimal 2 cfg.toNat
  | .createDevice dev => "CREATE_DEVICE dev=".toList ++ writtenPair dev
  | .releaseDevice dev => "RELEASE_DEVICE dev=".toList ++ writtenPair dev
  | .write d capture => "WRITE ".toList ++ writtenDescriptor d capture
  | .read d cap => "READ ".toList ++ writtenDescriptor d none ++ " cap=".toList ++ hexadecimal 4 cap.toNat
  | .readWrite w wcapture r cap =>
    "READ_WRITE w=".toList ++ writtenDescriptor w wcapture ++ " r=".toList ++ writtenDescriptor r none ++
      " cap=".toList ++ hexadecimal 4 cap.toNat
  | .flush => "FLUSH".toList
  | .shiftDone rx => "SHIFT_DONE rx=".toList ++ hexadecimal 2 rx.toNat
  | .xferComplete => "XFER_COMPLETE".toList

end Sys2Proof.Machine
end

