-- ==== Sys2Proof/Tests/Slice0.lean ====
section
/-!
SUPPORT. The model's own tests. Expected values are those of 95_test_vectors.md (T1 to T7, V1 to V32) or are worked by hand
from the rule named. After the tests, one witness for each obligation that has hypotheses: a state and operands that
meet them all.
-/

namespace Sys2Proof.Tests

open Sys2Proof Sys2Proof.Machine

/-! ### Decoding: the packets of V30, written out -/

theorem test_decode_init : decode [0x01#8, 0x00#8] = .ok (.init 0x00#8, []) := by decide
theorem test_decode_create_device : decode [0x02#8, 0x22#8] = .ok (.createDevice ⟨2#3, 2#3⟩, []) := by decide
theorem test_decode_release_device : decode [0x03#8, 0x22#8] = .ok (.releaseDevice ⟨2#3, 2#3⟩, []) := by decide
theorem test_decode_write :
    decode [0x04#8, 0x16#8, 0x22#8, 0x03#8, 0x00#8, 0x00#8, 0x01#8, 0x00#8, 0x00#8, 0x11#8, 0x00#8] =
      .ok (.write ⟨some ⟨2#3, 2#3⟩, 3#16, 0x0100#16, some 0x0011#16⟩ none, []) := by decide
theorem test_decode_read :
    decode [0x05#8, 0x1D#8, 0x22#8, 0x04#8, 0x00#8, 0x00#8, 0x02#8, 0x00#8, 0x03#8, 0x22#8, 0x00#8, 0x00#8, 0x03#8] =
      .ok (.read ⟨some ⟨2#3, 2#3⟩, 4#16, 0x0200#16, some 0x0022#16⟩ 0x0300#16, []) := by decide
theorem test_decode_read_write :
    decode [0x06#8, 0x07#8, 0x22#8, 0x02#8, 0x00#8, 0x00#8, 0x01#8, 0x00#8, 0x00#8, 0x00#8, 0x00#8,
            0x1D#8, 0x22#8, 0x04#8, 0x00#8, 0x00#8, 0x02#8, 0x00#8, 0x03#8, 0x22#8, 0x00#8, 0x00#8, 0x03#8] =
      .ok (.readWrite ⟨some ⟨2#3, 2#3⟩, 2#16, 0x0100#16, none⟩ none
            ⟨some ⟨2#3, 2#3⟩, 4#16, 0x0200#16, some 0x0022#16⟩ 0x0300#16, []) := by decide
theorem test_decode_flush : decode [0x07#8] = .ok (.flush, []) := by decide
theorem test_decode_shift_done : decode [0x80#8, 0x5A#8] = .ok (.shiftDone 0x5A#8, []) := by decide
theorem test_decode_xfer_complete : decode [0x81#8] = .ok (.xferComplete, []) := by decide

/-- V1: `dbit` and `lbit` are told apart (R64). -/
theorem test_decode_pins_apart : decode [0x02#8, 0x60#8] = .ok (.createDevice ⟨0#3, 6#3⟩, []) := by decide

/-- V1 and V32: reserved bits and unknown opcodes are `invalid` (R73). -/
theorem test_decode_invalid :
    decode [0x02#8, 0x2A#8] = .error .reservedPins ∧ decode [0x02#8, 0xA2#8] = .error .reservedPins ∧
      decode [0x00#8] = .error (.unknownOpcode 0x00#8) ∧ decode [0x08#8] = .error (.unknownOpcode 0x08#8) ∧
      decode [0x82#8, 0x00#8] = .error (.unknownOpcode 0x82#8) ∧ decode [0x01#8] = .error .truncated ∧
      decode [0x04#8, 0x36#8, 0x22#8, 0x03#8, 0x00#8, 0x00#8, 0x01#8, 0x00#8, 0x00#8, 0x11#8, 0x00#8] =
        .error .reservedFlags := by decide

/-- V31: the record's mode, an absent device's PINS and a READ's own capture field are ignored (R72). -/
theorem test_decode_ignored :
    decode [0x04#8, 0x15#8, 0x22#8, 0x03#8, 0x00#8, 0x00#8, 0x01#8, 0x00#8, 0x00#8, 0x11#8, 0x00#8] =
        .ok (.write ⟨some ⟨2#3, 2#3⟩, 3#16, 0x0100#16, some 0x0011#16⟩ none, []) ∧
      decode [0x04#8, 0x12#8, 0x7F#8, 0x03#8, 0x00#8, 0x00#8, 0x01#8, 0x00#8, 0x00#8, 0x44#8, 0x00#8] =
        .ok (.write ⟨none, 3#16, 0x0100#16, some 0x0044#16⟩ none, []) ∧
      decode [0x05#8, 0x05#8, 0x22#8, 0x01#8, 0x00#8, 0x00#8, 0x02#8, 0x34#8, 0x12#8, 0x00#8, 0x00#8, 0x00#8, 0x03#8] =
        .ok (.read ⟨some ⟨2#3, 2#3⟩, 1#16, 0x0200#16, none⟩ 0x0300#16, []) := by decide

/-- V30: the canonical packet of a READ (R72). -/
theorem test_encode_read :
    encode (.read ⟨some ⟨2#3, 2#3⟩, 4#16, 0x0200#16, some 0x0022#16⟩ 0x0300#16) =
      [0x05#8, 0x1D#8, 0x22#8, 0x04#8, 0x00#8, 0x00#8, 0x02#8, 0x00#8, 0x03#8, 0x22#8, 0x00#8, 0x00#8, 0x03#8] := by
  decide

/-- The table's numbering (R62): `SHIFT_DONE rx=0x5A` is the number `0x5A80`. -/
theorem test_decode_table_word : decodeTableWord 16 0x5A80 = some (.shiftDone 0x5A#8) := by decide

/-! ### Well-formedness (R73): each check, refused -/

theorem test_ill_formed_write_dbit :
    ¬ (Instr.write ⟨some ⟨5#3, 2#3⟩, 1#16, 0x0100#16, none⟩ none).wellFormed Config.params := by
  simp [Instr.wellFormed, Request.wellFormed, deviceOk, Device.valid, Params.reserved, Config.params]
theorem test_ill_formed_read_lbit :
    ¬ (Instr.read ⟨some ⟨2#3, 3#3⟩, 1#16, 0x0100#16, none⟩ 0x0300#16).wellFormed Config.params := by
  simp [Instr.wellFormed, Request.wellFormed, deviceOk, Device.valid, Params.reserved, Config.params]
theorem test_ill_formed_read_write_command :
    ¬ (Instr.readWrite ⟨some ⟨4#3, 2#3⟩, 1#16, 0#16, none⟩ none ⟨none, 1#16, 0#16, none⟩ 0#16).wellFormed
        Config.params := by
  simp [Instr.wellFormed, Request.wellFormed, deviceOk, Device.valid, Params.reserved, Config.params]
theorem test_ill_formed_read_write_read :
    ¬ (Instr.readWrite ⟨none, 1#16, 0#16, none⟩ none ⟨some ⟨2#3, 5#3⟩, 1#16, 0#16, none⟩ 0#16).wellFormed
        Config.params := by
  simp [Instr.wellFormed, Request.wellFormed, deviceOk, Device.valid, Params.reserved, Config.params]

/-! ### States of the vectors -/

/-- The Device `D` of the vectors. -/
def devD : Device := ⟨2#3, 2#3⟩

/-- The Device `E` of the vectors. -/
def devE : Device := ⟨1#3, 1#3⟩

/-- `S0` (R221) with bytes of memory, its trace emptied. -/
def s0 (mem : Memory) : State := { State.reset with ctrlIE := true, ctrlMSTR := true, mem := mem }

/-- `S0` with an exchange of `c` in flight to `D`, and `q` queued. -/
def flying (c : Desc) (q : List Desc) (mem : Memory) : State :=
  { s0 mem with engine := .busy, cur := some c, active := some devD, q := q, dir := 0x04#8, lvl := 0xFB#8, xip := true }

/-- The same with the exchange complete and the received byte waiting for the handler. -/
def pending (rx : Byte) (c : Desc) (q : List Desc) (mem : Memory) : State :=
  { flying c q mem with xip := false, ifrIF := true, rxr := rx }

/-- `D`, IDLE, active from an earlier transfer. -/
def idleOnD : State := { s0 [] with active := some devD, dir := 0x04#8 }

/-- T1: the 3-byte write. -/
def write3 : Request := ⟨some devD, 3#16, 0x0100#16, some 0x0011#16⟩

/-- The same without device (V13). -/
def nullWrite : Request := ⟨none, 3#16, 0x0100#16, some 0x0044#16⟩

/-- No byte, to `E` (V18). -/
def zeroE : Request := ⟨some devE, 0#16, 0#16, some 7#16⟩

/-- T1, after its first row: two bytes not yet loaded. -/
def cur1 : Desc := ⟨some devD, 0x0100#16, 2#16, .write, none, some 0x0011#16⟩

/-- A command descriptor with its last byte in flight (V6). -/
def command : Desc := ⟨some devD, 0x0100#16, 0#16, .readWrite, none, some 0x0001#16⟩

/-- A read descriptor to `dev` (V6, V24). -/
def read1 (dev : Option Device) : Desc := ⟨dev, 0x0200#16, 1#16, .read, some 0x0300#16, some 0x0002#16⟩

/-- A write descriptor with its last byte in flight (T7). -/
def lastWrite : Desc := ⟨some devD, 0x0100#16, 0#16, .write, none, some 0x000A#16⟩

/-- A reading descriptor whose capture buffer begins at `cap` (V9, V10). -/
def reading (cap : Addr) : Desc := ⟨some devD, 0x0200#16, 2#16, .read, some cap, none⟩

/-- The bytes of T1. -/
def mem1 : Memory := [(0x0100, 0xA1#8), (0x0101, 0xB2#8), (0x0102, 0xC3#8)]

/-- The reference machine on a platform that maps a device at addresses `0x0300` to `0x03FF` (R45). -/
def withDevice : Params := { Config.params with devices := [⟨0x0300#16, 0x03FF#16⟩] }

/-- Other widths (R6), and parameters at them: four pins, three of them the bus's. -/
def smallWidths : Widths := { addrW := 8, lenW := 4, pinW := 2, cbW := 4, cfgW := 3 }
def small : Params smallWidths :=
  { qcap := 2, selActive := true, pinClk := 0#2, pinDin := 1#2, pinDout := 2#2, devices := [] }

/-- What a step shows: its events (the vectors' states begin with an empty trace), `STATE`, `CUR` and `Q`. -/
def shown : Host.Outcome State Fault Refusal → Option (List Event × EngineState × Option Desc × List Desc)
  | .next t => some (t.trace, t.engine, t.cur, t.q)
  | _ => none

/-! ### One step each -/

/-- V23. -/
theorem test_init : exec (.init 0x5C#8) (s0 []) =
    .next { s0 [] with cfg := 0x5C#8, trace := [.setMaster, .result .ok none] } := rfl

/-- V1. -/
theorem test_create_device :
    shown (exec (.createDevice ⟨0#3, 6#3⟩) (s0 [])) = some ([.result .ok (some ⟨0#3, 6#3⟩)], .idle, none, []) ∧
      shown (exec (.createDevice ⟨2#3, 3#3⟩) (s0 [])) = some ([.result .invalidPinConflict none], .idle, none, []) := by
  decide

/-- V2. -/
theorem test_release_device : exec (.releaseDevice devD) (flying cur1 [] mem1) =
    .next { flying cur1 [] mem1 with trace := [.result .ok none] } := rfl

/-- T1, row 1. -/
theorem test_write_starts : exec (.write write3 none) (s0 mem1) =
    .next { flying cur1 [] mem1 with
      txr := 0xA1#8,
      trace := [.dirOut 2#3, .setMaster, .selAssert 2#3, .load 0xA1#8, .result .ok none] } := rfl

/-- V13. -/
theorem test_write_null_device : exec (.write nullWrite none) (s0 []) =
    .next { s0 [] with
      trace := [.release ⟨none, 0x0100#16, 3#16, .write, none, some 0x0044#16⟩, .result .invalidDevice none] } := rfl

/-- V24. -/
theorem test_read_starts :
    shown (exec (.read ⟨some devD, 1#16, 0x0200#16, none⟩ 0x0300#16) (s0 [(0x0200, 0xFF#8)])) =
      some ([.dirOut 2#3, .setMaster, .selAssert 2#3, .load 0xFF#8, .result .ok none], .busy,
        some ⟨some devD, 0x0200#16, 0#16, .read, some 0x0300#16, none⟩, []) := by decide

/-- V19. -/
theorem test_read_write_zero_length_command :
    shown (exec (.readWrite ⟨some devD, 0#16, 0x0100#16, some 1#16⟩ none ⟨some devD, 1#16, 0x0200#16, some 2#16⟩ 0x0300#16)
        (s0 [(0x0200, 0x20#8)])) =
      some ([.dirOut 2#3, .setMaster, .callback 1#16, .release ⟨some devD, 0x0100#16, 0#16, .readWrite, none, none⟩,
             .selAssert 2#3, .load 0x20#8, .result .ok none], .busy,
        some ⟨some devD, 0x0200#16, 0#16, .read, some 0x0300#16, some 2#16⟩, []) := by decide

/-- V25. -/
theorem test_read_write_one_free_slot :
    shown (exec (.readWrite ⟨some devD, 1#16, 0x0100#16, some 1#16⟩ none ⟨some devD, 1#16, 0x0200#16, some 2#16⟩ 0x0300#16)
        (flying lastWrite (List.replicate 7 lastWrite) [])) =
      some ([.release ⟨some devD, 0x0100#16, 1#16, .readWrite, none, some 1#16⟩,
             .release ⟨some devD, 0x0200#16, 1#16, .read, some 0x0300#16, some 2#16⟩, .result .bufferOverflow none],
        .busy, some lastWrite, List.replicate 7 lastWrite) := by decide

/-- T4, row 2. -/
theorem test_flush_busy : exec .flush (flying cur1 [] mem1) =
    .next { flying cur1 [] mem1 with trace := [.result .flushFailed none] } := rfl

/-- V29. -/
theorem test_flush_drains : shown (exec .flush { s0 [] with q := [cur1, lastWrite] }) =
    some ([.release cur1, .release lastWrite, .result .ok none], .idle, none, []) := by decide

/-- R114's example. -/
theorem test_shift_done : exec (.shiftDone 0x5A#8) (flying cur1 [] mem1) = .next (pending 0x5A#8 cur1 [] mem1) := rfl

/-- V6, row 2. -/
theorem test_xfer_complete_switches :
    shown (exec .xferComplete (pending 0xAA#8 command [read1 (some devE)] [(0x0200, 0x20#8)])) =
      some ([.callback 1#16, .release ⟨some devD, 0x0101#16, 0#16, .readWrite, none, none⟩, .selDeassert 2#3, .dirOut 1#3,
             .setMaster, .selAssert 1#3, .load 0x20#8], .busy,
        some ⟨some devE, 0x0200#16, 0#16, .read, some 0x0300#16, some 2#16⟩, []) := by decide

/-- V9: the byte just received is the next byte transmitted. -/
theorem test_xfer_complete_overlap :
    shown (exec .xferComplete (pending 0x11#8 (reading 0x0201#16) []
        [(0x0200, 0xA0#8), (0x0201, 0xA1#8), (0x0202, 0xA2#8)])) =
      some ([.memWr 0x0201#16 0x11#8, .load 0x11#8], .busy,
        some ⟨some devD, 0x0201#16, 1#16, .read, some 0x0202#16, none⟩, []) := by decide

/-- V22 and V23: what is not enabled is refused; V27: an ill-formed packet is refused. -/
theorem test_refusals :
    exec (.shiftDone 0x00#8) (s0 []) = .refused .noExchangeInFlight ∧
      exec .xferComplete (s0 []) = .refused .handlerNotEnabled ∧
      exec (.init 0x00#8) (flying cur1 [] mem1) = .refused .initNotIdle ∧
      exec (.write ⟨some ⟨5#3, 2#3⟩, 1#16, 0x0100#16, none⟩ none) (s0 []) = .refused .illFormedDevice := ⟨rfl, rfl, rfl, rfl⟩

/-- R45: a READ whose capture buffer begins at a device's last byte is refused, one past it starts; and a completion whose
next byte to load is the device's first is refused. -/
theorem test_device_under_cursor :
    execAt withDevice (.read ⟨some devD, 1#16, 0x0200#16, none⟩ 0x03FF#16) (s0 mem1) = .refused .deviceUnderCursor ∧
      (shown (execAt withDevice (.read ⟨some devD, 1#16, 0x0200#16, none⟩ 0x0400#16) (s0 mem1))).isSome = true ∧
      execAt withDevice .xferComplete (pending 0#8 ⟨some devD, 0x02FF#16, 2#16, .write, none, none⟩ [] mem1) =
        .refused .deviceUnderCursor := ⟨rfl, by decide, rfl⟩

/-- R6, R47 at other widths: with `ADDR_W = 8` the data cursor goes from `0xFF` to `0x00`, and the byte there is loaded. -/
theorem test_small_widths_wrap :
    ∃ t, execAt small .xferComplete
        { State.resetAt small with
          engine := .busy, cur := some ⟨some ⟨3#2, 3#2⟩, 0xFF#8, 1#4, .write, none, none⟩, active := some ⟨3#2, 3#2⟩,
          ifrIF := true, ctrlIE := true, mem := [(0x00, 0x22#8), (0xFF, 0x11#8)] } = .next t ∧
      t.txr = 0x22#8 ∧ t.cur.map Desc.data = some 0x00#8 := ⟨_, rfl, rfl, rfl⟩

/-- A packet placed for the fetch runs as the very next step (log 3): `INIT cfg=0x5C` from reset. -/
theorem test_with_fetch_word :
    shown (step (State.reset.withFetchWord 16 0x5C01)) = some ([.setMaster, .result .ok none], .idle, none, []) := by decide

/-- No stimulus, no step (log 4). -/
theorem test_empty_script : step State.reset = .refused .noStimulus := rfl

/-- Reset's memory is in canonical form. -/
theorem test_reset_memory : Memory.wf Config.widths State.reset.mem := by simp [State.reset, State.resetAt, Memory.wf]

/-- R76 and R77: lines of text. -/
theorem test_written_line :
    assemble "INIT cfg=0x5C ; start".toList = some [.init 0x5C#8] ∧
      assemble "XFER*2 rx=0x12,52".toList =
        some [.shiftDone 0x12#8, .xferComplete, .shiftDone 0x34#8, .xferComplete] := by decide

/-- R76's READ line, without the braces' characters as literals. -/
theorem test_written_read :
    assemble ("READ ".toList ++ [openBrace] ++ "dev=(2,2) len=4 data=0x0200 cb=0x0022".toList ++ [closeBrace] ++
        " cap=0x0300".toList) =
      some [.read ⟨some ⟨2#3, 2#3⟩, 4#16, 0x0200#16, some 0x0022#16⟩ 0x0300#16] := by decide

/-! ### Witnesses: states -/

/-- The last byte of `lastWrite` complete, with `q` queued. -/
def lastDone (q : List Desc) : State := pending 0x9C#8 lastWrite q mem1

/-- The last byte of the command descriptor complete, with `q` queued. -/
def commandDone (q : List Desc) : State := pending 0xAA#8 command q mem1

/-- A queue with no free slot, and one with one. -/
def full : State := flying lastWrite (List.replicate 8 lastWrite) []
def oneFree : State := flying lastWrite (List.replicate 7 lastWrite) []

/-- R222: a completion pending and the handler masked. -/
def masked : State := { lastDone [] with ctrlIE := false }

theorem inv_s0 : Inv Config.params (s0 mem1) := by constructor <;> decide
theorem inv_idle_on_d : Inv Config.params idleOnD := by constructor <;> decide
theorem inv_flying : Inv Config.params (flying cur1 [] mem1) := by constructor <;> decide
theorem inv_last_flying : Inv Config.params (flying lastWrite [] mem1) := by constructor <;> decide
theorem inv_pending : Inv Config.params (pending 0x5A#8 cur1 [] mem1) := by constructor <;> decide
theorem inv_last_done : Inv Config.params (lastDone [⟨none, 0#16, 1#16, .write, none, none⟩]) := by
  constructor <;> decide
theorem inv_last_done_queue : Inv Config.params (lastDone [cur1, read1 (some devE)]) := by constructor <;> decide
theorem inv_command_same : Inv Config.params (commandDone [read1 (some devD)]) := by constructor <;> decide
theorem inv_command_other : Inv Config.params (commandDone [read1 (some devE)]) := by constructor <;> decide
theorem inv_command_null : Inv Config.params (commandDone [read1 none]) := by constructor <;> decide
theorem inv_full : Inv Config.params full := by constructor <;> decide
theorem inv_one_free : Inv Config.params oneFree := by constructor <;> decide
theorem inv_masked : Inv Config.params masked := by constructor <;> decide

/-- A READ of one byte submitted right after reset: a reachable BUSY state. -/
def readPacket : List Byte :=
  [0x05#8, 0x0D#8, 0x22#8, 0x01#8, 0x00#8, 0x00#8, 0x02#8, 0x00#8, 0x03#8, 0x00#8, 0x00#8, 0x00#8, 0x03#8]

/-- The READ of that packet. -/
def readD : Instr := .read ⟨some devD, 1#16, 0x0200#16, none⟩ 0x0300#16

theorem reachable_reset : Reachable Config.params State.reset := .reset
theorem reachable_busy : ∃ t, Reachable Config.params t ∧ t.engine = .busy :=
  ⟨_, .operation readD _ _ .reset rfl, rfl⟩

/-! ### Witnesses: encoding and the step -/

/-- The first record differs in mode and `capture`, with device and callback present; the second in PINS as well, with no
device. The third pair differs in mode, `cap_v` and `capture`. -/
theorem witness_DecoderIgnoresOverwrittenAndAbsentFields :
    ((0x16#8).getLsbD 2 = true ∧ (0x16#8).getLsbD 4 = true ∧ 0x15#8 &&& 0xFC#8 = 0x16#8 &&& 0xFC#8 ∧
        (0x16#8).getLsbD 3 = false) ∧
      ((0x12#8).getLsbD 2 = false ∧ 0x11#8 &&& 0xFC#8 = 0x12#8 &&& 0xFC#8) ∧
      ((0x1D#8).getLsbD 2 = true ∧ 0x16#8 &&& 0xF4#8 = 0x1D#8 &&& 0xF4#8 ∧
        (encode (.init 0#8) ++ List.replicate 8 0#8).length = 10) := by decide
theorem witness_InvalidAndIllFormedPacketsAreRefused :
    packetLength 0x00#8 = none ∧ packetLength 0x82#8 = none ∧
      decode [0x01#8] = .error .truncated ∧ [0x01#8] ≠ [] ∧
      (∀ pin ∈ [3#3, 4#3, 5#3],
        decode (encode (.write ⟨some ⟨pin, 2#3⟩, 1#16, 0#16, none⟩ none)) =
            .ok (.write ⟨some ⟨pin, 2#3⟩, 1#16, 0#16, none⟩ none, []) ∧
          ¬ (Instr.write ⟨some ⟨pin, 2#3⟩, 1#16, 0#16, none⟩ none).wellFormed Config.params) ∧
      ∃ i rest, decode [0x07#8] = .ok (i, rest) :=
  ⟨by decide, by decide, by decide, by decide, by
    simp [Instr.wellFormed, Request.wellFormed, deviceOk, Device.valid, Params.reserved, Config.params]; decide,
    _, _, rfl⟩
theorem witness_PacketLengthComesFromOpcodeAlone :
    decode (readPacket ++ [0x07#8]) = .ok (.read ⟨some devD, 1#16, 0x0200#16, none⟩ 0x0300#16, [0x07#8]) := by decide
theorem witness_PacketMatchesItsTableRowOnly : decode [0x81#8, 0x80#8] = .ok (.xferComplete, [0x80#8]) := by decide
theorem witness_StepRunsTheDecodedOperation :
    decode (s0 [] |>.feed [0x80#8, 0xFF#8, 0x81#8]).script = .ok (.shiftDone 0xFF#8, [0x81#8]) ∧
      (s0 [] |>.feed [0x80#8, 0xFF#8, 0x81#8]).script = encode (.shiftDone 0xFF#8) ++ [0x81#8] := by decide
theorem witness_StepKeepsTheInvariant :
    (Inv Config.params ((s0 mem1).feed readPacket) ∧
        ∃ t, step ((s0 mem1).feed readPacket) = .next t ∧ t.engine = .busy) ∧
      (Inv withDevice ((s0 mem1).feed (encode .flush)) ∧ ∃ t, stepAt withDevice ((s0 mem1).feed (encode .flush)) = .next t) ∧
      Inv small (State.resetAt small) ∧ ∃ t, execAt small (.write ⟨some ⟨3#2, 3#2⟩, 2#4, 0xFF#8, none⟩ none)
        (State.resetAt small) = .next t :=
  ⟨⟨by constructor <;> decide, _, rfl, rfl⟩, ⟨by constructor <;> decide, _, rfl⟩, by constructor <;> decide, _, rfl⟩
theorem witness_ReachableStatesMeetTheInvariant :
    (∃ t, Reachable Config.params t ∧ t.engine = .busy) ∧
      Reachable Config.params (State.reset.feed readPacket) ∧
      ∃ t, stepAt Config.params (State.reset.feed readPacket) = .next t :=
  ⟨reachable_busy, .script _ _ .reset, _, rfl⟩
theorem witness_ReachableEngineStateRules :
    (∃ t, Reachable Config.params t ∧ t.engine = .busy ∧ t.xip = true) ∧ Reachable Config.params State.reset :=
  ⟨⟨_, .operation readD _ _ .reset rfl, rfl, rfl⟩, .reset⟩
theorem witness_ReachableSelectLineRules :
    (∃ t, Reachable Config.params t ∧ t.engine = .busy) ∧
      ∃ t, Reachable Config.params t ∧ t.engine = .idle ∧ t.active = some devD :=
  ⟨reachable_busy, _, .operation (.write ⟨some devD, 0#16, 0#16, none⟩ none) _ _ .reset rfl, rfl, rfl⟩
theorem witness_AtMostOneSelectLineAtEveryPoint :
    Inv Config.params (flying cur1 [] mem1) ∧ asserted Config.params devD (flying cur1 [] mem1) ∧
      ∃ t, execAt Config.params (.shiftDone 0xFF#8) (flying cur1 [] mem1) = .next t := ⟨inv_flying, by decide, _, rfl⟩

/-! ### Witnesses: when an operation runs -/

theorem witness_EnabledOperationsComplete :
    (Inv Config.params (s0 mem1) ∧ enabled (.init 0#8) (s0 mem1)) ∧
      (Inv Config.params full ∧
        (Instr.write ⟨some ⟨2#3, 2#3⟩, 1#16, 0#16, none⟩ none).wellFormed Config.params ∧
        (Instr.read ⟨none, 0#16, 0#16, none⟩ 0xFFFF#16).wellFormed Config.params ∧
        (Instr.readWrite ⟨some ⟨6#3, 7#3⟩, 0xFFFF#16, 0#16, none⟩ none ⟨none, 0#16, 0#16, none⟩ 0#16).wellFormed
          Config.params ∧ enabled .flush full) ∧
      (Inv Config.params (flying cur1 [] mem1) ∧ enabled (.shiftDone 0#8) (flying cur1 [] mem1)) ∧
      (Inv Config.params (pending 0x5A#8 cur1 [] mem1) ∧ enabled .xferComplete (pending 0x5A#8 cur1 [] mem1)) :=
  ⟨⟨inv_s0, by simp [enabled]; decide⟩,
    ⟨inv_full, by simp [Instr.wellFormed, Request.wellFormed, deviceOk, Device.valid, Params.reserved, Config.params],
      by simp [Instr.wellFormed, Request.wellFormed, deviceOk],
      by simp [Instr.wellFormed, Request.wellFormed, deviceOk, Device.valid, Params.reserved, Config.params],
      trivial⟩,
    ⟨inv_flying, by simp [enabled]; decide⟩, ⟨inv_pending, by simp [enabled]; decide⟩⟩
theorem witness_DisabledStepsAreRefused :
    ((s0 []).xip = false ∧ ((s0 []).ifrIF = false ∨ (s0 []).ctrlIE = false) ∧ masked.ifrIF = true ∧ masked.ctrlIE = false ∧
        (flying cur1 [] mem1).engine = .busy ∧ (s0 [] |>.q) = []) ∧
      (submitted (.read ⟨some devD, 1#16, 0x0200#16, none⟩ 0x0300#16 : Instr) ≠ [] ∧
        ∃ t, execAt { withDevice with devices := [] } (.read ⟨some devD, 1#16, 0x0200#16, none⟩ 0x0300#16) (s0 mem1) =
          .next t ∧ ¬ noDevice withDevice t) ∧
      ∃ t, execAt { withDevice with devices := [] } .xferComplete (pending 0#8 cur1 [] mem1) = .next t ∧
        noDevice withDevice t :=
  ⟨by decide, ⟨by decide, _, rfl, fun h => h _ rfl (by decide)⟩, _, rfl, fun c hc => by cases hc; decide⟩
theorem witness_LoadCollisionFaults :
    ((flying cur1 [] []).xip = true ∧ (pending 0#8 cur1 [] []).ifrIF = true ∧
      (fun s : State => s.ifrIF = true ∧ s.ctrlIE = true ∧ s.xip = true ∧ s.cur = some cur1 ∧ cur1.remaining ≠ 0#16)
        { pending 0#8 cur1 [] [] with xip := true }) ∧
      (∀ s ∈ [{ s0 mem1 with xip := true }, { s0 mem1 with ifrIF := true }],
        (s.xip = true ∨ s.ifrIF = true) ∧ s.engine = .idle ∧ s.q = []) ∧
      (Instr.readWrite write3 none nullWrite 0#16).wellFormed Config.params ∧
      submitted (.readWrite write3 none nullWrite 0#16) =
        ⟨some devD, 0x0100#16, 3#16, .readWrite, none, some 0x0011#16⟩ ::
          [⟨none, 0x0100#16, 3#16, .read, some 0#16, some 0x0044#16⟩] :=
  ⟨by decide, by decide, by simp [Instr.wellFormed, write3, nullWrite, Request.wellFormed, deviceOk, Device.valid,
    Params.reserved, Config.params, devD], rfl⟩

/-! ### Witnesses: INIT, CREATE_DEVICE, FLUSH -/

theorem witness_InitResult :
    initEnabled (s0 []) ∧ ¬ initEnabled (flying cur1 [] mem1) ∧ ¬ initEnabled { s0 [] with q := [cur1] } := by decide
theorem witness_CreateDeviceResult :
    ((3#3 ∈ [5#3, 4#3, 3#3] ∨ 2#3 ∈ [5#3, 4#3, 3#3]) ∧ (7#3 ∈ [5#3, 4#3, 3#3] ∨ 5#3 ∈ [5#3, 4#3, 3#3])) ∧
      ¬ (2#3 ∈ [5#3, 4#3, 3#3] ∨ 6#3 ∈ [5#3, 4#3, 3#3]) := by decide
theorem witness_FlushResult :
    full.engine = .busy ∧ (s0 []).engine = .idle ∧ (s0 []).q = [] ∧
      ({ s0 [] with q := [cur1, lastWrite] } : State).engine = .idle := by decide
theorem witness_FlushOfAnEmptyIdleQueueIsANoOp : (s0 mem1).engine = .idle ∧ (s0 mem1).q = [] := by decide
theorem witness_FlushWhileBusyDisturbsNothing :
    (flying cur1 [] mem1).engine = .busy ∧ ∃ t, runAt Config.params (xfer 0x5A#8) (flying cur1 [] mem1) = .next t :=
  ⟨rfl, _, rfl⟩

/-! ### Witnesses: WRITE, READ, READ_WRITE -/

theorem witness_SubmittingWhileBusyOnlyEnqueues :
    oneFree.engine = .busy ∧ write3.wellFormed Config.params ∧ oneFree.q.length + 1 ≤ Config.params.qcap ∧
      (flying cur1 (List.replicate 6 lastWrite) []).engine = .busy ∧ nullWrite.wellFormed Config.params ∧
      (flying cur1 (List.replicate 6 lastWrite) []).q.length + 2 ≤ Config.params.qcap :=
  ⟨by decide, by simp [write3, Request.wellFormed, deviceOk, Device.valid, Params.reserved, Config.params, devD],
    by decide, by decide, by simp [nullWrite, Request.wellFormed, deviceOk], by decide⟩
theorem witness_OverflowReleasesAndChangesNothingElse :
    ((Instr.write nullWrite none).wellFormed Config.params ∧ submitted (.write nullWrite none) ≠ [] ∧
        Config.params.qcap < full.q.length + (submitted (.write nullWrite none)).length) ∧
      (Instr.readWrite nullWrite none nullWrite 0#16).wellFormed Config.params ∧
      Config.params.qcap < oneFree.q.length + (submitted (.readWrite nullWrite none nullWrite 0#16)).length :=
  ⟨⟨by simp [Instr.wellFormed, nullWrite, Request.wellFormed, deviceOk], by decide, by decide⟩,
    by simp [Instr.wellFormed, nullWrite, Request.wellFormed, deviceOk], by decide⟩
theorem witness_SubmittingWhileIdleStartsTheTransfer :
    (Inv Config.params (s0 mem1) ∧ (s0 mem1).engine = .idle ∧ (Instr.write write3 none).wellFormed Config.params ∧
        submitted (.write write3 none) = [⟨some devD, 0x0100#16, 3#16, .write, none, some 0x0011#16⟩] ∧ 3#16 ≠ 0#16) ∧
      Inv Config.params idleOnD ∧ idleOnD.engine = .idle ∧
      (Instr.readWrite write3 none ⟨some devE, 0#16, 0#16, none⟩ 0#16).wellFormed Config.params ∧
      submitted (.readWrite write3 none ⟨some devE, 0#16, 0#16, none⟩ 0#16) =
        [⟨some devD, 0x0100#16, 3#16, .readWrite, none, some 0x0011#16⟩, ⟨some devE, 0#16, 0#16, .read, some 0#16, none⟩] :=
  ⟨⟨inv_s0, rfl, by simp [Instr.wellFormed, write3, Request.wellFormed, deviceOk, Device.valid, Params.reserved,
      Config.params, devD], rfl, by decide⟩, inv_idle_on_d, rfl,
    by simp [Instr.wellFormed, write3, Request.wellFormed, deviceOk, Device.valid, Params.reserved, Config.params, devD,
      devE], rfl⟩
theorem witness_NullDeviceWhileIdleIsReleasedAndReported :
    Inv Config.params (s0 mem1) ∧ (s0 mem1).engine = .idle ∧
      submitted (.write nullWrite none) = [⟨none, 0x0100#16, 3#16, .write, none, some 0x0044#16⟩] := ⟨inv_s0, rfl, rfl⟩
theorem witness_NullCommandOfReadWriteIsPassedOver :
    Inv Config.params (s0 mem1) ∧ (s0 mem1).engine = .idle ∧
      ∀ r ∈ [write3, zeroE, nullWrite], (Instr.readWrite nullWrite none r 0x0300#16).wellFormed Config.params ∧
        submitted (.readWrite nullWrite none r 0x0300#16) =
          [⟨none, 0x0100#16, 3#16, .readWrite, none, some 0x0044#16⟩, readDesc r 0x0300#16] ∧
        (r = write3 ∧ r.device = some devD ∧ r.remaining ≠ 0#16 ∨ r = zeroE ∧ r.device = some devE ∧ r.remaining = 0#16 ∨
          r = nullWrite ∧ r.device = none) :=
  ⟨inv_s0, rfl, by simp [Instr.wellFormed, nullWrite, write3, zeroE, Request.wellFormed, deviceOk, Device.valid,
    Params.reserved, Config.params, devD, devE, submitted, commandDesc, readDesc, tag]⟩
theorem witness_ZeroLengthCompletesInsideTheStep :
    (Inv Config.params (s0 mem1) ∧ (s0 mem1).engine = .idle ∧
      (Instr.read zeroE 0x0300#16).wellFormed Config.params ∧
      submitted (.read zeroE 0x0300#16) = [⟨some devE, 0#16, 0#16, .read, some 0x0300#16, some 7#16⟩]) ∧
      (Inv Config.params idleOnD ∧ idleOnD.engine = .idle ∧
        ∀ r ∈ [write3, zeroE, nullWrite], (Instr.readWrite zeroE none r 0x0300#16).wellFormed Config.params ∧
          submitted (.readWrite zeroE none r 0x0300#16) =
            [⟨some devE, 0#16, 0#16, .readWrite, none, some 7#16⟩, readDesc r 0x0300#16] ∧
          (r = write3 ∧ r.device = some devD ∧ r.remaining ≠ 0#16 ∨ r = zeroE ∧ r.device = some devE ∧ r.remaining = 0#16 ∨
            r = nullWrite ∧ r.device = none)) :=
  ⟨⟨inv_s0, rfl, by simp [Instr.wellFormed, zeroE, Request.wellFormed, deviceOk, Device.valid, Params.reserved,
      Config.params, devE], rfl⟩, inv_idle_on_d, rfl,
    by simp [Instr.wellFormed, nullWrite, write3, zeroE, Request.wellFormed, deviceOk, Device.valid, Params.reserved,
      Config.params, devD, devE, submitted, commandDesc, readDesc, tag]⟩

/-! ### Witnesses: SHIFT_DONE and XFER_COMPLETE -/

theorem witness_ShiftDoneResult : (flying cur1 [] mem1).xip = true ∧ (s0 []).xip = false := by decide
theorem witness_HandlerContinuesWithTheNextByte :
    (fun s : State => s.ifrIF = true ∧ s.ctrlIE = true ∧ s.xip = false ∧ s.cur = some (reading 0xFFFF#16) ∧
      (reading 0xFFFF#16).remaining ≠ 0#16) (pending 0x5A#8 (reading 0xFFFF#16) [] mem1) := by decide
theorem witness_LastByteWithEmptyQueueGoesIdle :
    (fun s : State => s.ifrIF = true ∧ s.ctrlIE = true ∧ s.cur = some lastWrite ∧ lastWrite.remaining = 0#16 ∧ s.q = [] ∧
      s.active = some devD) (lastDone []) := by decide
theorem witness_ChainedStartPulsesTheLine :
    (fun s : State => s.engine = .busy ∧ s.ifrIF = true ∧ s.ctrlIE = true ∧ s.xip = false ∧ s.cur = some lastWrite ∧
        lastWrite.remaining = 0#16 ∧ lastWrite.mode ≠ .readWrite ∧ s.q = cur1 :: [] ∧ s.active = some devD ∧
        cur1.device = some devD ∧ cur1.remaining ≠ 0#16) (lastDone [cur1]) ∧
      (fun s : State => s.engine = .busy ∧ s.ifrIF = true ∧ s.ctrlIE = true ∧ s.xip = false ∧ s.cur = some lastWrite ∧
        s.q = read1 (some devE) :: [cur1] ∧ s.active = some devD ∧ (read1 (some devE)).device = some devE ∧
        (read1 (some devE)).remaining ≠ 0#16) (lastDone [read1 (some devE), cur1]) := by decide
theorem witness_ReadWriteHoldsTheLineAcrossTheBoundary :
    Inv Config.params (commandDone [read1 (some devD)]) ∧
      (fun s : State => s.ifrIF = true ∧ s.ctrlIE = true ∧ s.cur = some command ∧ command.remaining = 0#16 ∧
        command.mode = .readWrite ∧ command.device = some devD ∧ s.q = read1 (some devD) :: [] ∧
        (read1 (some devD)).device = some devD ∧ (read1 (some devD)).remaining ≠ 0#16)
        (commandDone [read1 (some devD)]) := ⟨inv_command_same, by decide⟩
theorem witness_SwitchGuardDropsAHeldLineOfAnotherDevice :
    Inv Config.params (commandDone [read1 (some devE)]) ∧
      (fun s : State => s.ifrIF = true ∧ s.ctrlIE = true ∧ s.cur = some command ∧ command.remaining = 0#16 ∧
        command.mode = .readWrite ∧ command.device = some devD ∧ s.q = read1 (some devE) :: [] ∧
        (read1 (some devE)).device = some devE ∧ devD ≠ devE ∧ (read1 (some devE)).remaining ≠ 0#16)
        (commandDone [read1 (some devE)]) := ⟨inv_command_other, by decide⟩
theorem witness_NullDeviceInTheHandlerIsADiag :
    (Inv Config.params (commandDone [read1 none]) ∧
      (fun s : State => s.ifrIF = true ∧ s.ctrlIE = true ∧ s.cur = some command ∧ command.remaining = 0#16 ∧
        command.device = some devD ∧ s.q = [read1 none] ∧ (read1 none).device = none) (commandDone [read1 none])) ∧
      Inv Config.params (lastDone [⟨none, 0#16, 1#16, .write, none, none⟩]) ∧
      (fun s : State => s.ifrIF = true ∧ s.ctrlIE = true ∧ s.cur = some lastWrite ∧ lastWrite.remaining = 0#16 ∧
        lastWrite.device = some devD ∧ s.q = [⟨none, 0#16, 1#16, .write, none, none⟩])
        (lastDone [⟨none, 0#16, 1#16, .write, none, none⟩]) :=
  ⟨⟨inv_command_null, by decide⟩, inv_last_done, by decide⟩
theorem witness_StartNextPassesOverNullAndZeroLengthDescriptors :
    (fun s : State => s.ifrIF = true ∧ s.ctrlIE = true ∧ s.cur = some lastWrite ∧ lastWrite.remaining = 0#16 ∧ s.q ≠ [] ∧
        s.active = some devD) (lastDone [read1 none]) ∧
      ((read1 none).device = none ∧ (lastDone [read1 none, cur1]).q = read1 none :: [cur1]) ∧
      (∀ a ∈ ({ idleOnD with q := [read1 none] } : State).active, ¬ asserted Config.params a idleOnD) ∧
      ((commandDone [read1 none]).q = read1 none :: [] ∧ (commandDone [read1 none]).active = some devD ∧
        asserted Config.params devD (commandDone [read1 none])) ∧
      ((commandDone [writeDesc zeroE none, cur1]).q = writeDesc zeroE none :: [cur1] ∧
        (commandDone [commandDesc zeroE none]).q = commandDesc zeroE none :: [] ∧
        (writeDesc zeroE none).device = some devE ∧ (writeDesc zeroE none).remaining = 0#16 ∧
        (commandDesc zeroE none).device = some devE ∧ (commandDesc zeroE none).remaining = 0#16) :=
  ⟨by decide, by decide, fun a ha => by cases ha; decide, by decide, by decide⟩
theorem witness_CompletionWithoutCurrentOnlyClearsTheFlag :
    (fun s : State => s.ifrIF = true ∧ s.ctrlIE = true ∧ s.cur = none) { s0 [] with ifrIF := true } := by decide
theorem witness_OverlappingCaptureIsSeenByTheNextLoad :
    (fun s : State => s.ifrIF = true ∧ s.ctrlIE = true ∧ s.xip = false ∧ s.cur = some (reading 0x0201#16) ∧
        (reading 0x0201#16).remaining ≠ 0#16 ∧ includesRead (reading 0x0201#16).mode = true ∧
        (reading 0x0201#16).capture = some (nextAddr (reading 0x0201#16).data))
        (pending 0x11#8 (reading 0x0201#16) [] []) ∧
      (fun s : State => s.ifrIF = true ∧ s.ctrlIE = true ∧ s.xip = false ∧ s.cur = some (reading 0x0200#16) ∧
        (reading 0x0200#16).capture = some (reading 0x0200#16).data) (pending 0x11#8 (reading 0x0200#16) [] []) := by
  decide
theorem witness_HostStoreBeforeTheLoadIsTransmitted :
    (∀ c ∈ [cur1, reading 0x0202#16],
      (fun s : State => s.ifrIF = true ∧ s.ctrlIE = true ∧ s.xip = false ∧ s.cur = some c ∧ c.remaining ≠ 0#16 ∧
        ¬ (includesRead c.mode = true ∧ c.capture = some (nextAddr c.data))) (pending 0x00#8 c [] mem1)) ∧
      (Inv Config.params (s0 mem1) ∧ (s0 mem1).engine = .idle ∧ (Instr.write write3 none).wellFormed Config.params ∧
        submitted (.write write3 none) = ⟨some devD, 0x0100#16, 3#16, .write, none, some 0x0011#16⟩ :: [] ∧ 3#16 ≠ 0#16) ∧
      Inv Config.params (lastDone [cur1, read1 (some devE)]) ∧
      (fun s : State => s.ifrIF = true ∧ s.ctrlIE = true ∧ s.cur = some lastWrite ∧ lastWrite.remaining = 0#16 ∧
        s.q = cur1 :: [read1 (some devE)] ∧ cur1.device = some devD ∧ cur1.remaining ≠ 0#16 ∧
        ¬ (includesRead lastWrite.mode = true ∧ lastWrite.capture = some cur1.data)) (lastDone [cur1, read1 (some devE)]) :=
  ⟨by decide, ⟨inv_s0, rfl, by simp [Instr.wellFormed, write3, Request.wellFormed, deviceOk, Device.valid, Params.reserved,
      Config.params, devD], rfl, by decide⟩, inv_last_done_queue, by decide⟩

/-! ### Witnesses: frames -/

theorem witness_SubmittingOperationsFrame :
    submitted (.write write3 none) ≠ [] ∧ (∃ t, exec (.write write3 none) (s0 mem1) = .next t) ∧
      (∃ t, exec (.write write3 none) oneFree = .next t) ∧ oneFree.engine = .busy ∧ (s0 mem1).ctrlMSTR = true :=
  ⟨by decide, ⟨_, rfl⟩, ⟨_, rfl⟩, rfl, rfl⟩
theorem witness_HandlerFrame :
    (∃ t, exec .xferComplete (pending 0x5A#8 (reading 0x0300#16) [] mem1) = .next t) ∧
      (pending 0x5A#8 (reading 0x0300#16) [] mem1).cur = some (reading 0x0300#16) ∧
      (reading 0x0300#16).remaining ≠ 0#16 := ⟨⟨_, rfl⟩, rfl, by decide⟩
theorem witness_OnlyTheHandlerWritesMemory :
    (Instr.shiftDone 0xFF#8 : Instr) ≠ .xferComplete ∧
      ∃ t, execAt Config.params (.shiftDone 0xFF#8) (flying cur1 [] mem1) = .next t := ⟨by decide, _, rfl⟩
theorem witness_WhoWritesTheControlRegisters :
    (∃ t, execAt Config.params .xferComplete (pending 0x5A#8 cur1 [] mem1) = .next t) ∧
      (∃ t, execAt Config.params (.init 0x5C#8) (s0 []) = .next t) ∧
      ∃ t, execAt Config.params (.write write3 none) (s0 mem1) = .next t ∧ t.active ≠ (s0 mem1).active :=
  ⟨⟨_, rfl⟩, ⟨_, rfl⟩, _, rfl, by decide⟩
theorem witness_OutputsStayOutputsAndBusPinsAreUntouched :
    Inv Config.params (commandDone [read1 (some devE)]) ∧
      (∃ t, execAt Config.params .xferComplete (commandDone [read1 (some devE)]) = .next t) ∧
      pinBit (commandDone [read1 (some devE)]).dir 2#3 = true ∧ Config.params.reserved 3#3 :=
  ⟨inv_command_other, ⟨_, rfl⟩, by decide, by decide⟩
theorem witness_EventsAccountForEveryOutput :
    Inv Config.params (s0 mem1) ∧ ∃ t, execAt Config.params (.write write3 none) (s0 mem1) = .next t :=
  ⟨inv_s0, _, rfl⟩
theorem witness_HostOperationsEndWithOneResult :
    (Inv Config.params (pending 0x5A#8 cur1 [] mem1) ∧
        ∃ t, execAt Config.params .xferComplete (pending 0x5A#8 cur1 [] mem1) = .next t) ∧
      Inv Config.params (s0 mem1) ∧ ∃ t, execAt Config.params .flush (s0 mem1) = .next t :=
  ⟨⟨inv_pending, _, rfl⟩, inv_s0, _, rfl⟩
theorem witness_UnreadRegistersDoNotInfluenceTheMachine :
    SameButUnread (s0 mem1) { s0 mem1 with txr := 0xFF#8, ctrlMSTR := false, cfg := 0x5C#8, trace := [.setMaster] } ∧
      ∃ t, execAt Config.params (.write write3 none) (s0 mem1) = .next t := ⟨by constructor <;> rfl, _, rfl⟩

/-! ### Witnesses: whole runs -/

theorem witness_CallbacksFireOnceInEnqueueOrder :
    Inv Config.params (lastDone [cur1, read1 (some devE)]) ∧
      ∃ t, execAt Config.params .xferComplete (lastDone [cur1, read1 (some devE)]) = .next t :=
  ⟨inv_last_done_queue, _, rfl⟩
theorem witness_RunToIdleFiresEveryCallbackInOrder :
    Inv Config.params (flying lastWrite [] mem1) ∧
      ∃ t, runAt Config.params (xfer 0xFF#8) (flying lastWrite [] mem1) = .next t ∧ t.engine = .idle :=
  ⟨inv_last_flying, _, rfl, rfl⟩
theorem witness_EveryDescriptorIsReleasedOnceInOrder :
    (Inv Config.params (s0 mem1) ∧ (∃ t, execAt Config.params (.write write3 none) (s0 mem1) = .next t) ∧
        accepted Config.params (.write write3 none) (s0 mem1) = submitted (.write write3 none)) ∧
      Inv Config.params oneFree ∧ (∃ t, execAt Config.params (.readWrite write3 none write3 0#16) oneFree = .next t) ∧
      accepted Config.params (.readWrite write3 none write3 0#16) oneFree ≠
        submitted (.readWrite write3 none write3 0#16) :=
  ⟨⟨inv_s0, ⟨_, rfl⟩, by decide⟩, inv_one_free, ⟨_, rfl⟩, by decide⟩
theorem witness_ExchangesMoveOneByteEach :
    (fun s : State => s.xip = true ∧ s.ifrIF = false ∧ s.ctrlIE = true ∧ s.cur = some (reading 0x0400#16) ∧
      [0x11#8, 0x22#8].length ≤ (reading 0x0400#16).remaining.toNat) (flying (reading 0x0400#16) [] mem1) ∧
      ∀ j, j ≤ 2 → ¬ cursorOnDevice withDevice (afterExchanges j (reading 0x0400#16)) := by decide
theorem witness_NBytesTakeExactlyNCompletions :
    (Inv Config.params (flying cur1 [] mem1) ∧
      (fun s : State => s.xip = true ∧ s.ctrlIE = true ∧ s.cur = some cur1 ∧ s.q = [] ∧
        [0x11#8, 0x22#8].length = cur1.remaining.toNat) (flying cur1 [] mem1) ∧
      ∀ j, j ≤ 2 → ¬ cursorOnDevice Config.params (afterExchanges j cur1)) ∧
      Inv Config.params (flying lastWrite [] mem1) ∧ (0 : Nat) = lastWrite.remaining.toNat :=
  ⟨⟨inv_flying, by decide⟩, inv_last_flying, by decide⟩
theorem witness_TransferBeforeInitHangsBusy :
    Inv Config.params masked ∧ masked.ctrlIE = false ∧ masked.ifrIF = true ∧
      ∃ t, runAt Config.params [.flush, .write write3 none] masked = .next t := ⟨inv_masked, rfl, rfl, _, rfl⟩
theorem witness_MissingShiftDoneHangsBusy :
    Inv Config.params (flying cur1 [] mem1) ∧ (flying cur1 [] mem1).xip = true ∧
      (∀ rx, Instr.shiftDone rx ∉ [Instr.write write3 none, .flush]) ∧
      ∃ t, runAt Config.params [.write write3 none, .flush] (flying cur1 [] mem1) = .next t :=
  ⟨inv_flying, rfl, by simp, _, rfl⟩

/-! ### Witnesses: memory, registers, selector -/

theorem witness_MemoryReadsBackWhatWasWritten : Memory.wf Config.widths mem1 ∧ Memory.wf smallWidths [(0xFF, 1#8)] := by decide
theorem witness_RegisterViewFollowsTheLayout :
    (15 < 16 ∧ readReg 15 (s0 []) = some 0xFF) ∧
      (Inv Config.params (s0 mem1) ∧ (s0 mem1).active = none ∧ (s0 mem1).cur = none) ∧
      (Inv Config.params (flying cur1 [] mem1) ∧ (flying cur1 [] mem1).active = some devD ∧
        (flying cur1 [] mem1).cur = some cur1 ∧ readReg 4 (flying cur1 [] mem1) = some 0x36) :=
  ⟨by decide, ⟨inv_s0, rfl, rfl⟩, inv_flying, by decide⟩
theorem witness_TurningToADevice :
    idleOnD.active = some devD ∧
      ((commandDone []).active ≠ some devE ∧ (commandDone []).active = some devD ∧
        asserted Config.params devD (commandDone [])) ∧
      (idleOnD.active ≠ some devE ∧ ¬ asserted Config.params devD idleOnD) := by decide

end Sys2Proof.Tests
end

section
/-!
PROOFS. Scope (00_scope.md): the machine at the reference values of R6 is the parametric machine (R29 of 10_state.md).
-/

namespace Sys2Proof.Machine

/-- The reference parameters meet the constraints of R6. -/
theorem params_wf : Config.params.wf := by decide

/-- Arm by arm, the operation of `exec` is the parametric one at the reference parameters (log 2). -/
theorem exec_eq_execAt (i : Instr) (s : State) : exec i s = execAt Config.params i s := by cases i <;> rfl

/-- Both steps fetch the same operation, and stop alike where the fetch stops. -/
theorem step_eq_stepAt (s : State) : step s = stepAt Config.params s := by
  unfold step stepAt
  cases fetch s with
  | next fetched => exact exec_eq_execAt fetched.1 fetched.2
  | fault f => rfl
  | refused e => rfl

/-- Settles O10: the operations by `exec_eq_execAt`, the step by `step_eq_stepAt`; the values are those of R6 as defined. -/
theorem referenceMachineIsTheParametricMachine : Obligations.ReferenceMachineIsTheParametricMachine :=
  ⟨params_wf, rfl, rfl, rfl, exec_eq_execAt, step_eq_stepAt, rfl⟩

end Sys2Proof.Machine
end

section
/-!
PROOFS. State (10_state.md): what an operation does from a state that meets the invariant, said once for each operation.
Its body is told by its events (R28) and ends in a state that meets the invariant; a host operation then emits its one
`Result` (R9, R78).
-/

namespace Sys2Proof.Machine

variable {W : Widths}

/-- What an operation does from `s` up to the `Result` of a host operation: the events `evs` say what happened to the
pins, the memory and the wire (R28), and the invariant holds at the end. -/
structure Body (P : Params W) (s u : State W) (evs : List (Event W)) : Prop where
  told : Told P s u evs
  inv : Inv P u
  wire : loadsOf evs = [] ∧ u.txr = s.txr ∨ loadsOf evs = [u.txr] ∧ u.xip = true

/-- How an operation ends after its body: a host operation with its `Result`, a hardware step with nothing (R78). -/
def Concluded : Instr W → State W → State W → Prop
  | .shiftDone _, u, t => t = u
  | .xferComplete, u, t => t = u
  | _, u, t => ∃ code dev, t = emit (.result code dev) u

/-- The end of an operation touches the trace only, and adds at most a `Result` to it. -/
theorem Concluded.tail {i : Instr W} {u t : State W} (h : Concluded i u t) :
    ∃ tail, t = { u with trace := u.trace ++ tail } ∧ (tail = [] ∨ ∃ code dev, tail = [.result code dev]) := by
  cases i with
  | shiftDone | xferComplete => exact ⟨[], by simp [show t = u from h], .inl rfl⟩
  | _ =>
    obtain ⟨code, dev, rfl⟩ := h
    exact ⟨_, rfl, .inr ⟨code, dev, rfl⟩⟩

/-- A body that emits nothing. -/
theorem Body.silent {P : Params W} {s u : State W} (h : Inv P s) (hu : Inv P u) (ht : u.trace = s.trace)
    (hl : u.lvl = s.lvl) (hd : u.dir = s.dir) (hm : u.mem = s.mem) (hx : u.txr = s.txr) : Body P s u [] :=
  ⟨.silent h.mid.oneLine ht hl hd hm, hu, .inl ⟨rfl, hx⟩⟩

/-- `Load` events of a start or a handler run, one exactly where an exchange is in flight after it. -/
theorem wire_of_loads {evs : List (Event W)} {s u : State W} (hl : loadsOf evs = if u.xip then [u.txr] else [])
    (ht : u.xip = false → u.txr = s.txr) :
    loadsOf evs = [] ∧ u.txr = s.txr ∨ loadsOf evs = [u.txr] ∧ u.xip = true := by
  cases hx : u.xip with
  | false => exact .inl ⟨by simpa [hx] using hl, ht hx⟩
  | true => exact .inr ⟨by simpa [hx] using hl, rfl⟩

theorem init_body {P : Params W} {cfg : BusConfig W} {s t : State W} (h : Inv P s)
    (ht : execAt P (.init cfg) s = .next t) : ∃ u, Body P s u [.setMaster] ∧ Concluded (.init cfg) u t := by
  simp only [execAt, execInit] at ht
  split at ht
  case isFalse => cases ht
  case isTrue hp =>
    obtain ⟨he, -, -, -, hi⟩ := hp
    cases ht
    have ho := h.mid.oneLine
    refine ⟨{ setMaster { s with cfg := cfg } with ifrIF := false, ctrlIE := true, engine := .idle }, ⟨?_, ?_, ?_⟩,
      .ok, none, rfl⟩
    · exact ⟨rfl, rfl, rfl, rfl, ⟨ho, ho⟩, rfl, by simp [pinFree]⟩
    · exact h.congr he.symm rfl rfl rfl rfl rfl rfl hi.symm rfl
    · exact .inl ⟨rfl, rfl⟩

theorem createDevice_concluded {P : Params W} {dev : Device W} {s t : State W}
    (ht : execAt P (.createDevice dev) s = .next t) : Concluded (.createDevice dev) s t := by
  simp only [execAt, createDeviceAt] at ht
  split at ht
  · cases ht; exact ⟨_, _, rfl⟩
  · cases ht; exact ⟨_, _, rfl⟩

theorem releaseDevice_concluded {P : Params W} {dev : Device W} {s t : State W}
    (ht : execAt P (.releaseDevice dev) s = .next t) : Concluded (.releaseDevice dev) s t := by
  cases ht; exact ⟨_, _, rfl⟩

/-- The body of WRITE, READ and READ_WRITE is `SUBMIT` (R141). -/
theorem submitOp_body {P : Params W} {ds : List (Desc W)} {s t : State W} (h : Inv P s) (hne : ds ≠ [])
    (ht : submitOp P ds s = .next t) : ∃ u evs, Body P s u evs ∧ ∃ code dev, t = emit (.result code dev) u := by
  unfold submitOp at ht
  split at ht
  case isFalse => cases ht
  case isTrue hds =>
    obtain ⟨hr, -⟩ := refuseDevices_eq_next.1 ht
    obtain ⟨code, u, evs, hs, x⟩ := submit_spec h hne hds
    rw [hs] at hr
    cases hr
    refine ⟨u, evs, ⟨x.told, x.inv, ?_⟩, code, none, rfl⟩
    rcases he : s.engine with _ | _
    · exact wire_of_loads (by simpa [he] using x.loads) fun hx => x.txr (.inr hx)
    · exact .inl ⟨by simpa [he] using x.loads, x.txr (.inl he)⟩

theorem flushAll_of_empty {s : State W} (hq : s.q = []) : flushAll s = s := by
  rw [flushAll, hq, releaseAll, ← hq]

theorem execFlush_busy {s : State W} (he : s.engine = .busy) : execFlush s = .next (endWith .flushFailed s) := by
  simp only [execFlush, he]

theorem execFlush_idle {s : State W} (he : s.engine = .idle) : execFlush s = .next (endWith .ok (flushAll s)) := by
  simp only [execFlush, he]

/-- FLUSH has nothing to do before its `Result`: while IDLE the queue is empty in a state that meets the invariant. -/
theorem flush_concluded {P : Params W} {s t : State W} (h : Inv P s) (ht : execAt P .flush s = .next t) :
    Concluded .flush s t := by
  rw [execAt] at ht
  cases he : s.engine with
  | busy => rw [execFlush_busy he] at ht; cases ht; exact ⟨_, _, rfl⟩
  | idle =>
    obtain ⟨hq, -⟩ := h.idle he
    rw [execFlush_idle he, flushAll_of_empty hq] at ht
    cases ht
    exact ⟨_, _, rfl⟩

theorem shiftDone_body {P : Params W} {rx : Byte} {s t : State W} (h : Inv P s)
    (ht : execAt P (.shiftDone rx) s = .next t) : Body P s t [] := by
  simp only [execAt, execShiftDone] at ht
  split at ht
  case isFalse => cases ht
  case isTrue hx =>
    cases ht
    have he : s.engine = .busy := h.busy_iff.2 (.inl hx)
    exact .silent h ⟨h.idle_iff, h.queue_bounded, h.queue_valid, h.current_active, h.active_valid, h.active_output,
      by simp [he], h.busy_current, by simp, h.busy_asserted, h.idle_deasserted, h.only_active_line, h.mem_wf⟩
      rfl rfl rfl rfl rfl

/-- The handler has a current descriptor: the engine is BUSY while a completion is pending (R181). -/
theorem xferComplete_body {P : Params W} {s t : State W} (h : Inv P s) (ht : execAt P .xferComplete s = .next t) :
    ∃ evs, Body P s t evs := by
  by_cases hen : handlerEnabled s
  case neg => simp [execAt, xferCompleteAt, runHandler, if_neg hen] at ht
  case pos =>
    have hb : s.engine = .busy := h.busy_iff.2 (.inr hen.1)
    obtain ⟨c, hc⟩ := Option.isSome_iff_exists.1 (h.busy_current hb)
    obtain ⟨-, dev, hd, ha, -, hl⟩ := h.current hc
    have hx : s.xip = false := Bool.eq_false_iff.2 fun hx => h.one_exchange ⟨hx, hen.1⟩
    rw [xferComplete_eq hen hc] at ht
    obtain ⟨hr, -⟩ := refuseDevices_eq_next.1 ht
    have hm : Mid P { s with ifrIF := false } := h.mid.congr rfl rfl rfl rfl rfl
    obtain ⟨u, evs, hu, x⟩ := handleByte_spec (rx := s.rxr) hm h.queue_bounded hd ha hb hl hx rfl
    rw [hu] at hr
    cases hr
    have hs : Told P s { s with ifrIF := false } [] := .silent hm.oneLine rfl rfl rfl rfl
    exact ⟨evs, hs.trans x.told, x.inv, wire_of_loads x.loads x.txr⟩

/-- Every operation from a state that meets the invariant is a body that meets it again, then its `Result` if it has
one. -/
theorem execAt_body {P : Params W} {i : Instr W} {s t : State W} (h : Inv P s) (ht : execAt P i s = .next t) :
    ∃ u evs, Body P s u evs ∧ Concluded i u t := by
  have same : Body P s s [] := .silent h h rfl rfl rfl rfl rfl
  cases i with
  | init cfg =>
    obtain ⟨u, hb, hc⟩ := init_body h ht
    exact ⟨u, _, hb, hc⟩
  | createDevice dev => exact ⟨s, [], same, createDevice_concluded ht⟩
  | releaseDevice dev => exact ⟨s, [], same, releaseDevice_concluded ht⟩
  | write d capture => exact submitOp_body h (by simp) ht
  | read d cap => exact submitOp_body h (by simp) ht
  | readWrite w wcapture r cap => exact submitOp_body h (by simp) ht
  | flush => exact ⟨s, [], same, flush_concluded h ht⟩
  | shiftDone rx => exact ⟨t, [], shiftDone_body h ht, rfl⟩
  | xferComplete =>
    obtain ⟨evs, hb⟩ := xferComplete_body h ht
    exact ⟨t, evs, hb, rfl⟩

/-- The invariant speaks of no packet still to be issued. -/
theorem Inv.script {P : Params W} {s : State W} (h : Inv P s) (bytes : List Byte) : Inv P { s with script := bytes } :=
  h.congr rfl rfl rfl rfl rfl rfl rfl rfl rfl

/-- A store of the host touches the memory only, and keeps its canonical form. -/
theorem Inv.hostStore {P : Params W} {s : State W} (h : Inv P s) (a : Addr W) (v : Byte) : Inv P (s.hostStore a v) :=
  ⟨h.idle_iff, h.queue_bounded, h.queue_valid, h.current_active, h.active_valid, h.active_output, h.busy_iff,
    h.busy_current, h.one_exchange, h.busy_asserted, h.idle_deasserted, h.only_active_line,
    Memory.wf_put_addr h.mem_wf a v⟩

theorem execAt_keeps_inv {P : Params W} {i : Instr W} {s t : State W} (h : Inv P s) (ht : execAt P i s = .next t) :
    Inv P t := by
  obtain ⟨u, evs, hb, hc⟩ := execAt_body h ht
  obtain ⟨tail, rfl, -⟩ := hc.tail
  exact hb.inv.congr rfl rfl rfl rfl rfl rfl rfl rfl rfl

/-- Fetching touches the script only (log 3). -/
theorem fetch_eq_next {s s' : State} {i : Instr} (h : fetch s = .next (i, s')) :
    ∃ rest, decode s.script = .ok (i, rest) ∧ s' = { s with script := rest } := by
  unfold fetch at h
  split at h
  · cases h
  · split at h
    · cases h
    · cases h; exact ⟨_, ‹_›, rfl⟩

theorem stepAt_keeps_inv {P : Params} {s t : State} (h : Inv P s) (ht : stepAt P s = .next t) : Inv P t := by
  obtain ⟨⟨i, s'⟩, hf, hx⟩ := andThen_eq_next ht
  obtain ⟨rest, -, rfl⟩ := fetch_eq_next hf
  exact execAt_keeps_inv (h.script rest) hx

/-- Settles O12: operation by operation in `execAt_body`; a step is an operation with its packet taken off the
script. -/
theorem stepKeepsTheInvariant : Obligations.StepKeepsTheInvariant :=
  ⟨fun s _ h ht => stepAt_keeps_inv h (step_eq_stepAt s ▸ ht), fun _ _ _ => stepAt_keeps_inv,
    fun _ _ _ h => ⟨fun _ _ => execAt_keeps_inv h, h.hostStore, h.script⟩⟩

/-- Settles O47: an operation's pins are what its events say; no event clears a `DIR` bit or names a pin of the bus. -/
theorem outputsStayOutputsAndBusPinsAreUntouched : Obligations.OutputsStayOutputsAndBusPinsAreUntouched := by
  intro W P i s t h ht p
  obtain ⟨u, evs, hb, hc⟩ := execAt_body h ht
  obtain ⟨tail, rfl, -⟩ := hc.tail
  show (_ → pinBit u.dir p = true) ∧ (_ → pinBit u.dir p = _ ∧ pinBit u.lvl p = _)
  rw [← hb.told.directions, ← hb.told.levels]
  exact ⟨directionsAfter_keeps, fun hp => ⟨directionsAfter_bus hp hb.told.pins, levelsAfter_bus hp hb.told.pins⟩⟩

/-- Settles O48: the body's events account for it, and a `Result` says nothing of pins, memory or the wire. -/
theorem eventsAccountForEveryOutput : Obligations.EventsAccountForEveryOutput := by
  intro W P i s t h ht
  obtain ⟨u, evs, ⟨told, -, wire⟩, hc⟩ := execAt_body h ht
  obtain ⟨tail, rfl, rfl | ⟨code, dev, rfl⟩⟩ := hc.tail
  all_goals
    refine ⟨_, by rw [told.trace, List.append_assoc], ?_, ?_, ?_, ?_⟩
    · simp [told.levels, levelsAfter]
    · simp [told.directions, directionsAfter]
    · simp [told.memory, memoryAfter]
    · simpa [loadsOf] using wire

end Sys2Proof.Machine
end

section
/-!
PROOFS. State (10_state.md): no rule reads `TXR`, `CTRL.MSTR`, `CFG`, the trace or what is left of the script (R21, R22,
U12), operation by operation from the procedures of Laws/Unread.lean.
-/

namespace Sys2Proof.Machine

variable {W : Widths}

/-- The check for a device under a cursor reads `CUR` only. -/
theorem FollowsState.refuseDevices {P : Params W} {f : State W → Answer (State W)} (hf : FollowsState f) :
    FollowsState (fun s => refuseDevices P (f s)) := by
  intro s s' h t ht
  obtain ⟨hn, hd⟩ := refuseDevices_eq_next.1 ht
  obtain ⟨t', hn', ha⟩ := hf s s' h t hn
  have hd' : noDevice P t' := by unfold noDevice; rw [ha.same.cur]; exact hd
  exact ⟨t', refuseDevices_eq_next.2 ⟨hn', hd'⟩, ha⟩

/-- A procedure that only changes the state, taken as an answer. -/
theorem Follows.answers {f : State W → State W} (hf : Follows f) : FollowsState fun s => .next (f s) := by
  intro s s' h t ht
  cases ht
  exact ⟨f s', rfl, hf s s' h⟩

theorem follows_init (cfg : BusConfig W) : FollowsState (execInit cfg) := by
  intro s s' h t ht
  unfold execInit at ht ⊢
  split at ht
  case isFalse => cases ht
  case isTrue hp =>
    obtain ⟨he, hc, hq, hx, hi⟩ := hp
    have hp' : initEnabled s' := ⟨h.engine.trans he, h.cur.trans hc, h.q.trans hq, h.xip.trans hx, h.ifrIF.trans hi⟩
    cases ht
    exact ⟨_, if_pos hp', ⟨rfl, h.cur, h.active, h.q, h.dir, h.lvl, h.rxr, h.xip, rfl, rfl, h.mem⟩,
      id, fun _ => rfl, fun _ => rfl, id, [.setMaster, .result .ok none], by simp, by simp⟩

theorem follows_createDevice (P : Params W) (dev : Device W) : FollowsState (createDeviceAt P dev) := by
  unfold createDeviceAt
  split
  · exact (follows_emit _).answers
  · exact (follows_emit _).answers

theorem follows_submitOp (P : Params W) (ds : List (Desc W)) : FollowsState (submitOp P ds) := by
  unfold submitOp
  split
  case isFalse => exact fun _ _ _ _ ht => nomatch ht
  case isTrue =>
    refine FollowsState.refuseDevices fun s s' h t ht => ?_
    obtain ⟨⟨code, u⟩, hs, hk⟩ := andThen_eq_next ht
    cases hk
    obtain ⟨u', hs', hu⟩ := follows_submit P ds s s' h code u hs
    exact ⟨endWith code u', by rw [hs']; rfl, hu.trans (follows_emit _ u u' hu.same)⟩

theorem follows_flushAll : Follows (flushAll (W := W)) := by
  intro s s' h
  rw [flushAll, flushAll, h.q]
  exact ((follows_q []).comp (follows_releaseAll s.q)) s s' h

theorem follows_flush : FollowsState (execFlush (W := W)) := by
  intro s s' h t ht
  cases he : s.engine with
  | busy =>
    rw [execFlush_busy he] at ht
    rw [execFlush_busy (h.engine.trans he)]
    exact (follows_emit _).answers s s' h t ht
  | idle =>
    rw [execFlush_idle he] at ht
    rw [execFlush_idle (h.engine.trans he)]
    exact (follows_flushAll.comp (follows_emit _)).answers s s' h t ht

theorem follows_shiftDone (rx : Byte) : FollowsState (execShiftDone (W := W) rx) := by
  intro s s' h t ht
  unfold execShiftDone at ht ⊢
  split at ht
  case isFalse => cases ht
  case isTrue hx =>
    cases ht
    exact ⟨_, if_pos (h.xip.trans hx), ⟨h.engine, h.cur, h.active, h.q, h.dir, h.lvl, rfl, rfl, rfl, h.ctrlIE, h.mem⟩,
      id, id, id, id, [], by simp, by simp⟩

theorem follows_enterHandler : Follows fun s : State W => (enterHandler s).2 := fun s s' h =>
  ⟨⟨h.engine, h.cur, h.active, h.q, h.dir, h.lvl, h.rxr, h.xip, rfl, h.ctrlIE, h.mem⟩, id, id, id, id, [], by simp,
    by simp⟩

theorem follows_runHandler (P : Params W) : FollowsState (runHandler P) := by
  intro s s' h t ht
  have h0 := follows_enterHandler s s' h
  unfold runHandler at ht ⊢
  split at ht
  case isFalse => cases ht
  case isTrue hen =>
    rw [if_pos ⟨h.ifrIF.trans hen.1, h.ctrlIE.trans hen.2⟩]
    cases hc : s.cur with
    | none =>
      simp only [enterHandler_cur, h.cur, hc] at ht ⊢
      exact follows_enterHandler.answers s s' h t ht
    | some c =>
      simp only [enterHandler_cur, enterHandler_rx, h.cur, h.rxr, hc, leaveHandler_eq, andThen_self] at ht ⊢
      obtain ⟨t', hn, ha⟩ := follows_handleByte P s.rxr c _ _ h0.same t ht
      exact ⟨t', hn, h0.trans ha⟩

/-- Every operation answers alike from two states that differ in unread registers only. -/
theorem follows_execAt (P : Params W) (i : Instr W) : FollowsState (execAt P i) := by
  cases i with
  | init cfg => exact follows_init cfg
  | createDevice dev => exact follows_createDevice P dev
  | releaseDevice dev => exact (follows_emit _).answers
  | write d capture => exact follows_submitOp P _
  | read d cap => exact follows_submitOp P _
  | readWrite w wcapture r cap => exact follows_submitOp P _
  | flush => exact follows_flush
  | shiftDone rx => exact follows_shiftDone rx
  | xferComplete => exact (follows_runHandler P).refuseDevices

/-- Settles O50: operation by operation in `follows_execAt`. -/
theorem unreadRegistersDoNotInfluenceTheMachine : Obligations.UnreadRegistersDoNotInfluenceTheMachine := by
  intro W P i s s' t h ht
  obtain ⟨t', ht', ha⟩ := follows_execAt P i s s' h t ht
  obtain ⟨evs, htr, htr'⟩ := ha.tr
  exact ⟨t', evs, ht', ha.same, htr, htr'⟩

end Sys2Proof.Machine
end

section
/-!
PROOFS. State (10_state.md): what reset leaves (R30), that it meets the invariant (R31), and the register view (R27).
-/

namespace Sys2Proof.Machine

variable {W : Widths}

/-! ### Reset -/

/-- Every line is inactive after reset. -/
theorem resetAt_lvl (P : Params W) (p : Pin W) : pinBit (State.resetAt P).lvl p = !P.selActive := by
  cases h : P.selActive <;> simp [State.resetAt, pinBit, h, p.isLt]

/-- Every pin is an input after reset. -/
theorem resetAt_dir (P : Params W) (p : Pin W) : pinBit (State.resetAt P).dir p = false := by
  simp [State.resetAt, pinBit]

/-- Settles O7: the pins by `resetAt_dir` and `resetAt_lvl`, everything else by definition. -/
theorem resetLeavesTheSpecifiedValues : Obligations.ResetLeavesTheSpecifiedValues := fun _ P =>
  ⟨rfl, rfl, rfl, rfl, resetAt_dir P, resetAt_lvl P, rfl, rfl, rfl, rfl, rfl⟩

/-- Settles O11: reset is IDLE with nothing queued, no device active, and every line inactive. -/
theorem resetMeetsTheInvariant : Obligations.ResetMeetsTheInvariant := by
  intro W P
  have hl (p : Pin W) : pinBit (State.resetAt P).lvl p ≠ P.selActive := by simp [resetAt_lvl]
  have hm : Mid P (State.resetAt P) := by
    refine ⟨?_, deviceOk_none, ?_, fun p hp => absurd hp (hl p), ?_⟩ <;> simp [State.resetAt, Memory.wf]
  exact hm.inv_idle rfl rfl rfl rfl rfl hl

/-! ### The register view (R27) -/

/-- The number of a concatenation: the high part stands above the low part's width. -/
theorem toNat_append_eq_add {m n : Nat} (x : BitVec m) (y : BitVec n) : (x ++ y).toNat = 2 ^ n * x.toNat + y.toNat := by
  rw [BitVec.toNat_append, Nat.shiftLeft_eq_mul_pow, Nat.mul_comm, Nat.two_pow_add_eq_or_of_lt y.isLt]

theorem ctrlWord_toNat (s : State W) : (ctrlWord s).toNat = s.ctrlIE.toNat + 2 * s.ctrlMSTR.toNat := by
  simp only [ctrlWord, toNat_append_eq_add, BitVec.toNat_ofBool]
  omega

theorem deviceWord_toNat (dev : Device W) :
    (deviceWord dev).toNat = dev.dbit.toNat + 2 ^ W.pinW * dev.lbit.toNat := by
  rw [deviceWord, toNat_append_eq_add, Nat.add_comm]

theorem activeWord_toNat {s : State W} {a : Device W} (h : s.active = some a) :
    (activeWord s).toNat = 1 + 2 * a.dbit.toNat + 2 ^ (W.pinW + 1) * a.lbit.toNat := by
  simp only [activeWord, h, toNat_append_eq_add, BitVec.toNat_ofNat, pow_succ]
  ring

theorem curFlagsWord_toNat {s : State W} {c : Desc W} (h : s.cur = some c) :
    (curFlagsWord s).toNat = c.mode.code.toNat + 4 * c.device.isSome.toNat + 8 * c.capture.isSome.toNat +
      16 * c.callback.isSome.toNat + 32 := by
  simp only [curFlagsWord, h, toNat_append_eq_add, BitVec.toNat_ofBool, BitVec.toNat_ofNat]
  omega

theorem lt_of_some_toNat {n v : Nat} {x : BitVec n} (h : some x.toNat = some v) : v < 2 ^ n :=
  Option.some.inj h ▸ x.isLt

theorem lt_of_map_toNat {α : Type} {n v : Nat} {f : α → BitVec n} {o : Option α}
    (h : o.map (fun a => (f a).toNat) = some v) : v < 2 ^ n := by
  obtain ⟨a, -, rfl⟩ := Option.map_eq_some_iff.1 h
  exact (f a).isLt

/-- Row by row of the table, a register shows the number of a bit vector of its own width, or nothing. -/
theorem readReg_lt {i v : Nat} {s : State W} (h : readReg i s = some v) : ∃ w, regWidth W i = some w ∧ v < 2 ^ w :=
  match i with
  | 0 => ⟨_, rfl, lt_of_some_toNat h⟩
  | 1 => ⟨_, rfl, lt_of_some_toNat h⟩
  | 2 => ⟨_, rfl, lt_of_some_toNat h⟩
  | 3 => ⟨_, rfl, by rw [Nat.add_comm, Nat.two_mul]; exact lt_of_some_toNat h⟩
  | 4 => ⟨_, rfl, lt_of_some_toNat h⟩
  | 5 => ⟨_, rfl, by rw [Nat.two_mul]; exact lt_of_map_toNat h⟩
  | 6 => ⟨_, rfl, lt_of_map_toNat (f := Desc.remaining) h⟩
  | 7 => ⟨_, rfl, lt_of_map_toNat (f := Desc.data) h⟩
  | 8 => ⟨_, rfl, lt_of_map_toNat (f := id) h⟩
  | 9 => ⟨_, rfl, lt_of_map_toNat (f := id) h⟩
  | 10 => ⟨_, rfl, lt_of_some_toNat h⟩
  | 11 => ⟨_, rfl, lt_of_some_toNat h⟩
  | 12 => ⟨_, rfl, lt_of_some_toNat h⟩
  | 13 => ⟨_, rfl, lt_of_some_toNat h⟩
  | 14 => ⟨_, rfl, lt_of_some_toNat h⟩
  | 15 => ⟨_, rfl, lt_of_some_toNat h⟩
  | _ + 16 => nomatch h

theorem readReg_above_table {i : Nat} (h : 15 < i) (s : State W) : readReg i s = none := by
  obtain ⟨n, rfl⟩ := Nat.exists_eq_add_of_lt h
  rw [show 15 + n + 1 = n + 16 by omega]
  rfl

/-- `STATE` (R27): IDLE = 0, BUSY = 1. -/
theorem readReg_engine (s : State W) : readReg 0 s = some (if s.engine = .busy then 1 else 0) := by
  cases h : s.engine <;> simp [readReg, h, EngineState.code]

/-- With `CUR = none` the valid bit is clear and no value register shows anything. -/
theorem readReg_cur_none {s : State W} (h : s.cur = none) :
    (∃ v, readReg 4 s = some v ∧ v < 32) ∧ ∀ i, 5 ≤ i → i ≤ 9 → readReg i s = none := by
  refine ⟨⟨0, by simp [readReg, curFlagsWord, h], by decide⟩, fun i h5 h9 => ?_⟩
  interval_cases i <;> simp [readReg, h]

/-- The registers of a current descriptor (R27). -/
theorem readReg_cur_some {s : State W} {c : Desc W} (h : s.cur = some c) :
    readReg 4 s =
        some ((match c.mode with | .read => 1 | .write => 2 | .readWrite => 3) + 4 * c.device.isSome.toNat +
          8 * c.capture.isSome.toNat + 16 * c.callback.isSome.toNat + 32) ∧
      readReg 5 s = c.device.map (fun dev => dev.dbit.toNat + 2 ^ W.pinW * dev.lbit.toNat) ∧
      readReg 6 s = some c.remaining.toNat ∧ readReg 7 s = some c.data.toNat ∧
      readReg 8 s = c.capture.map (·.toNat) ∧ readReg 9 s = c.callback.map (·.toNat) := by
  refine ⟨?_, ?_, ?_, ?_, ?_, ?_⟩
  · rw [readReg, curFlagsWord_toNat h]
    cases c.mode <;> rfl
  all_goals simp [readReg, h, deviceWord_toNat]

/-- In a state that meets the invariant the current descriptor's device is a valid Device (R31). -/
theorem Inv.cur_deviceOk {P : Params W} {s : State W} (h : Inv P s) : ∀ c ∈ s.cur, deviceOk P c.device := fun c hc => by
  obtain ⟨-, hv, -⟩ := h.current_active c hc
  exact hv

/-- Settles O59: register by register, the composed words by their numbers. -/
theorem registerViewFollowsTheLayout : Obligations.RegisterViewFollowsTheLayout := fun _ s =>
  ⟨fun _ h => readReg_above_table h s, fun _ _ => readReg_lt, readReg_engine s,
    congrArg some (ctrlWord_toNat s), congrArg some (BitVec.toNat_ofBool _),
    fun h => ⟨0, by simp [readReg, activeWord, h], rfl⟩, fun _ h => congrArg some (activeWord_toNat h),
    readReg_cur_none, fun _ => readReg_cur_some, rfl, rfl, congrArg some (BitVec.toNat_ofBool _), rfl, rfl, rfl,
    fun _ h => ⟨h.active_valid, h.cur_deviceOk⟩⟩

end Sys2Proof.Machine
end

section
/-!
PROOFS. Memory (20_memory.md): what a read sees of a store, who writes memory (R42), and which byte a load transmits, when
the capture buffer overlaps the data buffer (R50) and when the host stores before the load (R48, R53).
-/

namespace Sys2Proof.Machine

variable {W : Widths}

/-! ### A read after a store (R41, R42) -/

/-- A byte of memory after a write, at the address written and at any other. -/
theorem Memory.byteAt_put (m : Memory) (a b : Addr W) (v : Byte) :
    Memory.byteAt (Memory.put a.toNat v m) b = if b = a then v else Memory.byteAt m b := by
  split
  case isTrue h => rw [h, Memory.byteAt_put_same]
  case isFalse h => exact Memory.byteAt_put_other m h v

/-- Settles O58: the form by `Memory.wf_put_addr`, the bytes by `Memory.byteAt_put`. -/
theorem memoryReadsBackWhatWasWritten : Obligations.MemoryReadsBackWhatWasWritten := fun _ m a v h =>
  ⟨Memory.wf_put_addr h a v, fun b => Memory.byteAt_put m a b v⟩

theorem memRead_hostStore (a b : Addr W) (v : Byte) (s : State W) :
    memRead a (s.hostStore b v) = if a = b then v else memRead a s :=
  Memory.byteAt_put s.mem b a v

@[simp] theorem memRead_hostStore_same (a : Addr W) (v : Byte) (s : State W) : memRead a (s.hostStore a v) = v :=
  Memory.byteAt_put_same s.mem a v

/-- `CAPTURE` and `ADVANCE` change the byte at the capture cursor of a capturing descriptor, and no other (R116). -/
theorem memRead_afterByte (a : Addr W) (rx : Byte) (c : Desc W) (s : State W) :
    memRead a (afterByte rx c s) =
      if includesRead c.mode = true ∧ c.capture = some a then rx else memRead a s := by
  rcases hc : c.capture with _ | b
  · simp [memRead, afterByte, captureEvents, hc, memoryAfter]
  · by_cases hr : includesRead c.mode = true
    · simp only [memRead, afterByte, captureEvents, hc, hr, if_true, memoryAfter, Memory.byteAt_put, true_and,
        Option.some.injEq, eq_comm]
    · simp [memRead, afterByte, captureEvents, hc, hr, memoryAfter]

/-- A cursor advanced by one points elsewhere: the address space has two bytes at least (R6, R47). -/
theorem nextAddr_ne (hW : 1 ≤ W.addrW) (a : Addr W) : nextAddr a ≠ a := by
  intro h
  have h1 : 1#W.addrW = 0#_ := add_eq_left.1 h
  have h2 : (1#W.addrW).toNat = 0 := by rw [h1, BitVec.toNat_zero]
  rw [BitVec.toNat_one hW] at h2
  exact one_ne_zero h2

/-! ### Who writes memory (R42) -/

theorem submitOp_keeps_mem {P : Params W} {ds : List (Desc W)} {s t : State W} (h : submitOp P ds s = .next t) :
    t.mem = s.mem := by
  unfold submitOp at h
  split at h
  case isFalse => cases h
  case isTrue =>
    obtain ⟨hr, -⟩ := refuseDevices_eq_next.1 h
    obtain ⟨⟨code, u⟩, hs, hk⟩ := andThen_eq_next hr
    cases hk
    exact (kept_submit hs).1.mem

theorem execInit_keeps_mem {cfg : BusConfig W} {s t : State W} (h : execInit cfg s = .next t) : t.mem = s.mem := by
  unfold execInit at h
  split at h
  · cases h; rfl
  · cases h

theorem execFlush_keeps_mem {s t : State W} (h : execFlush s = .next t) : t.mem = s.mem := by
  cases he : s.engine with
  | busy => rw [execFlush_busy he] at h; cases h; rfl
  | idle => rw [execFlush_idle he, flushAll, releaseAll_eq] at h; cases h; rfl

theorem execShiftDone_keeps_mem {rx : Byte} {s t : State W} (h : execShiftDone rx s = .next t) : t.mem = s.mem := by
  unfold execShiftDone at h
  split at h
  · cases h; rfl
  · cases h

/-- Settles O45: operation by operation; a submission starts transfers and stores nothing (`kept_submit`). -/
theorem onlyTheHandlerWritesMemory : Obligations.OnlyTheHandlerWritesMemory := by
  intro W P i s t hi h
  cases i with
  | init cfg => exact execInit_keeps_mem h
  | createDevice dev =>
    obtain ⟨code, dev, rfl⟩ := createDevice_concluded h
    rfl
  | releaseDevice dev => cases h; rfl
  | write d capture => exact submitOp_keeps_mem h
  | read d cap => exact submitOp_keeps_mem h
  | readWrite w wcapture r cap => exact submitOp_keeps_mem h
  | flush => exact execFlush_keeps_mem h
  | shiftDone rx => exact execShiftDone_keeps_mem h
  | xferComplete => exact absurd rfl hi

/-! ### Which byte a load transmits -/

/-- On the reference platform, which maps no device, the handler's step is its body. -/
theorem exec_xferComplete_eq {s : State} {c : Desc} (h : handlerEnabled s) (hc : s.cur = some c) :
    exec .xferComplete s = handleByte Config.params s.rxr c { s with ifrIF := false } := by
  rw [exec_eq_execAt, xferComplete_eq h hc, refuseDevices_params]

/-- With bytes left the handler transmits the next byte as it is after the capture (R115, R118). -/
theorem handleByte_transmits_next {P : Params W} {rx : Byte} {c : Desc W} {s : State W} (hr : c.remaining ≠ 0#_)
    (hx : s.xip = false) (hi : s.ifrIF = false) :
    ∃ t, handleByte P rx c s = .next t ∧ t.txr = memRead (nextAddr c.data) (afterByte rx c s) := by
  rw [handleByte_eq, if_pos hr, continueTransfer_eq (s := afterByte rx c s) hx hi]
  exact ⟨_, rfl, rfl⟩

/-- With bytes left the byte transmitted is the one received, if it was captured at the next address, and else the byte
that stands there (R48, R50). -/
theorem exec_xferComplete_transmits {s : State} {c : Desc} (hi : s.ifrIF = true) (he : s.ctrlIE = true)
    (hx : s.xip = false) (hc : s.cur = some c) (hr : c.remaining ≠ 0#_) :
    ∃ t, exec .xferComplete s = .next t ∧
      t.txr = if includesRead c.mode = true ∧ c.capture = some (nextAddr c.data) then s.rxr
        else memRead (nextAddr c.data) s := by
  obtain ⟨t, ht, htx⟩ :=
    handleByte_transmits_next (P := Config.params) (rx := s.rxr) (c := c) (s := { s with ifrIF := false }) hr hx rfl
  exact ⟨t, (exec_xferComplete_eq ⟨hi, he⟩ hc).trans ht, htx.trans (memRead_afterByte ..)⟩

/-- Settles O41: `exec_xferComplete_transmits`, the capture at the next address or beside it. -/
theorem overlappingCaptureIsSeenByTheNextLoad : Obligations.OverlappingCaptureIsSeenByTheNextLoad := by
  intro s c hi he hx hc hr hm
  obtain ⟨t, ht, htx⟩ := exec_xferComplete_transmits hi he hx hc hr
  refine ⟨fun hcap => ⟨t, ht, ?_⟩, fun hcap => ⟨t, ht, ?_⟩⟩
  · rw [htx, if_pos ⟨hm, hcap⟩]
  · have hne : c.capture ≠ some (nextAddr c.data) := fun h =>
      nextAddr_ne (by decide) c.data (Option.some.inj (h.symm.trans hcap))
    rw [htx, if_neg fun h => hne h.2]

/-- A pass over a startable descriptor ends the loop and transmits the descriptor's first byte, whatever line is held
(R112, steps 4 to 7). -/
theorem startPass_transmits_first {P : Params W} {ctx : Context} {d : Desc W} {dev : Device W} {s : State W}
    (hd : d.device = some dev) (hr : d.remaining ≠ 0#_) (hx : s.xip = false) (hi : s.ifrIF = false) :
    ∃ t, startPass P ctx d s = .next (false, t) ∧ t.txr = memRead d.data s := by
  have hT := turned P dev (setCur d s)
  simp only [startPass, hd, if_neg hr, startExchange_eq (hT.xip.trans hx) (hT.ifrIF.trans hi), andThen_next]
  exact ⟨_, rfl, congrArg (Memory.byteAt · d.data) hT.mem⟩

/-- START_NEXT with a startable descriptor at the head transmits that descriptor's first byte (R112). -/
theorem startLoop_transmits_first {P : Params W} {ctx : Context} {d : Desc W} {rest : List (Desc W)} {res : ResultCode}
    {dev : Device W} {s : State W} (hd : d.device = some dev) (hr : d.remaining ≠ 0#_) (hx : s.xip = false)
    (hi : s.ifrIF = false) :
    ∃ t, startLoop P ctx (d :: rest) res s = .next (resultAfter d res, t) ∧ t.txr = memRead d.data s := by
  obtain ⟨t, ht, htx⟩ := startPass_transmits_first (P := P) (ctx := ctx) (s := { s with q := rest }) hd hr hx hi
  exact ⟨t, by simp only [startLoop, ht], htx⟩

/-- Ending a descriptor with others queued leaves them to be started, and touches nothing a load depends on (R119, step
4c). -/
theorem exhausted_goes_on {P : Params W} {c : Desc W} {s : State W} {a : Device W} (ha : s.active = some a)
    (hq : s.q ≠ []) :
    ∃ t, exhausted P c s = .next (true, t) ∧ t.q = s.q ∧ t.mem = s.mem ∧ t.xip = s.xip ∧ t.ifrIF = s.ifrIF := by
  by_cases hm : c.mode = .readWrite
  · exact ⟨_, exhausted_held ha hq hm, rfl, rfl, rfl, rfl⟩
  · exact ⟨_, exhausted_chained ha hq hm, rfl, rfl, rfl, rfl⟩

/-- At the last byte the handler transmits the first byte of the startable descriptor at the head of the queue, as it is
after the capture (R119, R112). -/
theorem handleByte_transmits_first {P : Params W} {rx : Byte} {c d : Desc W} {rest : List (Desc W)} {dev a : Device W}
    {s : State W} (hr : c.remaining = 0#_) (ha : s.active = some a) (hq : s.q = d :: rest) (hd : d.device = some dev)
    (hdr : d.remaining ≠ 0#_) (hx : s.xip = false) (hi : s.ifrIF = false) :
    ∃ t, handleByte P rx c s = .next t ∧ t.txr = memRead d.data (afterByte rx c s) := by
  have hne : (afterByte rx c s).q ≠ [] := by simp [afterByte, hq]
  obtain ⟨u, hu, huq, hum, hux, hui⟩ := exhausted_goes_on (P := P) (c := moved c) (s := afterByte rx c s) ha hne
  obtain ⟨t, ht, htx⟩ := startLoop_transmits_first (P := P) (ctx := .interrupt) (rest := rest) (res := .ok) hd hdr
    (hux.trans hx) (hui.trans hi)
  refine ⟨t, ?_, htx.trans (congrArg (Memory.byteAt · d.data) hum)⟩
  rw [handleByte_eq, if_neg (not_not.2 hr), hu]
  simp only [andThen_next, if_true, startNext, huq.trans hq, ht]

/-- A submission while IDLE transmits the first byte of a startable first descriptor (R111, R112). -/
theorem exec_submit_transmits_first {s : State} {i : Instr} {c : Desc} {rest : List Desc} {dev : Device}
    (h : Inv Config.params s) (he : s.engine = .idle) (hw : i.wellFormed Config.params) (hs : submitted i = c :: rest)
    (hd : c.device = some dev) (hr : c.remaining ≠ 0#_) : ∃ t, exec i s = .next t ∧ t.txr = memRead c.data s := by
  have hne : submitted i ≠ [] := by simp [hs]
  have hl : (submitted i).length ≤ Config.params.qcap := by cases i <;> simp [submitted, Config.params]
  obtain ⟨-, -, hx, hi⟩ := h.idle he
  obtain ⟨t, ht, htx⟩ := startLoop_transmits_first (P := Config.params) (ctx := .foreground) (rest := rest) (res := .ok)
    (s := { s with q := c :: rest }) hd hr hx hi
  refine ⟨endWith (resultAfter c .ok) t, ?_, htx⟩
  rw [exec_eq_execAt, execAt_submit hne hw, refuseDevices_params, h.submit_idle he hne hl, hs, ht, andThen_next]

/-- At the last byte, with a startable descriptor next, the byte transmitted is the one received, if it was captured at
that descriptor's first address, and else the byte that stands there (R48, R50). -/
theorem exec_xferComplete_transmits_first {s : State} {c d : Desc} {rest : List Desc} {dev : Device}
    (h : Inv Config.params s) (hi : s.ifrIF = true) (he : s.ctrlIE = true) (hc : s.cur = some c)
    (hr : c.remaining = 0#_) (hq : s.q = d :: rest) (hd : d.device = some dev) (hdr : d.remaining ≠ 0#_) :
    ∃ t, exec .xferComplete s = .next t ∧
      t.txr = if includesRead c.mode = true ∧ c.capture = some d.data then s.rxr else memRead d.data s := by
  have hx : s.xip = false := Bool.eq_false_iff.2 fun hx => h.one_exchange ⟨hx, hi⟩
  obtain ⟨-, a, -, ha, -⟩ := h.current hc
  obtain ⟨t, ht, htx⟩ := handleByte_transmits_first (P := Config.params) (rx := s.rxr) (c := c)
    (s := { s with ifrIF := false }) hr ha hq hd hdr hx rfl
  exact ⟨t, (exec_xferComplete_eq ⟨hi, he⟩ hc).trans ht, htx.trans (memRead_afterByte ..)⟩

/-- Settles O42: each load reads the byte that stands at its address, and after the host's store that is the byte
stored. -/
theorem hostStoreBeforeTheLoadIsTransmitted : Obligations.HostStoreBeforeTheLoadIsTransmitted := by
  intro s v
  refine ⟨fun c hi he hx hc hr hn => ?_, fun i c rest dev h he hw hs hd hr => ?_,
    fun c d rest dev h hi he hc hr hq hd hdr hn => ?_, fun a b => memRead_hostStore a b v s⟩
  · obtain ⟨t, ht, htx⟩ := exec_xferComplete_transmits (s := s.hostStore (nextAddr c.data) v) hi he hx hc hr
    exact ⟨t, ht, by rw [htx, if_neg hn, memRead_hostStore_same]⟩
  · obtain ⟨t, ht, htx⟩ := exec_submit_transmits_first (h.hostStore c.data v) he hw hs hd hr
    exact ⟨t, ht, by rw [htx, memRead_hostStore_same]⟩
  · obtain ⟨t, ht, htx⟩ := exec_xferComplete_transmits_first (h.hostStore d.data v) hi he hc hr hq hd hdr
    exact ⟨t, ht, by rw [htx, if_neg hn, memRead_hostStore_same]⟩

end Sys2Proof.Machine
end

section
/-!
PROOFS. Encoding (30_encoding.md): the decoder reads back what the encoder wrote, and ignores the fields R72 says it
ignores.
-/

namespace Sys2Proof.Machine

/-! ### One equation an opcode -/

@[simp] theorem decode_init (bs : List Byte) : decode (0x01#8 :: bs) = decodeByte (fun cfg => .init cfg) bs := rfl
@[simp] theorem decode_createDevice (bs : List Byte) : decode (0x02#8 :: bs) = decodeP .createDevice bs := rfl
@[simp] theorem decode_releaseDevice (bs : List Byte) : decode (0x03#8 :: bs) = decodeP .releaseDevice bs := rfl
@[simp] theorem decode_write (bs : List Byte) : decode (0x04#8 :: bs) = decodeD bs := rfl
@[simp] theorem decode_read (bs : List Byte) : decode (0x05#8 :: bs) = decodeDC bs := rfl
@[simp] theorem decode_readWrite (bs : List Byte) : decode (0x06#8 :: bs) = decodeDDC bs := rfl
@[simp] theorem decode_flush (bs : List Byte) : decode (0x07#8 :: bs) = .ok (.flush, bs) := rfl
@[simp] theorem decode_shiftDone (bs : List Byte) : decode (0x80#8 :: bs) = decodeByte (fun rx => .shiftDone rx) bs := rfl
@[simp] theorem decode_xferComplete (bs : List Byte) : decode (0x81#8 :: bs) = .ok (.xferComplete, bs) := rfl

/-- The opcodes of R61, and no other byte, have a length (R71). -/
theorem opcode_of_packetLength {op : Byte} {n : Nat} (h : packetLength op = some n) :
    op = 0x01#8 ∨ op = 0x02#8 ∨ op = 0x03#8 ∨ op = 0x04#8 ∨ op = 0x05#8 ∨ op = 0x06#8 ∨ op = 0x07#8 ∨ op = 0x80#8 ∨
      op = 0x81#8 := by
  unfold packetLength at h
  by_contra hop
  simp only [not_or] at hop
  simp [hop] at h

theorem decode_unknown {op : Byte} (h : packetLength op = none) (bs : List Byte) :
    decode (op :: bs) = .error (.unknownOpcode op) := by
  unfold packetLength at h
  split_ifs at h
  simp [decode, decodeBody, *]

/-! ### Decode of encode (R72) -/

@[simp] theorem decodeWord_encoded (v : BitVec 16) (rest : List Byte) :
    decodeWord (lowByte v :: highByte v :: rest) = .ok (v, rest) := by
  rw [decodeWord, word16_lowByte_highByte]

/-- Settles O1: operation by operation, each format reading back the fields that `encode` wrote. -/
theorem decodeInvertsEncode : Obligations.DecodeInvertsEncode := by
  intro i rest
  cases i with
  | init cfg => rfl
  | createDevice dev => simp [encode, Instr.opcode, decodeP, decodePins_encodePins]
  | releaseDevice dev => simp [encode, Instr.opcode, decodeP, decodePins_encodePins]
  | write d capture => simp [encode, Instr.opcode, decodeD, decodeDesc_encodeDesc]
  | read d cap => simp [encode, Instr.opcode, decodeDC, decodeDesc_encodeDesc]
  | readWrite w wcapture r cap => simp [encode, Instr.opcode, decodeDDC, decodeDesc_encodeDesc]
  | flush => rfl
  | shiftDone rx => rfl
  | xferComplete => rfl

/-! ### What the decoder ignores (R72) -/

/-- A bit that a mask keeps is the same in two bytes that are the same under the mask. -/
theorem getLsbD_of_and_eq {f f' m : Byte} (h : f' &&& m = f &&& m) (k : Nat) (hk : m.getLsbD k = true) :
    f'.getLsbD k = f.getLsbD k := by
  simpa [hk] using congrArg (·.getLsbD k) h

theorem decodeDevice_congr {v : Bool} {p p' : Byte} (h : v = true → p' = p) : decodeDevice v p' = decodeDevice v p := by
  cases v with
  | false => rfl
  | true => rw [h rfl]

theorem present_word_congr {v : Bool} {lo lo' hi hi' : Byte} (h : v = true → lo' = lo ∧ hi' = hi) :
    present v (word16 lo' hi') = present v (word16 lo hi) := by
  cases v with
  | false => rfl
  | true => rw [(h rfl).1, (h rfl).2]

/-- FLAGS.`mode` and absent fields are ignored: two DESC records that differ there only read alike. -/
theorem decodeDesc_congr {f f' p p' c0 c1 c0' c1' k0 k1 k0' k1' : Byte} (hf : f' &&& 0xFC#8 = f &&& 0xFC#8)
    (hp : f.getLsbD 2 = true → p' = p) (hc : f.getLsbD 3 = true → c0' = c0 ∧ c1' = c1)
    (hk : f.getLsbD 4 = true → k0' = k0 ∧ k1' = k1) (r0 r1 d0 d1 : Byte) (rest : List Byte) :
    decodeDesc (f' :: p' :: r0 :: r1 :: d0 :: d1 :: c0' :: c1' :: k0' :: k1' :: rest) =
      decodeDesc (f :: p :: r0 :: r1 :: d0 :: d1 :: c0 :: c1 :: k0 :: k1 :: rest) := by
  have bit := getLsbD_of_and_eq hf
  simp only [decodeDesc, bit 2 rfl, bit 3 rfl, bit 4 rfl, bit 5 rfl, bit 6 rfl, bit 7 rfl, decodeDevice_congr hp,
    present_word_congr hc, present_word_congr hk]

/-- The same for a record whose capture cursor the operation overwrites: `cap_v` and `capture` may differ too, and the two
records read alike but for their capture cursors. -/
theorem decodeDesc_overwritten {f f' p p' k0 k1 k0' k1' : Byte} (hf : f' &&& 0xF4#8 = f &&& 0xF4#8)
    (hp : f.getLsbD 2 = true → p' = p) (hk : f.getLsbD 4 = true → k0' = k0 ∧ k1' = k1)
    (r0 r1 d0 d1 c0 c1 c0' c1' : Byte) (rest : List Byte) :
    (∃ e, decodeDesc (f' :: p' :: r0 :: r1 :: d0 :: d1 :: c0' :: c1' :: k0' :: k1' :: rest) = .error e ∧
        decodeDesc (f :: p :: r0 :: r1 :: d0 :: d1 :: c0 :: c1 :: k0 :: k1 :: rest) = .error e) ∨
      ∃ d c c', decodeDesc (f' :: p' :: r0 :: r1 :: d0 :: d1 :: c0' :: c1' :: k0' :: k1' :: rest) = .ok (d, c', rest) ∧
        decodeDesc (f :: p :: r0 :: r1 :: d0 :: d1 :: c0 :: c1 :: k0 :: k1 :: rest) = .ok (d, c, rest) := by
  have bit := getLsbD_of_and_eq hf
  simp only [decodeDesc, bit 2 rfl, bit 4 rfl, bit 5 rfl, bit 6 rfl, bit 7 rfl, decodeDevice_congr hp,
    present_word_congr hk]
  split
  · exact .inl ⟨_, rfl, rfl⟩
  · cases decodeDevice (f.getLsbD 2) p with
    | error e => exact .inl ⟨e, rfl, rfl⟩
    | ok device => exact .inr ⟨_, _, _, rfl, rfl⟩

/-- Settles O2: a WRITE record and the first of READ_WRITE by `decodeDesc_congr`, a READ record and the second of READ_WRITE
by `decodeDesc_overwritten`. -/
theorem decoderIgnoresOverwrittenAndAbsentFields : Obligations.DecoderIgnoresOverwrittenAndAbsentFields := by
  intro f f' p p' r0 r1 d0 d1 c0 c1 c0' c1' k0 k1 k0' k1' hp hk
  refine ⟨fun hf hc => ?_, fun hf => ⟨fun rest => ?_, fun w rest hw => ?_⟩⟩
  · have same := decodeDesc_congr hf hp hc hk r0 r1 d0 d1
    exact ⟨fun rest => by simp only [decode_write, decodeD, same],
      fun rest => by simp only [decode_readWrite, decodeDDC, same]⟩
  · rcases decodeDesc_overwritten hf hp hk r0 r1 d0 d1 c0 c1 c0' c1' rest with ⟨e, h', h⟩ | ⟨d, c, c', h', h⟩ <;>
      simp only [decode_read, decodeDC, h', h]
  · obtain ⟨x, hx⟩ := decodeDesc_front hw
    simp only [List.cons_append, decode_readWrite, decodeDDC, hx]
    rcases x with e | ⟨dw, cw⟩
    · rfl
    · rcases decodeDesc_overwritten hf hp hk r0 r1 d0 d1 c0 c1 c0' c1' rest with ⟨e, h', h⟩ | ⟨d, c, c', h', h⟩ <;>
        simp only [h', h]

end Sys2Proof.Machine
end

section
/-!
PROOFS. Encoding (30_encoding.md): which bytes the decoder takes for a packet (R71, R73), and that a packet matches its row
of the opcode table and no other (R62).
-/

namespace Sys2Proof.Machine

/-! ### Which bytes are a packet (R71, R73) -/

theorem exists_decodePins_iff {b : Byte} : (∃ dev, decodePins b = .ok dev) ↔ pinsReadable b := by
  unfold decodePins pinsReadable
  cases b.getLsbD 3 <;> cases b.getLsbD 7 <;> simp

theorem exists_decodeDevice_iff {v : Bool} {p : Byte} :
    (∃ device, decodeDevice v p = .ok device) ↔ (v = true → pinsReadable p) := by
  rw [← exists_decodePins_iff]
  cases v with
  | false => simp [decodeDevice]
  | true => cases h : decodePins p <;> simp [decodeDevice, h]

theorem exists_decodeDesc_cons_iff {f p r0 r1 d0 d1 c0 c1 k0 k1 : Byte} {rest : List Byte} :
    (∃ d c, decodeDesc (f :: p :: r0 :: r1 :: d0 :: d1 :: c0 :: c1 :: k0 :: k1 :: rest) = .ok (d, c, rest)) ↔
      recordReadable f p := by
  simp only [decodeDesc]
  split
  case isTrue hf => exact iff_of_false (by simp) fun ⟨h5, h6, h7, _⟩ => by simp only [h5, h6, h7] at hf; cases hf
  case isFalse hf =>
    simp only [Bool.or_eq_true, not_or, Bool.not_eq_true] at hf
    obtain ⟨⟨h5, h6⟩, h7⟩ := hf
    rw [recordReadable, ← exists_decodeDevice_iff]
    simp only [h5, h6, h7, true_and]
    cases decodeDevice (f.getLsbD 2) p <;> simp

/-- The ten bytes of a DESC record that is no `invalid`. -/
def IsRecord (w : List Byte) : Prop := w.length = 10 ∧ recordReadable (w.getD 0 0#8) (w.getD 1 0#8)

/-- A record is read, whatever follows it, and nothing else is. -/
theorem exists_decodeDesc_iff {bs rest : List Byte} :
    (∃ d c, decodeDesc bs = .ok (d, c, rest)) ↔ ∃ w, bs = w ++ rest ∧ IsRecord w := by
  constructor
  · rintro ⟨d, c, h⟩
    obtain ⟨f, p, r0, r1, d0, d1, c0, c1, k0, k1, rfl, -⟩ := decodeDesc_ok h
    exact ⟨[f, p, r0, r1, d0, d1, c0, c1, k0, k1], rfl, rfl, exists_decodeDesc_cons_iff.1 ⟨d, c, h⟩⟩
  · rintro ⟨w, rfl, hl, hr⟩
    match w, hl with
    | [f, p, r0, r1, d0, d1, c0, c1, k0, k1], _ => exact exists_decodeDesc_cons_iff.2 hr

/-- The packets of an operation, as far as their length and the bits the decoder looks at go (R61, R62, R73). -/
inductive IsPacket : Instr → List Byte → Prop
  | init (cfg : BusConfig) : IsPacket (.init cfg) [0x01#8, cfg]
  | createDevice (dev : Device) {b : Byte} (hb : pinsReadable b) : IsPacket (.createDevice dev) [0x02#8, b]
  | releaseDevice (dev : Device) {b : Byte} (hb : pinsReadable b) : IsPacket (.releaseDevice dev) [0x03#8, b]
  | write (d : Request) (c : Option Addr) {w : List Byte} (hw : IsRecord w) : IsPacket (.write d c) (0x04#8 :: w)
  | read (d : Request) (cap : Addr) {w : List Byte} (hw : IsRecord w) (lo hi : Byte) :
      IsPacket (.read d cap) (0x05#8 :: (w ++ [lo, hi]))
  | readWrite (d : Request) (c : Option Addr) (r : Request) (cap : Addr) {v w : List Byte} (hv : IsRecord v)
      (hw : IsRecord w) (lo hi : Byte) : IsPacket (.readWrite d c r cap) (0x06#8 :: (v ++ (w ++ [lo, hi])))
  | flush : IsPacket .flush [0x07#8]
  | shiftDone (rx : Byte) : IsPacket (.shiftDone rx) [0x80#8, rx]
  | xferComplete : IsPacket .xferComplete [0x81#8]

/-- `bs` is a packet of `i`, then `rest`. -/
abbrev PacketThen (i : Instr) (bs rest : List Byte) : Prop := ∃ packet, bs = packet ++ rest ∧ IsPacket i packet

theorem decodeByte_eq_ok {make : Byte → Instr} {bs rest : List Byte} {i : Instr}
    (h : decodeByte make bs = .ok (i, rest)) : ∃ b, i = make b ∧ bs = b :: rest := by
  cases bs with
  | nil => cases h
  | cons b bs => cases h; exact ⟨b, rfl, rfl⟩

theorem decodeP_eq_ok {make : Device → Instr} {bs rest : List Byte} {i : Instr} (h : decodeP make bs = .ok (i, rest)) :
    ∃ dev b, i = make dev ∧ bs = b :: rest ∧ pinsReadable b := by
  cases bs with
  | nil => cases h
  | cons b bs =>
    simp only [decodeP] at h
    split at h
    · cases h
    · rename_i dev hb
      cases h
      exact ⟨dev, b, rfl, rfl, exists_decodePins_iff.1 ⟨dev, hb⟩⟩

theorem decodeD_eq_ok {bs rest : List Byte} {i : Instr} (h : decodeD bs = .ok (i, rest)) :
    PacketThen i (0x04#8 :: bs) rest := by
  unfold decodeD at h
  split at h
  · cases h
  · rename_i d c _ hd
    cases h
    obtain ⟨w, rfl, hw⟩ := exists_decodeDesc_iff.1 ⟨d, c, hd⟩
    exact ⟨_, rfl, .write d c hw⟩

theorem decodeDC_eq_ok {bs rest : List Byte} {i : Instr} (h : decodeDC bs = .ok (i, rest)) :
    PacketThen i (0x05#8 :: bs) rest := by
  unfold decodeDC at h
  split at h
  · cases h
  · rename_i d c _ hd
    split at h
    · cases h
    · rename_i cap _ hcap
      cases h
      obtain ⟨w, rfl, hw⟩ := exists_decodeDesc_iff.1 ⟨d, c, hd⟩
      obtain ⟨lo, hi, rfl⟩ := decodeWord_ok hcap
      exact ⟨_, by simp, .read d cap hw lo hi⟩

theorem decodeDDC_eq_ok {bs rest : List Byte} {i : Instr} (h : decodeDDC bs = .ok (i, rest)) :
    PacketThen i (0x06#8 :: bs) rest := by
  unfold decodeDDC at h
  split at h
  · cases h
  · rename_i d c _ hd
    split at h
    · cases h
    · rename_i r c' _ hr
      split at h
      · cases h
      · rename_i cap _ hcap
        cases h
        obtain ⟨v, rfl, hv⟩ := exists_decodeDesc_iff.1 ⟨d, c, hd⟩
        obtain ⟨w, rfl, hw⟩ := exists_decodeDesc_iff.1 ⟨r, c', hr⟩
        obtain ⟨lo, hi, rfl⟩ := decodeWord_ok hcap
        exact ⟨_, by simp, .readWrite d c r cap hv hw lo hi⟩

/-- The decoder reads packets only: what it takes off the front is a packet of what it answers. -/
theorem decode_eq_ok {bs rest : List Byte} {i : Instr} (h : decode bs = .ok (i, rest)) : PacketThen i bs rest := by
  obtain _ | ⟨op, bs⟩ := bs
  · cases h
  cases hn : packetLength op with
  | none => rw [decode_unknown hn] at h; cases h
  | some n =>
    rcases opcode_of_packetLength hn with rfl | rfl | rfl | rfl | rfl | rfl | rfl | rfl | rfl
    · obtain ⟨cfg, rfl, rfl⟩ := decodeByte_eq_ok h
      exact ⟨_, rfl, .init cfg⟩
    · obtain ⟨dev, b, rfl, rfl, hb⟩ := decodeP_eq_ok h
      exact ⟨_, rfl, .createDevice dev hb⟩
    · obtain ⟨dev, b, rfl, rfl, hb⟩ := decodeP_eq_ok h
      exact ⟨_, rfl, .releaseDevice dev hb⟩
    · exact decodeD_eq_ok h
    · exact decodeDC_eq_ok h
    · exact decodeDDC_eq_ok h
    · cases h
      exact ⟨_, rfl, .flush⟩
    · obtain ⟨rx, rfl, rfl⟩ := decodeByte_eq_ok h
      exact ⟨_, rfl, .shiftDone rx⟩
    · cases h
      exact ⟨_, rfl, .xferComplete⟩

theorem IsPacket.length {i : Instr} {packet : List Byte} (h : IsPacket i packet) :
    ∃ tail, packet = i.opcode :: tail ∧ packetLength i.opcode = some packet.length := by
  cases h with
  | write d c hw => exact ⟨_, rfl, by simp [Instr.opcode, packetLength, hw.1]⟩
  | read d cap hw lo hi => exact ⟨_, rfl, by simp [Instr.opcode, packetLength, hw.1]⟩
  | readWrite d c r cap hv hw lo hi => exact ⟨_, rfl, by simp [Instr.opcode, packetLength, hv.1, hw.1]⟩
  | _ => exact ⟨_, rfl, rfl⟩

theorem packetLength_mem {op : Byte} {n : Nat} (h : packetLength op = some n) : n ∈ [1, 2, 11, 13, 23] := by
  have key : ∀ op : Byte, ∀ n ∈ packetLength op, n ∈ [1, 2, 11, 13, 23] := by decide
  exact key op n h

/-- Settles O4: each shape of packet begins with its opcode and is as long as the opcode says. -/
theorem packetLengthComesFromOpcodeAlone : Obligations.PacketLengthComesFromOpcodeAlone := by
  intro bs rest i h
  obtain ⟨packet, rfl, hp⟩ := decode_eq_ok h
  obtain ⟨tail, rfl, hl⟩ := hp.length
  exact ⟨_, rfl, rfl, hl, packetLength_mem hl⟩

/-! ### The table's numbering (R62) -/

/-- Masking packets taken as numbers is masking them byte by byte. -/
theorem packetNumber_and_packetNumber (p m : List Byte) :
    packetNumber p &&& packetNumber m = packetNumber (List.zipWith (· &&& ·) p m) := by
  induction p generalizing m with
  | nil => simp [packetNumber]
  | cons b bs ih =>
    cases m with
    | nil => simp [packetNumber]
    | cons c cs => exact (packetNumber_and b c (b &&& c) _ _ _).2 ⟨rfl, ih cs⟩

/-- The mask of an operation's row as bytes: the opcode byte, and the reserved bits of what is read. -/
def maskBytes : Instr → List Byte
  | .init _ => [0xFF#8]
  | .createDevice _ => [0xFF#8, 0x88#8]
  | .releaseDevice _ => [0xFF#8, 0x88#8]
  | .write _ _ => [0xFF#8, 0xE0#8]
  | .read _ _ => [0xFF#8, 0xE0#8]
  | .readWrite _ _ _ _ => [0xFF#8, 0xE0#8, 0#8, 0#8, 0#8, 0#8, 0#8, 0#8, 0#8, 0#8, 0#8, 0xE0#8]
  | .flush => [0xFF#8]
  | .shiftDone _ => [0xFF#8]
  | .xferComplete => [0xFF#8]

/-- The row with an operation's mnemonic has its opcode's length, its opcode and its mask. -/
theorem row_of_mnemonic (i : Instr) : ∀ row ∈ opcodeTable, row.mnemonic = i.mnemonic →
    packetLength i.opcode = some row.length ∧ row.value = i.opcode.toNat ∧ row.mask = packetNumber (maskBytes i) := by
  cases i <;> simp [opcodeTable, Instr.mnemonic, Instr.opcode, maskBytes, packetNumber, packetLength]

theorem mnemonic_of_opcode (i : Instr) :
    ∀ row ∈ opcodeTable, row.value % 256 = i.opcode.toNat → row.mnemonic = i.mnemonic := by
  cases i <;> simp [opcodeTable, Instr.opcode, Instr.mnemonic]

/-- Every row compares the whole opcode byte, so a packet matches rows of its own opcode only. -/
theorem opcode_of_matches {row : OpcodeRow} (hrow : row ∈ opcodeTable) {op : Byte} {tail : List Byte} {n : Nat}
    (h : row.matches n (packetNumber (op :: tail))) : row.value % 256 = op.toNat := by
  have mask : ∀ row ∈ opcodeTable, row.mask % 2 ^ 8 = 2 ^ 8 - 1 := by decide
  have hop := op.isLt
  calc row.value % 2 ^ 8 = (packetNumber (op :: tail) &&& row.mask) % 2 ^ 8 := by rw [h.2]
    _ = packetNumber (op :: tail) % 2 ^ 8 := by
      rw [Nat.and_mod_two_pow, mask row hrow, Nat.and_two_pow_sub_one_eq_mod, Nat.mod_mod]
    _ = op.toNat := by rw [packetNumber]; omega

theorem IsRecord.bytes {w : List Byte} (hw : IsRecord w) :
    ∃ f p r0 r1 d0 d1 c0 c1 k0 k1, w = [f, p, r0, r1, d0, d1, c0, c1, k0, k1] ∧ f &&& 0xE0#8 = 0#8 := by
  obtain ⟨d, c, h⟩ := exists_decodeDesc_iff.2 ⟨w, (List.append_nil w).symm, hw⟩
  exact decodeDesc_ok h

theorem and_of_pinsReadable {b : Byte} (hb : pinsReadable b) : b &&& 0x88#8 = 0#8 := by
  obtain ⟨dev, h⟩ := exists_decodePins_iff.2 hb
  exact decodePins_ok h

/-- Under its row's mask nothing of a packet is left but the opcode: the other bits looked at are reserved, and zero. -/
theorem IsPacket.masked {i : Instr} {packet : List Byte} (h : IsPacket i packet) :
    packetNumber packet &&& packetNumber (maskBytes i) = i.opcode.toNat := by
  rw [packetNumber_and_packetNumber]
  cases h with
  | createDevice dev hb => simp [maskBytes, packetNumber, Instr.opcode, and_of_pinsReadable hb]
  | releaseDevice dev hb => simp [maskBytes, packetNumber, Instr.opcode, and_of_pinsReadable hb]
  | write d c hw =>
    obtain ⟨f, p, r0, r1, d0, d1, c0, c1, k0, k1, rfl, hf⟩ := hw.bytes
    simp [maskBytes, packetNumber, Instr.opcode, hf]
  | read d cap hw lo hi =>
    obtain ⟨f, p, r0, r1, d0, d1, c0, c1, k0, k1, rfl, hf⟩ := hw.bytes
    simp [maskBytes, packetNumber, Instr.opcode, hf]
  | readWrite d c r cap hv hw lo hi =>
    obtain ⟨f, p, r0, r1, d0, d1, c0, c1, k0, k1, rfl, hf⟩ := hv.bytes
    obtain ⟨f', p', r0', r1', d0', d1', c0', c1', k0', k1', rfl, hf'⟩ := hw.bytes
    simp [maskBytes, packetNumber, Instr.opcode, hf, hf']
  | _ => simp [maskBytes, packetNumber, Instr.opcode]

/-- Settles O5: the opcode tells the rows apart, and a packet has the bits its own row asks for. -/
theorem packetMatchesItsTableRowOnly : Obligations.PacketMatchesItsTableRowOnly := by
  intro bs rest i h
  obtain ⟨packet, rfl, hp⟩ := decode_eq_ok h
  obtain ⟨tail, rfl, hl⟩ := hp.length
  refine ⟨_, rfl, fun row hrow => ⟨fun hm => mnemonic_of_opcode i row hrow (opcode_of_matches hrow hm), fun hn => ?_⟩⟩
  obtain ⟨hlength, hvalue, hmask⟩ := row_of_mnemonic i row hrow hn
  exact ⟨Option.some.inj (hl.symm.trans hlength), by rw [hmask, hvalue, hp.masked]⟩

/-! ### The decoder reads every packet (R73) -/

theorem IsRecord.readable {w : List Byte} (hw : IsRecord w) (rest : List Byte) :
    recordReadable ((w ++ rest).getD 0 0#8) ((w ++ rest).getD 1 0#8) := by
  obtain ⟨hl, hr⟩ := hw
  rwa [List.getD_append _ _ _ _ (by omega), List.getD_append _ _ _ _ (by omega)]

theorem IsRecord.readable_behind {v w : List Byte} (hv : IsRecord v) (hw : IsRecord w) (rest : List Byte) :
    recordReadable ((v ++ (w ++ rest)).getD 10 0#8) ((v ++ (w ++ rest)).getD 11 0#8) := by
  rw [List.getD_append_right _ _ _ _ hv.1.le, List.getD_append_right _ _ _ _ (hv.1.le.trans (by omega)), hv.1]
  exact hw.readable rest

theorem beginsWithPacket_of_isPacket {i : Instr} {packet : List Byte} (h : IsPacket i packet) (rest : List Byte) :
    beginsWithPacket (packet ++ rest) := by
  obtain ⟨tail, rfl, hl⟩ := h.length
  refine ⟨_, _, _, rfl, hl, by simp, ?_⟩
  cases h with
  | createDevice dev hb => simpa [Instr.opcode] using hb
  | releaseDevice dev hb => simpa [Instr.opcode] using hb
  | write d c hw => simpa [Instr.opcode] using hw.readable rest
  | read d cap hw lo hi => simpa [Instr.opcode] using hw.readable ([lo, hi] ++ rest)
  | @readWrite d c r cap v w hv hw lo hi =>
    refine ⟨by simp [Instr.opcode], fun _ => ?_, fun _ => ?_⟩
    · simpa using hv.readable (w ++ ([lo, hi] ++ rest))
    · simpa using hv.readable_behind hw ([lo, hi] ++ rest)
  | _ => simp [Instr.opcode]

theorem exists_decodeP {make : Device → Instr} {bs : List Byte} (hl : 0 < bs.length) (hb : pinsReadable (bs.getD 0 0#8)) :
    ∃ i rest, decodeP make bs = .ok (i, rest) := by
  obtain ⟨b, rest, rfl⟩ := List.exists_cons_of_length_pos hl
  obtain ⟨dev, hd⟩ := exists_decodePins_iff.2 hb
  exact ⟨make dev, rest, by simp only [decodeP, show decodePins b = .ok dev from hd]⟩

theorem exists_decodeByte {make : Byte → Instr} {bs : List Byte} (hl : 0 < bs.length) :
    ∃ i rest, decodeByte make bs = .ok (i, rest) := by
  obtain ⟨b, rest, rfl⟩ := List.exists_cons_of_length_pos hl
  exact ⟨make b, rest, rfl⟩

theorem exists_decodeWord {bs : List Byte} (hl : 2 ≤ bs.length) : ∃ v rest, decodeWord bs = .ok (v, rest) := by
  match bs, hl with
  | lo :: hi :: rest, _ => exact ⟨_, rest, rfl⟩

theorem exists_decodeDesc {bs : List Byte} (hl : 10 ≤ bs.length) (hr : recordReadable (bs.getD 0 0#8) (bs.getD 1 0#8)) :
    ∃ d c, decodeDesc bs = .ok (d, c, bs.drop 10) :=
  exists_decodeDesc_iff.2 ⟨bs.take 10, (List.take_append_drop 10 bs).symm, by simp [hl],
    by simpa [List.getElem?_take] using hr⟩

theorem exists_decode_of_beginsWithPacket {bs : List Byte} (h : beginsWithPacket bs) :
    ∃ i rest, decode bs = .ok (i, rest) := by
  obtain ⟨op, tail, n, rfl, hn, hl, hpins, hfirst, hsecond⟩ := h
  rcases opcode_of_packetLength hn with rfl | rfl | rfl | rfl | rfl | rfl | rfl | rfl | rfl <;>
    obtain rfl := Option.some.inj hn <;> rw [List.length_cons] at hl
  · exact exists_decodeByte (by omega)
  · exact exists_decodeP (by omega) (hpins (by simp))
  · exact exists_decodeP (by omega) (hpins (by simp))
  · obtain ⟨d, c, hd⟩ := exists_decodeDesc (by omega) (hfirst (by simp))
    exact ⟨.write d c, tail.drop 10, by simp only [decode_write, decodeD, hd]⟩
  · obtain ⟨d, c, hd⟩ := exists_decodeDesc (by omega) (hfirst (by simp))
    obtain ⟨cap, rest, hw⟩ := exists_decodeWord (bs := tail.drop 10) (by simp; omega)
    exact ⟨.read d cap, rest, by simp only [decode_read, decodeDC, hd, hw]⟩
  · obtain ⟨d, c, hd⟩ := exists_decodeDesc (by omega) (hfirst (by simp))
    obtain ⟨r, c', hr⟩ := exists_decodeDesc (bs := tail.drop 10) (by simp; omega) (by simpa using hsecond rfl)
    obtain ⟨cap, rest, hw⟩ := exists_decodeWord (bs := (tail.drop 10).drop 10) (by simp; omega)
    exact ⟨.readWrite d c r cap, rest, by simp only [decode_readWrite, decodeDDC, hd, hr, hw]⟩
  · exact ⟨_, _, rfl⟩
  · exact exists_decodeByte (by omega)
  · exact ⟨_, _, rfl⟩

/-- The decoder answers an operation exactly where the bytes begin with a packet. -/
theorem exists_decode_iff {bs : List Byte} : (∃ i rest, decode bs = .ok (i, rest)) ↔ beginsWithPacket bs := by
  refine ⟨?_, exists_decode_of_beginsWithPacket⟩
  rintro ⟨i, rest, h⟩
  obtain ⟨packet, rfl, hp⟩ := decode_eq_ok h
  exact beginsWithPacket_of_isPacket hp rest

end Sys2Proof.Machine
end

section
/-!
PROOFS. Encoding (30_encoding.md): the step on what the script begins with (R60, R73), the result of a host operation (R78),
and the steps that are refused (R69, R140, R45).
-/

namespace Sys2Proof.Machine

variable {W : Widths}

/-! ### Fetching (R60, R73) -/

theorem fetch_of_decode {s : State} {i : Instr} {rest : List Byte} (h : decode s.script = .ok (i, rest)) :
    fetch s = .next (i, { s with script := rest }) := by
  unfold fetch
  split
  · rename_i hs
    rw [hs] at h
    cases h
  · rw [h]

theorem fetch_of_invalid {s : State} {why : Invalid} (hs : s.script ≠ []) (h : decode s.script = .error why) :
    fetch s = .refused (.invalidPacket why) := by
  unfold fetch
  split
  · contradiction
  · rw [h]

/-- A step runs the operation that `decode` reads at the front of the script. -/
theorem step_of_decode {s : State} {i : Instr} {rest : List Byte} (h : decode s.script = .ok (i, rest)) :
    step s = exec i { s with script := rest } := by
  rw [step, fetch_of_decode h]

/-- A step on bytes that are no packet is refused by the name of what is wrong with them. -/
theorem step_of_invalid {s : State} {why : Invalid} (hs : s.script ≠ []) (h : decode s.script = .error why) :
    step s = .refused (.invalidPacket why) := by
  rw [step, fetch_of_invalid hs h]

/-- Settles O9: the step of a decoded packet, and `decodeInvertsEncode` for the canonical one. -/
theorem stepRunsTheDecodedOperation : Obligations.StepRunsTheDecodedOperation :=
  ⟨fun _ _ _ => step_of_decode, fun _ i rest hs => step_of_decode (hs ▸ decodeInvertsEncode i rest)⟩

/-- Only an operation that submits descriptors can be ill-formed, and it is refused (R73). -/
theorem exec_illFormed {i : Instr} (h : ¬ i.wellFormed Config.params) (s : State) :
    exec i s = .refused .illFormedDevice := by
  have hne : submitted i ≠ [] := by
    intro hs
    cases i <;> simp [submitted, Instr.wellFormed] at hs h
  rw [exec_eq_execAt, execAt_submitOp hne, submitOp, if_neg (mt (wellFormed_iff_submitted hne).2 h)]

/-- Settles O3: `exists_decode_iff` for the decoder; a step stops where the decoder or the operation does. -/
theorem invalidAndIllFormedPacketsAreRefused : Obligations.InvalidAndIllFormedPacketsAreRefused :=
  ⟨fun _ => exists_decode_iff, fun _ bs h => decode_unknown h bs, fun _ _ => step_of_invalid,
    fun _ _ _ h hw => (step_of_decode h).trans (exec_illFormed hw _)⟩

/-- Settles O6: each packet is decoded as it stands. -/
theorem specPacketsDecodeAsWritten : Obligations.SpecPacketsDecodeAsWritten := by
  unfold Obligations.SpecPacketsDecodeAsWritten
  decide

/-! ### Results (R78) -/

/-- Settles O49: no event of an operation's body is a `Result` (`Told.noResult`), and `Concluded` says how it ends. -/
theorem hostOperationsEndWithOneResult : Obligations.HostOperationsEndWithOneResult := by
  intro W P i s t h ht
  obtain ⟨u, evs, hb, hc⟩ := execAt_body h ht
  have hnone := hb.told.noResult
  have htrace := hb.told.trace
  cases i with
  | shiftDone rx =>
    obtain rfl : t = u := hc
    exact ⟨fun _ => ⟨evs, htrace, hnone⟩, fun hn => absurd (.inl ⟨rx, rfl⟩) hn⟩
  | xferComplete =>
    obtain rfl : t = u := hc
    exact ⟨fun _ => ⟨evs, htrace, hnone⟩, fun hn => absurd (.inr rfl) hn⟩
  | _ =>
    obtain ⟨code, dev, rfl⟩ := hc
    exact ⟨by simp, fun _ => ⟨evs, code, dev, congrArg (· ++ [Event.result code dev]) htrace, hnone⟩⟩

/-! ### Refused steps (R69, R140, R45) -/

/-- The same parameters on a platform without devices. -/
abbrev withoutDevices (P : Params W) : Params W := { P with devices := [] }

theorem startPass_withoutDevices (P : Params W) : startPass (withoutDevices P) = startPass P := rfl

theorem startLoop_withoutDevices (P : Params W) (ctx : Context) (ds : List (Desc W)) (res : ResultCode) (s : State W) :
    startLoop (withoutDevices P) ctx ds res s = startLoop P ctx ds res s := by
  induction ds generalizing res s with
  | nil => rfl
  | cons d rest ih => simp only [startLoop, startPass_withoutDevices, ih]

theorem startNext_withoutDevices (P : Params W) : startNext (withoutDevices P) = startNext P := by
  funext ctx s
  exact startLoop_withoutDevices P ctx s.q .ok s

theorem enqueueAll_withoutDevices (P : Params W) (ds : List (Desc W)) (s : State W) :
    enqueueAll (withoutDevices P) ds s = enqueueAll P ds s := by
  induction ds generalizing s with
  | nil => rfl
  | cons d rest ih => exact ih _

theorem submit_withoutDevices (P : Params W) (ds : List (Desc W)) (s : State W) :
    submit (withoutDevices P) ds s = submit P ds s := by
  simp only [submit, kick, startNext_withoutDevices, enqueueAll_withoutDevices]
  rfl

theorem runHandler_withoutDevices (P : Params W) (s : State W) :
    runHandler (withoutDevices P) s = runHandler P s := by
  simp only [runHandler, handleByte, startNext_withoutDevices]
  rfl

theorem submitOp_eq_refuseDevices (P : Params W) (ds : List (Desc W)) (s : State W) :
    submitOp P ds s = refuseDevices P (submitOp (withoutDevices P) ds s) := by
  by_cases hd : ∀ d ∈ ds, deviceOk P d.device
  · rw [submitOp, if_pos hd, submitOp, if_pos hd, refuseDevices_of_empty (P := withoutDevices P) rfl,
      submit_withoutDevices]
  · rw [submitOp, if_neg hd, submitOp, if_neg hd, refuseDevices_refused]

/-- An operation that can start or go on with an exchange looks at the platform's devices only once it has run (R45). -/
theorem execAt_eq_refuseDevices {P : Params W} {i : Instr W} (hi : submitted i ≠ [] ∨ i = .xferComplete) (s : State W) :
    execAt P i s = refuseDevices P (execAt (withoutDevices P) i s) := by
  rcases hi with hi | rfl
  · rw [execAt_submitOp hi, execAt_submitOp hi, submitOp_eq_refuseDevices]
  · rw [execAt, execAt, xferCompleteAt, xferCompleteAt, refuseDevices_of_empty (P := withoutDevices P) rfl,
      runHandler_withoutDevices]

theorem exec_shiftDone_disabled {rx : Byte} {s : State} (h : ¬ shiftEnabled s) :
    exec (.shiftDone rx) s = .refused .noExchangeInFlight := if_neg h

theorem exec_xferComplete_disabled {s : State} (h : ¬ handlerEnabled s) :
    exec .xferComplete s = .refused .handlerNotEnabled := by
  rw [exec, execXferComplete, xferCompleteAt, refuseDevices_params, runHandler, if_neg h]

theorem exec_init_disabled {cfg : BusConfig} {s : State} (h : ¬ initEnabled s) :
    exec (.init cfg) s = .refused .initNotIdle := if_neg h

/-- Settles O18: each enabling condition fails, and `execAt_eq_refuseDevices` leaves the check at the end. -/
theorem disabledStepsAreRefused : Obligations.DisabledStepsAreRefused := by
  refine ⟨fun rx s hx => exec_shiftDone_disabled (by simp [hx]), fun s hs => exec_xferComplete_disabled ?_,
    fun cfg s hs => exec_init_disabled ?_, fun W P i s t hi ht => ?_⟩
  · rcases hs with h | h <;> simp [h]
  · rcases hs with h | h | h | h | h <;> simp [h]
  · rw [execAt_eq_refuseDevices hi, ht]
    exact ⟨refuseDevices_collides, refuseDevices_next⟩

end Sys2Proof.Machine
end

section
/-!
PROOFS. The device selector (40_device_selector.md): the two host operations on Devices (R90, R91), turning to a device
(R93, R96), a start that takes the held line from another device (R96, R112), and at most one select line at every point
(R97).
-/

namespace Sys2Proof.Machine

variable {W : Widths}

/-! ### At most one select line (R97) -/

/-- An asserted line is the active device's (R97, R184). -/
theorem Inv.active_of_asserted {P : Params W} {s : State W} (h : Inv P s) {d : Device W} (hd : asserted P d s) :
    ∃ a, s.active = some a ∧ a.lbit = d.lbit :=
  Option.map_eq_some_iff.1 (h.only_active_line d.lbit hd.2)

/-- Settles O16: the body's events keep at most one line active (`Told.lines`), and a `Result` touches no line. -/
theorem atMostOneSelectLineAtEveryPoint : Obligations.AtMostOneSelectLineAtEveryPoint := by
  intro W P s h
  refine ⟨fun d => h.active_of_asserted, fun d e hd he => h.mid.oneLine _ _ hd.2 he.2, fun i t ht => ?_⟩
  obtain ⟨u, evs, ⟨told, inv, -⟩, hc⟩ := execAt_body h ht
  have hu : oneLine P (levelsAfter P evs s.lvl) := told.levels ▸ inv.mid.oneLine
  obtain ⟨tail, rfl, rfl | ⟨code, dev, rfl⟩⟩ := hc.tail
  · exact ⟨evs, by simp [told.trace], told.lines, told.levels⟩
  · exact ⟨evs ++ [.result code dev], by simp [told.trace], oneLineThroughout_append told.lines (by exact ⟨hu, hu⟩),
      by simp [told.levels, levelsAfter]⟩

/-! ### Turning to a device (R93, R96) -/

/-- The switch guard records no device. -/
@[simp] theorem switchGuard_active (P : Params W) (dev : Device W) (s : State W) :
    (switchGuard P dev s).active = s.active := by
  rcases switchGuard_cases P dev s with h | ⟨a, -, -, -, h⟩ <;> rw [h]
  rfl

/-- The switch guard changes no pin's direction. -/
@[simp] theorem switchGuard_dir (P : Params W) (dev : Device W) (s : State W) : (switchGuard P dev s).dir = s.dir := by
  rcases switchGuard_cases P dev s with h | ⟨a, -, -, -, h⟩ <;> rw [h]
  rfl

/-- The switch guard touches no level where the active device's line is not asserted. -/
theorem switchGuard_no_line {P : Params W} {dev : Device W} {s : State W}
    (h : ∀ a, s.active = some a → ¬ asserted P a s) : switchGuard P dev s = s := by
  rcases switchGuard_cases P dev s with hs | ⟨a, ha, -, hl, -⟩
  · exact hs
  · exact absurd hl (h a ha)

/-- Turning to a device that is not active: what the guard leaves, with the device activated. -/
theorem turn_other {P : Params W} {dev : Device W} {s : State W} (h : s.active ≠ some dev) :
    activate dev (switchGuard P dev s) =
      setMaster (configureOutput dev.dbit { switchGuard P dev s with active := some dev }) :=
  activate_other (by rwa [switchGuard_active])

/-- Settles O60: `activate_same` after `switchGuard_same`; else `turn_other`, the level bits being the guard's. -/
theorem turningToADevice : Obligations.TurningToADevice := by
  intro W P dev s
  refine ⟨fun h => by rw [switchGuard_same h, activate_same h], fun h => ?_⟩
  rw [turn_other h]
  refine ⟨rfl, congrArg (setPin · dev.dbit true) (switchGuard_dir P dev s), rfl, fun a ha hl => ?_, fun hn => ?_⟩
  · have hne : a ≠ dev := fun e => h (e ▸ ha)
    rw [switchGuard_held ha hne hl]
    rfl
  · rw [switchGuard_no_line hn]
    rfl

/-! ### Taking the line from another device (R96, R112) -/

/-- Turning to a device while another's line is held: deasserted, then the device activated (R96, R93). -/
theorem turn_held {P : Params W} {a dev : Device W} {s : State W} (ha : s.active = some a) (hne : a ≠ dev)
    (hl : asserted P a s) :
    activate dev (switchGuard P dev s) =
      { s with active := some dev, dir := setPin s.dir dev.dbit true, lvl := setPin s.lvl a.lbit (!P.selActive),
               ctrlMSTR := true, trace := s.trace ++ [.selDeassert a.lbit, .dirOut dev.dbit, .setMaster] } := by
  rw [turn_other (by simp [ha, hne]), switchGuard_held ha hne hl]
  simp [setMaster, configureOutput, deassertLine, emit]

/-- A pass over a startable descriptor while another device's line is held (R112, steps 4 to 7). -/
theorem startPass_held {P : Params W} {ctx : Context} {d : Desc W} {a dev : Device W} {s : State W}
    (hd : d.device = some dev) (hr : d.remaining ≠ 0#_) (ha : s.active = some a) (hne : a ≠ dev) (hl : asserted P a s)
    (hx : s.xip = false) (hi : s.ifrIF = false) :
    startPass P ctx d s =
      .next (false, { s with
        engine := .busy, cur := some { d with remaining := d.remaining - 1#_ }, active := some dev,
        dir := setPin s.dir dev.dbit true,
        lvl := setPin (setPin s.lvl a.lbit (!P.selActive)) dev.lbit P.selActive,
        ctrlMSTR := true, txr := memRead d.data s, xip := true,
        trace := s.trace ++ [.selDeassert a.lbit, .dirOut dev.dbit, .setMaster, .selAssert dev.lbit,
          .load (memRead d.data s)] }) := by
  simp only [startPass, hd, if_neg hr]
  rw [turn_held (s := setCur d s) ha hne hl, startExchange_eq (by exact hx) (by exact hi)]
  simp [memRead, hd]

/-- At the last byte of a READ_WRITE descriptor with more queued, the handler releases it with its line held and goes on
with the queue (R119, step 4c). -/
theorem handleByte_held {P : Params W} {rx : Byte} {c : Desc W} {a : Device W} {s : State W} (hr : c.remaining = 0#_)
    (hm : c.mode = .readWrite) (ha : s.active = some a) (hq : s.q ≠ []) :
    handleByte P rx c s =
      andThen (startNext P .interrupt { s with
        cur := none, mem := storeAll (capturesOf c [rx]) s.mem,
        trace := s.trace ++ storeEvents (capturesOf c [rx]) ++ callbackEvents c ++ [.release (ended 1 c)] })
        fun y => .next y.2 := by
  rw [handleByte_eq, if_neg (not_not.2 hr), exhausted_held (by exact ha) (by exact hq) (by exact hm),
    ended_moved_zero hr]
  simp [afterByte, captureEvents_eq, callbackEvents, moved]

/-- Settles O37: the last byte ends the READ_WRITE descriptor with its line held (`handleByte_held`), and the start of the
next takes the line away (`startPass_held`). -/
theorem switchGuardDropsAHeldLineOfAnotherDevice : Obligations.SwitchGuardDropsAHeldLineOfAnotherDevice := by
  intro s c d rest a dev h hi he hc hr hm hca hq hd hne hdr
  have hx : s.xip = false := Bool.eq_false_iff.2 fun hx => h.one_exchange ⟨hx, hi⟩
  obtain ⟨hb, a', hca', ha, hl⟩ := h.current hc
  obtain rfl : a = a' := Option.some.inj (hca.symm.trans hca')
  rw [exec_xferComplete_eq ⟨hi, he⟩ hc, handleByte_held hr hm (by exact ha) (by simp [hq])]
  simp only [startNext, hq, startLoop]
  rw [startPass_held hd hdr (by exact ha) hne (by exact hl) (by exact hx) rfl]
  simp [callbackEvents, memRead, hb]

/-! ### CREATE_DEVICE and RELEASE_DEVICE (R90, R91) -/

/-- The pins of the bus at the reference parameters (R6, R90). -/
theorem params_reserved_iff (p : Pin) : Config.params.reserved p ↔ p ∈ [5#3, 4#3, 3#3] := by
  simp [Params.reserved, Config.params]

/-- Settles O21: the two branches of R90, at the reference parameters' reserved pins. -/
theorem createDeviceResult : Obligations.CreateDeviceResult := by
  intro dev s
  simp only [← params_reserved_iff]
  exact ⟨fun h => if_pos h, fun h => if_neg h, rfl, rfl, rfl⟩

/-- Settles O22: the operation only emits its `Result`. -/
theorem releaseDeviceResult : Obligations.ReleaseDeviceResult := fun _ _ => ⟨rfl, rfl⟩

end Sys2Proof.Machine
end

section
/-!
PROOFS. The start of a transfer (41_transfer_engine.md): a load that collides (R113), what START_NEXT does with each kind of
descriptor at the head of the queue (R112, R121), and a submission from a state that rests (R178).
-/

namespace Sys2Proof.Machine

variable {W : Widths}

/-! ### A load that collides (R113, U1) -/

theorem continueTransfer_collides {c : Desc W} {s : State W} (h : s.xip = true ∨ s.ifrIF = true) :
    continueTransfer c s = .fault .loadCollision :=
  load_collides (s := setCur { c with remaining := c.remaining - 1#_ } s) h

theorem startExchange_collides {P : Params W} {dev : Device W} {d : Desc W} {s : State W}
    (h : s.xip = true ∨ s.ifrIF = true) : startExchange P dev d s = .fault .loadCollision := by
  rw [startExchange, load_collides (by exact h), andThen_fault]

/-- START_NEXT with a startable descriptor at the head faults where its load collides: turning to the device touches
neither `XIP` nor `IFR.IF`. -/
theorem startLoop_collides {P : Params W} {ctx : Context} {d : Desc W} {rest : List (Desc W)} {res : ResultCode}
    {dev : Device W} {s : State W} (hd : d.device = some dev) (hr : d.remaining ≠ 0#_)
    (h : s.xip = true ∨ s.ifrIF = true) : startLoop P ctx (d :: rest) res s = .fault .loadCollision := by
  have hT := turned P dev (setCur d { s with q := rest })
  simp only [startLoop, startPass, hd, if_neg hr, startExchange_collides (by rwa [hT.xip, hT.ifrIF]), andThen_fault]

/-! ### What START_NEXT does with the head of the queue (R112, R121) -/

theorem nullEvents_eq (ctx : Context) (d : Desc W) :
    nullEvents ctx d = [.release d] ++ if ctx = .interrupt then [.diag .invalidDevice] else [] := by
  cases ctx <;> rfl

theorem startLoop_null_more {P : Params W} {ctx : Context} {d : Desc W} {rest : List (Desc W)} {res : ResultCode}
    {s : State W} (hd : d.device = none) (hne : rest ≠ []) :
    startLoop P ctx (d :: rest) res s =
      startLoop P ctx rest .invalidDevice { s with q := rest, cur := none, trace := s.trace ++ nullEvents ctx d } := by
  simp only [startLoop, startPass, hd, resultAfter]
  rw [dropNullDevice_more (s := setCur d { s with q := rest }) hne]
  rfl

theorem startLoop_null_last {P : Params W} {ctx : Context} {d : Desc W} {res : ResultCode} {s : State W}
    (hd : d.device = none) (hl : ∀ a ∈ s.active, ¬ asserted P a s) :
    startLoop P ctx [d] res s =
      .next (.invalidDevice,
        { s with q := [], cur := none, engine := .idle, trace := s.trace ++ nullEvents ctx d }) := by
  simp only [startLoop, startPass, hd, resultAfter]
  rw [dropNullDevice_last (s := setCur d { s with q := [] }) rfl hl]
  rfl

theorem startLoop_null_last_held {P : Params W} {ctx : Context} {d : Desc W} {res : ResultCode} {a : Device W}
    {s : State W} (hd : d.device = none) (ha : s.active = some a) (hl : asserted P a s) :
    startLoop P ctx [d] res s =
      .next (.invalidDevice,
        { s with q := [], cur := none, engine := .idle, lvl := setPin s.lvl a.lbit (!P.selActive),
                 trace := s.trace ++ nullEvents ctx d ++ [.selDeassert a.lbit] }) := by
  simp only [startLoop, startPass, hd, resultAfter]
  rw [dropNullDevice_last_held (s := setCur d { s with q := [] }) rfl ha hl]
  rfl

/-- The switch guard neither reads nor writes `Q` and `CUR` (R96). -/
theorem switchGuard_dequeued (P : Params W) (dev : Device W) (d : Desc W) (rest : List (Desc W)) (s : State W) :
    switchGuard P dev (setCur d { s with q := rest }) = { switchGuard P dev s with q := rest, cur := some d } := by
  rcases Option.eq_none_or_eq_some s.active with ha | ⟨a, ha⟩
  · rw [switchGuard_first (by exact ha), switchGuard_first ha]; rfl
  · by_cases hne : a = dev
    · subst hne
      rw [switchGuard_same (by exact ha), switchGuard_same ha]; rfl
    · by_cases hl : asserted P a s
      · rw [switchGuard_held (by exact ha) hne (by exact hl), switchGuard_held ha hne hl]; rfl
      · rw [switchGuard_released (by exact ha) (by exact hl), switchGuard_released ha hl]; rfl

/-- Nor does turning to a device (R93): a pass has written both before it turns. -/
theorem turn_dequeued {P : Params W} {dev : Device W} {s u : State W} (hu : activate dev (switchGuard P dev s) = u)
    (d : Desc W) (rest : List (Desc W)) :
    activate dev (switchGuard P dev (setCur d { s with q := rest })) = { u with q := rest, cur := some d } := by
  rw [switchGuard_dequeued, ← hu]
  by_cases ha : (switchGuard P dev s).active = some dev
  · rw [activate_same (by exact ha), activate_same ha]
  · rw [activate_other (by exact ha), activate_other ha]; rfl

/-- A zero-length descriptor is turned to and ended, with what is left in the queue (R121). -/
theorem startPass_zeroLength {P : Params W} {ctx : Context} {d : Desc W} {rest : List (Desc W)} {dev : Device W}
    {s u : State W} (hd : d.device = some dev) (hz : d.remaining = 0#_) (hu : activate dev (switchGuard P dev s) = u) :
    startPass P ctx d { s with q := rest } = exhausted P d { u with q := rest, cur := some d } := by
  simp only [startPass, hd, if_pos hz, turn_dequeued hu]

theorem startLoop_zeroLength_more {P : Params W} {ctx : Context} {d : Desc W} {rest : List (Desc W)} {res : ResultCode}
    {dev : Device W} {s u : State W} (hd : d.device = some dev) (hz : d.remaining = 0#_) (hne : rest ≠ [])
    (hu : activate dev (switchGuard P dev s) = u) :
    startLoop P ctx (d :: rest) res s =
      startLoop P ctx rest res
        { u with
          q := rest, cur := none, lvl := if d.mode = .readWrite then u.lvl else setPin u.lvl dev.lbit (!P.selActive),
          trace := u.trace ++ callbackEvents d ++
            (if d.mode = .readWrite then [.release (cleared d)] else [.selDeassert dev.lbit, .release (cleared d)]) } := by
  have ha : u.active = some dev := hu ▸ (turned P dev s).active
  simp only [startLoop, startPass_zeroLength hd hz hu, resultAfter, hd]
  by_cases hm : d.mode = .readWrite
  · rw [exhausted_held (by exact ha) (by exact hne) hm]
    simp only [if_pos hm]
  · rw [exhausted_chained (by exact ha) (by exact hne) hm]
    simp only [if_neg hm]

theorem startLoop_zeroLength_last {P : Params W} {ctx : Context} {d : Desc W} {res : ResultCode} {dev : Device W}
    {s u : State W} (hd : d.device = some dev) (hz : d.remaining = 0#_) (hu : activate dev (switchGuard P dev s) = u) :
    startLoop P ctx [d] res s =
      .next (res, { u with
        q := [], cur := none, engine := .idle, lvl := setPin u.lvl dev.lbit (!P.selActive),
        trace := u.trace ++ callbackEvents d ++ [.release (cleared d), .selDeassert dev.lbit] }) := by
  have ha : u.active = some dev := hu ▸ (turned P dev s).active
  simp only [startLoop, startPass_zeroLength hd hz hu, resultAfter, hd]
  rw [exhausted_last (by exact ha) rfl]

theorem startLoop_startable {P : Params W} {ctx : Context} {d : Desc W} {rest : List (Desc W)} {res : ResultCode}
    {dev : Device W} {s u : State W} (hd : d.device = some dev) (hr : d.remaining ≠ 0#_) (hx : s.xip = false)
    (hi : s.ifrIF = false) (hu : activate dev (switchGuard P dev s) = u) :
    startLoop P ctx (d :: rest) res s =
      .next (res, { u with
        engine := .busy, cur := some { d with remaining := d.remaining - 1#_ }, q := rest,
        lvl := setPin u.lvl dev.lbit P.selActive, txr := memRead d.data s, xip := true,
        trace := u.trace ++ [.selAssert dev.lbit, .load (memRead d.data s)] }) := by
  have hT : Turned dev s u := hu ▸ turned P dev s
  simp only [startLoop, startPass, hd, if_neg hr, resultAfter, turn_dequeued hu]
  rw [startExchange_eq (by exact hT.xip.trans hx) (by exact hT.ifrIF.trans hi)]
  simp [memRead, hT.mem, hd]

/-- Once a descriptor without device has been passed over, the result is INVALID_DEVICE whatever follows; the result so far
influences nothing else (R112). -/
theorem startLoop_invalidDevice (P : Params W) (ctx : Context) (ds : List (Desc W)) (res : ResultCode) (s : State W) :
    startLoop P ctx ds .invalidDevice s =
      andThen (startLoop P ctx ds res s) fun x => .next (.invalidDevice, x.2) := by
  induction ds generalizing res s with
  | nil => rfl
  | cons d rest ih =>
    have hd : resultAfter d .invalidDevice = .invalidDevice := by unfold resultAfter; split <;> rfl
    simp only [startLoop, hd]
    split
    · rfl
    · rfl
    · rfl
    · exact ih _ _

/-! ### Submission while IDLE with an empty queue (R111, R141) -/

theorem submitted_length_le (i : Instr W) : (submitted i).length ≤ 2 := by cases i <;> simp [submitted]

/-- It is START_NEXT over what was submitted, and then the operation's `Result`. -/
theorem exec_submit_idle {i : Instr} {s : State} {c : Desc} {rest : List Desc} (he : s.engine = .idle) (hq : s.q = [])
    (hw : i.wellFormed Config.params) (hs : submitted i = c :: rest) :
    exec i s = andThen (startLoop Config.params .foreground (c :: rest) .ok { s with q := c :: rest })
      fun x => .next (endWith x.1 x.2) := by
  have hne : submitted i ≠ [] := by simp [hs]
  have hroom : ¬ freeSlots Config.params s < (submitted i).length := by
    have hlen := submitted_length_le i
    simp only [freeSlots, hq, Config.params, List.length_nil]
    omega
  rw [exec_eq_execAt, execAt_submit hne hw, refuseDevices_params, submit_idle hroom hne he, hs, hq, List.nil_append]

/-! ### Starting from rest -/

/-- No exchange is in flight, no completion is pending, no line is at the active level, and the active device's pin is an
output: what IDLE means for the pins and the shifter (R175, R181). -/
structure Resting (P : Params W) (s : State W) : Prop where
  xip : s.xip = false
  ifrIF : s.ifrIF = false
  noLine : ∀ p : Pin W, pinBit s.lvl p ≠ P.selActive
  output : ∀ a ∈ s.active, pinBit s.dir a.dbit = true

theorem Inv.resting {P : Params W} {s : State W} (h : Inv P s) (he : s.engine = .idle) : Resting P s := by
  obtain ⟨-, -, hx, hi⟩ := h.idle he
  exact ⟨hx, hi, h.mid.no_line (h.idle_deasserted he), h.active_output⟩

/-- `Q` has no part in it. -/
theorem Resting.queued {P : Params W} {s : State W} (h : Resting P s) (ds : List (Desc W)) :
    Resting P { s with q := ds } :=
  ⟨h.xip, h.ifrIF, h.noLine, h.output⟩

/-- The state after turning to a device from rest (R93): no line needs to be taken away. -/
def activated (dev : Device W) (s : State W) : State W :=
  { s with active := some dev, dir := setPin s.dir dev.dbit true,
           ctrlMSTR := s.ctrlMSTR || decide (s.active ≠ some dev),
           trace := s.trace ++ activationEvents s.active dev }

theorem Resting.turn {P : Params W} {s : State W} (h : Resting P s) (dev : Device W) :
    activate dev (switchGuard P dev s) = activated dev s :=
  turn_quiet (fun a _ _ hl => h.noLine a.lbit hl.2) (h.output dev)

/-- Deasserting a line at rest changes no level. -/
theorem Resting.deassert {P : Params W} {s : State W} (h : Resting P s) (p : Pin W) :
    setPin s.lvl p (!P.selActive) = s.lvl :=
  setPin_eq_self (Bool.eq_not.2 (h.noLine p))

/-- A zero-length descriptor alone ends at rest (R121, R178). -/
theorem Resting.startLoop_zeroLength_last {P : Params W} {ctx : Context} {d : Desc W} {res : ResultCode} {dev : Device W}
    {s : State W} (h : Resting P s) (hd : d.device = some dev) (hz : d.remaining = 0#_) :
    startLoop P ctx [d] res s =
      .next (res, { activated dev s with
        q := [], cur := none, engine := .idle,
        trace := s.trace ++ activationEvents s.active dev ++ callbackEvents d ++
          [.release (cleared d), .selDeassert dev.lbit] }) := by
  rw [Machine.startLoop_zeroLength_last hd hz (h.turn dev)]
  simp only [activated, h.deassert]

/-- A startable descriptor at the head (R112, steps 4 to 7). -/
theorem Resting.startLoop_startable {P : Params W} {ctx : Context} {d : Desc W} {rest : List (Desc W)} {res : ResultCode}
    {dev : Device W} {s : State W} (h : Resting P s) (hd : d.device = some dev) (hr : d.remaining ≠ 0#_) :
    startLoop P ctx (d :: rest) res s =
      .next (res, { activated dev s with
        engine := .busy, cur := some { d with remaining := d.remaining - 1#_ }, q := rest,
        lvl := setPin s.lvl dev.lbit P.selActive, txr := memRead d.data s, xip := true,
        trace := s.trace ++ activationEvents s.active dev ++ [.selAssert dev.lbit, .load (memRead d.data s)] }) :=
  Machine.startLoop_startable hd hr h.xip h.ifrIF (h.turn dev)

/-- The state in which START_NEXT goes on after a zero-length command descriptor (R121): released, its line not written. -/
def afterEmptyCommand (w : Desc W) (dev : Device W) (rest : List (Desc W)) (s : State W) : State W :=
  { activated dev s with
    q := rest, cur := none,
    trace := s.trace ++ activationEvents s.active dev ++ callbackEvents w ++ [.release (cleared w)] }

theorem Resting.startLoop_emptyCommand {P : Params W} {ctx : Context} {w : Desc W} {rest : List (Desc W)}
    {res : ResultCode} {dev : Device W} {s : State W} (h : Resting P s) (hm : w.mode = .readWrite)
    (hd : w.device = some dev) (hz : w.remaining = 0#_) (hne : rest ≠ []) :
    startLoop P ctx (w :: rest) res s = startLoop P ctx rest res (afterEmptyCommand w dev rest s) := by
  rw [startLoop_zeroLength_more hd hz hne (h.turn dev)]
  simp only [if_pos hm]
  rfl

theorem Resting.afterEmptyCommand {P : Params W} {s : State W} (h : Resting P s) (w : Desc W) (dev : Device W)
    (rest : List (Desc W)) : Resting P (afterEmptyCommand w dev rest s) :=
  ⟨h.xip, h.ifrIF, h.noLine, fun a ha => by
    obtain rfl : dev = a := Option.some.inj ha
    exact pinBit_setPin_same ..⟩

/-! ### The statements -/

/-- Settles O19: `load_collides`, and the two places that reach it, `startLoop_collides` and `continueTransfer_collides`. -/
theorem loadCollisionFaults : Obligations.LoadCollisionFaults := by
  refine ⟨fun b s h => load_collides h, fun i s c rest dev h he hq hw hs hd hr => ?_, fun s c hi he hx hc hr => ?_⟩
  · rw [exec_submit_idle he hq hw hs, startLoop_collides hd hr (by exact h), andThen_fault]
  · rw [exec_xferComplete_eq ⟨hi, he⟩ hc, handleByte_eq, if_pos hr, continueTransfer_collides (.inl (by exact hx))]

/-- Only READ_WRITE submits two descriptors, and the first is its command (R144). -/
theorem mode_of_submitted_pair {i : Instr W} {w r : Desc W} (h : submitted i = [w, r]) : w.mode = .readWrite := by
  cases i <;> simp [submitted] at h
  rw [← h.1]
  rfl

/-- Settles O31: alone, `Resting.startLoop_zeroLength_last`; as the command, `Resting.startLoop_emptyCommand`, and then
the read descriptor from rest again. -/
theorem zeroLengthCompletesInsideTheStep : Obligations.ZeroLengthCompletesInsideTheStep := by
  refine ⟨fun i s c dev h he hw hs hd hz => ?_, fun i s w r a h he hw hs hd hz => ?_⟩
  · obtain ⟨hq, hc, -⟩ := h.idle he
    have hR := (h.resting he).queued [c]
    rw [exec_submit_idle he hq hw hs, hR.startLoop_zeroLength_last hd hz]
    simp [activated, endWith, emit, he, hq, hc, callbackEvents, cleared]
  · obtain ⟨hq, hc, -⟩ := h.idle he
    have hR := (h.resting he).queued [w, r]
    have hA := hR.afterEmptyCommand w a [r]
    have hE := exec_submit_idle he hq hw hs
    rw [hR.startLoop_emptyCommand (mode_of_submitted_pair hs) hd hz (by simp)] at hE
    refine ⟨fun dev hrd hrr => ?_, fun dev hrd hrz => ?_, fun hrn => ?_⟩
    · rw [hE, hA.startLoop_startable hrd hrr]
      simp [afterEmptyCommand, activated, endWith, emit, callbackEvents, cleared, memRead]
    · rw [hE, hA.startLoop_zeroLength_last hrd hrz]
      simp [afterEmptyCommand, activated, endWith, emit, he, hq, hc, callbackEvents, cleared]
    · rw [hE, startLoop_null_last hrn fun a ha hl => hA.noLine a.lbit hl.2]
      simp [afterEmptyCommand, activated, endWith, emit, he, hq, hc, callbackEvents, cleared, nullEvents]

end Sys2Proof.Machine
end

section
/-!
PROOFS. A completed byte (41_transfer_engine.md): SHIFT_DONE (R114) and the handler (R115), by what is left to do: no current
descriptor, bytes left (R118), the last byte with nothing queued, and the last byte with more queued (R119, R120).
-/

namespace Sys2Proof.Machine

variable {W : Widths}

/-! ### What the handler does, case by case -/

/-- With no current descriptor (R115 corner case (a)). -/
theorem xferComplete_no_current {P : Params W} {s : State W} (h : handlerEnabled s) (hc : s.cur = none) :
    execAt P .xferComplete s = .next { s with ifrIF := false } := by
  simp only [execAt, xferCompleteAt, runHandler, if_pos h, enterHandler, hc]
  exact refuseDevices_next (t := { s with ifrIF := false, cur := none }) (by simp [noDevice])

theorem afterByte_eq (rx : Byte) (c : Desc W) (s : State W) :
    afterByte rx c s = { s with
      cur := some (moved c), mem := storeAll (capturesOf c [rx]) s.mem,
      trace := s.trace ++ storeEvents (capturesOf c [rx]) } := by
  rw [afterByte, captureEvents_eq, memoryAfter_storeEvents]

/-- With bytes left (R116 to R118). -/
theorem handleByte_more {P : Params W} {rx : Byte} {c : Desc W} {s : State W} (hr : c.remaining ≠ 0#_)
    (hx : s.xip = false) (hi : s.ifrIF = false) :
    handleByte P rx c s = .next { s with
      cur := some (stepped c), mem := storeAll (capturesOf c [rx]) s.mem,
      txr := Memory.byteAt (storeAll (capturesOf c [rx]) s.mem) (nextAddr c.data), xip := true,
      trace := s.trace ++ storeEvents (capturesOf c [rx]) ++
        [.load (Memory.byteAt (storeAll (capturesOf c [rx]) s.mem) (nextAddr c.data))] } := by
  rw [handleByte_eq, if_pos hr, afterByte_eq, continueTransfer_eq (by exact hx) (by exact hi)]
  rfl

/-- At the last byte with nothing queued (R119, step 4b). -/
theorem handleByte_last {P : Params W} {rx : Byte} {c : Desc W} {a : Device W} {s : State W} (hr : c.remaining = 0#_)
    (ha : s.active = some a) (hq : s.q = []) :
    handleByte P rx c s = .next { s with
      cur := none, engine := .idle, mem := storeAll (capturesOf c [rx]) s.mem,
      lvl := setPin s.lvl a.lbit (!P.selActive),
      trace := s.trace ++ storeEvents (capturesOf c [rx]) ++ callbackEvents c ++
        [.release (ended 1 c), .selDeassert a.lbit] } := by
  rw [handleByte_eq, if_neg (not_not.2 hr), afterByte_eq, exhausted_last (by exact ha) (by exact hq), ended_moved_zero hr]
  rfl

/-- At the last byte of a descriptor that is not READ_WRITE, with more queued, the line is deasserted before the release, and
the handler goes on with the queue (R119, step 4c). -/
theorem handleByte_chained {P : Params W} {rx : Byte} {c : Desc W} {a : Device W} {s : State W} (hr : c.remaining = 0#_)
    (hm : c.mode ≠ .readWrite) (ha : s.active = some a) (hq : s.q ≠ []) :
    handleByte P rx c s =
      andThen (startNext P .interrupt { s with
        cur := none, mem := storeAll (capturesOf c [rx]) s.mem, lvl := setPin s.lvl a.lbit (!P.selActive),
        trace := s.trace ++ storeEvents (capturesOf c [rx]) ++ callbackEvents c ++
          [.selDeassert a.lbit, .release (ended 1 c)] })
        fun y => .next y.2 := by
  rw [handleByte_eq, if_neg (not_not.2 hr), afterByte_eq, exhausted_chained (by exact ha) (by exact hq) (by exact hm),
    ended_moved_zero hr]
  rfl

/-! ### Turning to the next device where no other line is held (R93, R96) -/

theorem turn_released {P : Params W} {a dev : Device W} {s : State W} (ha : s.active = some a)
    (hl : ¬ asserted P a s) :
    activate dev (switchGuard P dev s) = { s with
      active := some dev, dir := if a = dev then s.dir else setPin s.dir dev.dbit true,
      ctrlMSTR := s.ctrlMSTR || decide (a ≠ dev), trace := s.trace ++ activationEvents (some a) dev } := by
  rw [switchGuard_released ha hl]
  by_cases hne : a = dev
  · subst hne
    rw [activate_same ha]
    simp [activationEvents, ← ha]
  · rw [activate_other (by simp [ha, hne])]
    simp [activationEvents, hne, setMaster, configureOutput, emit]

/-! ### Events that touch no select line (R28) -/

theorem transitions_after_no_select {P : Params W} {a : List (Event W)}
    (h : ∀ p, Event.selAssert p ∉ a ∧ Event.selDeassert p ∉ a) (b : List (Event W)) (p : Pin W) (v : PinBits W) :
    transitions P p (a ++ b) v = transitions P p b v := by
  induction a with
  | nil => rfl
  | cons e es ih =>
    have hes := ih fun p => ⟨fun he => (h p).1 (.tail _ he), fun he => (h p).2 (.tail _ he)⟩
    cases e with
    | selAssert p' => exact absurd (.head _) (h p').1
    | selDeassert p' => exact absurd (.head _) (h p').2
    | _ => exact hes

theorem callbackEvents_no_select (c : Desc W) (p : Pin W) :
    Event.selAssert p ∉ callbackEvents c ∧ Event.selDeassert p ∉ callbackEvents c := by
  cases h : c.callback <;> simp [callbackEvents, h]

/-- Asserting a line that is asserted is no transition (R28, R120). -/
theorem transitions_selAssert_held {P : Params W} {dev : Device W} {s : State W} (hl : asserted P dev s) (p : Pin W)
    (evs : List (Event W)) : transitions P p (.selAssert dev.lbit :: evs) s.lvl = transitions P p evs s.lvl := by
  have hno : ¬ (dev.lbit = p ∧ pinBit s.lvl p ≠ P.selActive) := by
    rintro ⟨rfl, hne⟩
    exact hne hl.2
  rw [transitions, if_neg hno, setPin_eq_self hl.2, Nat.zero_add]

/-! ### What a handler run leaves alone, in any state -/

theorem continueTransfer_eq_next {c : Desc W} {s t : State W} (h : continueTransfer c s = .next t) :
    t = { s with cur := t.cur, txr := t.txr, xip := t.xip, trace := t.trace } := by
  by_cases hl : s.xip = true ∨ s.ifrIF = true
  · rw [continueTransfer_collides hl] at h
    cases h
  · simp only [not_or, Bool.not_eq_true] at hl
    rw [continueTransfer_eq hl.1 hl.2] at h
    cases h
    rfl

/-- After `CAPTURE` and `ADVANCE` nothing but the next start follows. -/
theorem kept_handleByte {P : Params W} {rx : Byte} {c : Desc W} {s t : State W} (h : handleByte P rx c s = .next t) :
    Kept (afterByte rx c s) t := by
  rw [handleByte_eq] at h
  split at h
  · rw [continueTransfer_eq_next h]
    exact .of rfl rfl rfl rfl rfl rfl rfl
  · obtain ⟨⟨more, u⟩, hu, hk⟩ := andThen_eq_next h
    have hku := kept_exhausted hu
    cases more with
    | false => cases hk; exact hku
    | true =>
      obtain ⟨⟨code, v⟩, hv, hk⟩ := andThen_eq_next hk
      cases hk
      exact hku.trans (kept_startLoop hv)

theorem handleByte_more_frame {P : Params W} {rx : Byte} {c : Desc W} {s t : State W} (hr : c.remaining ≠ 0#_)
    (h : handleByte P rx c s = .next t) :
    t.q = s.q ∧ t.active = s.active ∧ t.dir = s.dir ∧ t.lvl = s.lvl ∧ t.ctrlMSTR = s.ctrlMSTR ∧ t.engine = s.engine := by
  rw [handleByte_eq, if_pos hr] at h
  rw [continueTransfer_eq_next h]
  exact ⟨rfl, rfl, rfl, rfl, rfl, rfl⟩

/-! ### The statements -/

/-- Settles O33: `handleByte_more`. -/
theorem handlerContinuesWithTheNextByte : Obligations.HandlerContinuesWithTheNextByte := by
  intro s c hi he hx hc hr
  rw [exec_xferComplete_eq ⟨hi, he⟩ hc, handleByte_more hr (by exact hx) rfl]
  rfl

/-- Settles O34: `handleByte_last`. -/
theorem lastByteWithEmptyQueueGoesIdle : Obligations.LastByteWithEmptyQueueGoesIdle := by
  intro s c a hi he hc hr hq ha
  rw [exec_xferComplete_eq ⟨hi, he⟩ hc, handleByte_last hr (by exact ha) (by exact hq)]
  rfl

/-- Settles O35: `handleByte_chained`; the next start finds the line deasserted (`turn_released`). -/
theorem chainedStartPulsesTheLine : Obligations.ChainedStartPulsesTheLine := by
  intro s c d rest a dev hb hi he hx hc hr hm hq ha hd hdr
  rw [exec_xferComplete_eq ⟨hi, he⟩ hc, handleByte_chained hr hm (by exact ha) (by simp [hq])]
  simp only [startNext, hq]
  rw [startLoop_startable hd hdr (by exact hx) rfl (turn_released (by exact ha) (by simp [asserted]))]
  simp [callbackEvents, activationEvents, memRead, hb]

/-- Settles O36: `handleByte_held`; the next start is of the device whose line is held, so nothing changes at the pins. -/
theorem readWriteHoldsTheLineAcrossTheBoundary : Obligations.ReadWriteHoldsTheLineAcrossTheBoundary := by
  intro s c d rest dev h hi he hc hr hm hcd hq hd hdr
  have hx : s.xip = false := Bool.eq_false_iff.2 fun hx => h.one_exchange ⟨hx, hi⟩
  obtain ⟨hb, a, hca, ha, hl⟩ := h.current hc
  obtain rfl : dev = a := Option.some.inj (hcd.symm.trans hca)
  refine ⟨_, _, ?_, rfl, rfl, rfl, fun p => ?_⟩
  · rw [exec_xferComplete_eq ⟨hi, he⟩ hc, handleByte_held hr hm (by exact ha) (by simp [hq])]
    simp only [startNext, hq]
    rw [startLoop_startable hd hdr (by exact hx) rfl
      (by rw [switchGuard_same (by exact ha), activate_same (by exact ha)])]
    simp [callbackEvents, memRead, hb, setPin_eq_self hl.2]
  · obtain ⟨-, -, -, -, hs⟩ := storeEvents_say (capturesOf c [s.rxr])
    rw [List.append_assoc, transitions_after_no_select hs]
    exact (transitions_after_no_select (callbackEvents_no_select c) _ p _).trans
      (transitions_selAssert_held hl p [.load _])

/-- Settles O39: the handler by `handleByte_held` and `handleByte_chained`; START_NEXT by what its loop does with a
null-device head (`startLoop_null_more` and its like) and with a zero-length one (`startLoop_zeroLength_more`, `_last`). -/
theorem startNextPassesOverNullAndZeroLengthDescriptors :
    Obligations.StartNextPassesOverNullAndZeroLengthDescriptors := by
  refine ⟨fun s c a hi he hc hr hq ha => ?_, fun W P ctx s d rest hq => ?_⟩
  · rw [exec_xferComplete_eq ⟨hi, he⟩ hc]
    by_cases hm : c.mode = .readWrite
    · rw [handleByte_held hr hm (by exact ha) (by exact hq)]
      simp only [if_pos hm]
      rfl
    · rw [handleByte_chained hr hm (by exact ha) (by exact hq)]
      simp only [if_neg hm]
      rfl
  · simp only [startNext, hq, List.append_assoc, ← nullEvents_eq]
    refine ⟨fun hd hne => ?_, fun hd hr hl => ?_, fun a hd hr ha hl => ?_, fun dev hd hz => ⟨fun hne => ?_, fun hr => ?_⟩⟩
    · rw [startLoop_null_more hd hne]
      exact startLoop_invalidDevice ..
    · subst hr
      exact startLoop_null_last hd hl
    · subst hr
      rw [startLoop_null_last_held hd ha hl]
      simp
    · rw [startLoop_zeroLength_more hd hz hne rfl]
      simp [callbackEvents, cleared]
    · subst hr
      rw [startLoop_zeroLength_last hd hz rfl]
      simp [callbackEvents, cleared]

/-- Settles O44: no current descriptor, or `kept_handleByte` after the capture, whose one store `memRead_afterByte` reads;
with bytes left `handleByte_more_frame`. -/
theorem handlerFrame : Obligations.HandlerFrame := by
  intro s t h
  by_cases hen : handlerEnabled s
  case neg => rw [exec_xferComplete_disabled hen] at h; cases h
  case pos =>
    rcases Option.eq_none_or_eq_some s.cur with hc | ⟨c, hc⟩
    · rw [exec_eq_execAt, xferComplete_no_current hen hc] at h
      cases h
      exact ⟨rfl, rfl, rfl, rfl, rfl, fun a => by simp [hc, memRead], by simp [hc]⟩
    · rw [exec_xferComplete_eq hen hc] at h
      have hk := kept_handleByte h
      refine ⟨hk.rxr, hk.ctrlIE, hk.cfg, hk.script, hk.ifrIF, fun a => ?_, fun c' hc' hr => ?_⟩
      · have hmem : memRead a t = memRead a (afterByte s.rxr c { s with ifrIF := false }) :=
          congrArg (Memory.byteAt · a) hk.mem
        rw [hmem, memRead_afterByte]
        simp [hc, memRead, and_comm]
      · obtain rfl : c = c' := Option.some.inj (hc.symm.trans hc')
        exact handleByte_more_frame (s := { s with ifrIF := false }) hr h

/-- Settles O32: the two cases of R114, and the packet. -/
theorem shiftDoneResult : Obligations.ShiftDoneResult := fun _ s =>
  ⟨fun hx => if_pos hx, fun hx => exec_shiftDone_disabled (by simp [hx]), rfl⟩

/-- Settles O40: `xferComplete_no_current`. -/
theorem completionWithoutCurrentOnlyClearsTheFlag : Obligations.CompletionWithoutCurrentOnlyClearsTheFlag :=
  fun s hi he hc => (exec_eq_execAt _ s).trans (xferComplete_no_current ⟨hi, he⟩ hc)

end Sys2Proof.Machine
end

section
/-!
PROOFS. The public operations (42_public_api.md): INIT (R140) and FLUSH (R145); what WRITE, READ and READ_WRITE do while BUSY
(R142) and from IDLE (R112, R144), and what they leave alone; and where each of the nine operations has a step.
-/

namespace Sys2Proof.Machine

variable {W : Widths}

/-! ### INIT and FLUSH (R140, R145) -/

/-- `IFR.IF` is 0 and `STATE` is IDLE already where INIT runs, so that writing them changes nothing. -/
theorem exec_init_enabled {cfg : BusConfig} {s : State} (h : initEnabled s) :
    exec (.init cfg) s =
      .next { s with cfg := cfg, ctrlMSTR := true, ctrlIE := true,
                     trace := s.trace ++ [.setMaster, .result .ok none] } := by
  rw [exec, execInit, if_pos h]
  obtain ⟨he, -, -, -, hi⟩ := h
  simp [endWith, setMaster, emit, ← he, ← hi]

/-- Settles O20: `exec_init_enabled`, `exec_init_disabled`, and the packet by definition. -/
theorem initResult : Obligations.InitResult := fun _ _ =>
  ⟨fun he hc hq hx hi => exec_init_enabled ⟨he, hc, hq, hx, hi⟩, exec_init_disabled, rfl⟩

/-- Settles O23: `execFlush_busy`; while IDLE the queue is released in its order (`releaseAll_eq`). -/
theorem flushResult : Obligations.FlushResult := by
  refine fun s => ⟨execFlush_busy, fun he => ?_, rfl⟩
  rw [exec, execFlush_idle he, flushAll, releaseAll_eq]
  rfl

/-! ### Submitting operations -/

/-- While BUSY, with room, what is submitted is appended to the queue (R142 corner case (a)). -/
theorem exec_submit_busy {i : Instr} {s : State} (he : s.engine = .busy) (hw : i.wellFormed Config.params)
    (hne : submitted i ≠ []) (hroom : s.q.length + (submitted i).length ≤ Config.params.qcap) :
    exec i s = .next { s with q := s.q ++ submitted i, trace := s.trace ++ [.result .ok none] } := by
  have hfree : ¬ freeSlots Config.params s < (submitted i).length := by unfold freeSlots; omega
  rw [exec_eq_execAt, execAt_submit hne hw, refuseDevices_params, submit_busy hfree hne he]
  rfl

/-- Settles O26: `exec_submit_busy`, and the tagging of R75 by definition. -/
theorem submittingWhileBusyOnlyEnqueues : Obligations.SubmittingWhileBusyOnlyEnqueues := fun _ he =>
  ⟨fun d cap hw hroom => exec_submit_busy (i := .write d cap) he hw (by simp [submitted]) hroom,
    fun d cap hw hroom => exec_submit_busy (i := .read d cap) he hw (by simp [submitted]) hroom,
    fun w r wcap cap hw hr hroom =>
      exec_submit_busy (i := .readWrite w wcap r cap) he ⟨hw, hr⟩ (by simp [submitted]) hroom⟩

/-- Settles O28: from rest START_NEXT starts the first descriptor (`Resting.startLoop_startable`). -/
theorem submittingWhileIdleStartsTheTransfer : Obligations.SubmittingWhileIdleStartsTheTransfer := by
  intro i s c rest dev h he hw hs hd hr
  obtain ⟨hq, -⟩ := h.idle he
  have hR := (h.resting he).queued (c :: rest)
  rw [exec_submit_idle he hq hw hs, hR.startLoop_startable hd hr]
  simp [activated, activationEvents, endWith, emit, memRead]

/-- A READ_WRITE while IDLE whose command has no device goes on with its read descriptor from rest, and whatever becomes of
it the result is INVALID_DEVICE (R112, R144 corner case (c)). -/
theorem exec_nullCommand {i : Instr} {s : State} {w r : Desc} (he : s.engine = .idle) (hq : s.q = [])
    (hw : i.wellFormed Config.params) (hs : submitted i = [w, r]) (hn : w.device = none) :
    exec i s =
      andThen (startLoop Config.params .foreground [r] .invalidDevice
        { s with q := [r], cur := none, trace := s.trace ++ [.release w] })
        fun x => .next (endWith x.1 x.2) := by
  rw [exec_submit_idle he hq hw hs, startLoop_null_more hn (by simp)]
  rfl

/-- Releasing a descriptor leaves the machine at rest. -/
theorem Resting.released {P : Params W} {s : State W} (h : Resting P s) (ds : List (Desc W)) (d : Desc W) :
    Resting P { s with q := ds, cur := none, trace := s.trace ++ [.release d] } :=
  ⟨h.xip, h.ifrIF, h.noLine, h.output⟩

/-- Settles O30: after `exec_nullCommand` the read descriptor is the only one, with a device and a byte, a device and no byte,
or no device. -/
theorem nullCommandOfReadWriteIsPassedOver : Obligations.NullCommandOfReadWriteIsPassedOver := by
  intro i s w r h he hw hs hn
  obtain ⟨hq, hc, -⟩ := h.idle he
  have hR := (h.resting he).released [r] w
  rw [exec_nullCommand he hq hw hs hn]
  refine ⟨fun dev hd hr => ?_, fun dev hd hz => ?_, fun hd => ?_⟩
  · rw [hR.startLoop_startable hd hr]
    simp [activated, endWith, emit, memRead]
  · rw [hR.startLoop_zeroLength_last hd hz]
    simp [activated, endWith, emit, callbackEvents, cleared, he, hq, hc]
  · rw [startLoop_null_last hd fun a _ hl => hR.noLine a.lbit hl.2]
    simp [endWith, emit, nullEvents, he, hq, hc]

/-- A submitting operation that answers is `SUBMIT` and then its `Result` (R9, R141). -/
theorem submitOp_eq_next {P : Params W} {ds : List (Desc W)} {s t : State W} (h : submitOp P ds s = .next t) :
    ∃ code u, submit P ds s = .next (code, u) ∧ t = endWith code u := by
  unfold submitOp at h
  split at h
  case isFalse => cases h
  case isTrue =>
    obtain ⟨hr, -⟩ := refuseDevices_eq_next.1 h
    obtain ⟨⟨code, u⟩, hs, hk⟩ := andThen_eq_next hr
    cases hk
    exact ⟨code, u, hs, rfl⟩

/-- Settles O43: `SUBMIT` keeps all of it (`kept_submit`), and the `Result` touches the trace only. -/
theorem submittingOperationsFrame : Obligations.SubmittingOperationsFrame := by
  intro i s t hne h
  rw [exec_eq_execAt, execAt_submitOp hne] at h
  obtain ⟨code, u, hs, rfl⟩ := submitOp_eq_next h
  obtain ⟨hk, hbusy⟩ := kept_submit hs
  refine ⟨hk.rxr, hk.ifrIF, hk.ctrlIE, hk.cfg, hk.script, fun a => congrArg (Memory.byteAt · a) hk.mem, hk.ctrlMSTR,
    fun he => ?_⟩
  rw [hbusy he]
  rfl

/-! ### Where an operation has a step (R69, R140, R114, R115) -/

/-- A well-formed submission always answers: `SUBMIT` does (R141), and the reference platform maps no device. -/
theorem exec_submit_answers {i : Instr} {s : State} (h : Inv Config.params s) (hw : i.wellFormed Config.params)
    (hne : submitted i ≠ []) : ∃ t, exec i s = .next t := by
  obtain ⟨code, t, _, hs, -⟩ := submit_spec h hne ((wellFormed_iff_submitted hne).1 hw)
  exact ⟨endWith code t, by rw [exec_eq_execAt, execAt_submit hne hw, refuseDevices_params, hs, andThen_next]⟩

/-- Where the handler is enabled a descriptor is current, its device's line asserted and no exchange in flight (R175, R181),
so that no load collides and a device is active to be deasserted. -/
theorem exec_xferComplete_answers {s : State} (h : Inv Config.params s) (hen : handlerEnabled s) :
    ∃ t, exec .xferComplete s = .next t := by
  obtain ⟨c, hc⟩ := Option.isSome_iff_exists.1 (h.busy_current (h.busy_iff.2 (.inr hen.1)))
  obtain ⟨hb, dev, hd, ha, -, hl⟩ := h.current hc
  have hx : s.xip = false := Bool.eq_false_iff.2 fun hx => h.one_exchange ⟨hx, hen.1⟩
  have hm : Mid Config.params { s with ifrIF := false } := h.mid.congr rfl rfl rfl rfl rfl
  obtain ⟨t, _, ht, -⟩ := handleByte_spec (rx := s.rxr) hm h.queue_bounded hd ha hb hl hx rfl
  exact ⟨t, (exec_xferComplete_eq hen hc).trans ht⟩

theorem exec_answers_of_enabled {i : Instr} {s : State} (h : Inv Config.params s) (hw : i.wellFormed Config.params)
    (hen : enabled i s) : ∃ t, exec i s = .next t := by
  cases i with
  | init cfg => exact ⟨_, exec_init_enabled hen⟩
  | createDevice dev =>
    obtain ⟨hbad, hgood, -⟩ := createDeviceResult dev s
    by_cases hd : dev.dbit ∈ [5#3, 4#3, 3#3] ∨ dev.lbit ∈ [5#3, 4#3, 3#3]
    · exact ⟨_, hbad hd⟩
    · exact ⟨_, hgood hd⟩
  | releaseDevice dev => exact ⟨_, rfl⟩
  | write | read | readWrite => exact exec_submit_answers h hw (by simp [submitted])
  | flush =>
    cases he : s.engine with
    | busy => exact ⟨_, execFlush_busy he⟩
    | idle => exact ⟨_, execFlush_idle he⟩
  | shiftDone rx => exact ⟨_, if_pos hen⟩
  | xferComplete => exact exec_xferComplete_answers h hen

/-- Only INIT and the two hardware steps can be disabled, and then they are refused. -/
theorem exec_refused_of_disabled {i : Instr} {s : State} (hen : ¬ enabled i s) : ∃ e, exec i s = .refused e := by
  cases i with
  | init cfg => exact ⟨_, exec_init_disabled hen⟩
  | shiftDone rx => exact ⟨_, exec_shiftDone_disabled hen⟩
  | xferComplete => exact ⟨_, exec_xferComplete_disabled hen⟩
  | _ => exact absurd trivial hen

/-- Settles O17: an operation that is well-formed and enabled answers a next state (`exec_answers_of_enabled`); any other is
refused, as ill-formed or as disabled. -/
theorem enabledOperationsComplete : Obligations.EnabledOperationsComplete := by
  intro i s h
  by_cases hw : i.wellFormed Config.params
  · by_cases hen : enabled i s
    · obtain ⟨t, ht⟩ := exec_answers_of_enabled h hw hen
      simp [ht, hen]
    · obtain ⟨e, he⟩ := exec_refused_of_disabled hen
      simp [he, hen]
  · simp [exec_illFormed hw s, hw]

end Sys2Proof.Machine
end

section
/-!
PROOFS. Invariants (50_invariants.md): what a step does with the descriptors SPI-TE holds (R172, R173, R176, R183), what
every reachable state meets (R170, R171, R175, R181), FLUSH and rejected submissions (R177, R179, R180), and runs of
exchanges (R182).
-/

namespace Sys2Proof.Machine

variable {W : Widths}

/-! ### Descriptors held and owed, in one step -/

/-- What a step of `i` from `s` to `t` with the events `evs` does with the descriptors SPI-TE holds: callbacks and releases
come in enqueue order, and a rejected submission is released as it is. -/
structure Accounted (P : Params W) (i : Instr W) (s t : State W) (evs : List (Event W)) : Prop where
  trace : t.trace = s.trace ++ evs
  callbacks : callbacksOf evs ++ callbacksDue (held t) = callbacksDue (held s ++ accepted P i s)
  released : accepted P i s = submitted i →
    releasesOf evs ++ releasesDue t = releasesDue s ++ (submitted i).map releaseDue
  rejected : accepted P i s ≠ submitted i → releasesOf evs = submitted i ∧ releasesDue t = releasesDue s

theorem held_congr {s t : State W} (hc : t.cur = s.cur) (hq : t.q = s.q) : held t = held s := by
  rw [held, held, hc, hq]

theorem releasesDue_congr {s t : State W} (hc : t.cur = s.cur) (hq : t.q = s.q) : releasesDue t = releasesDue s := by
  rw [releasesDue, releasesDue, hc, hq]

/-- Nothing submitted is nothing rejected. -/
theorem accepted_of_no_submission {P : Params W} {i : Instr W} {s : State W} (hi : submitted i = []) :
    accepted P i s = [] := by
  simp [accepted, hi]

/-- What the operations that neither submit nor handle a completion do: they leave the held descriptors alone, and their
events speak of none. -/
structure Bystander (s t : State W) (evs : List (Event W)) : Prop where
  trace : t.trace = s.trace ++ evs
  cur : t.cur = s.cur
  q : t.q = s.q
  callbacks : callbacksOf evs = []
  releases : releasesOf evs = []

theorem Bystander.emit_result (code : ResultCode) (dev : Option (Device W)) (s : State W) :
    Bystander s (emit (.result code dev) s) [.result code dev] := ⟨rfl, rfl, rfl, rfl, rfl⟩

theorem execAt_bystander {P : Params W} {i : Instr W} {s t : State W} (h : Inv P s) (hs : submitted i = [])
    (hi : i ≠ .xferComplete) (ht : execAt P i s = .next t) : ∃ evs, Bystander s t evs := by
  cases i with
  | init cfg =>
    simp only [execAt, execInit] at ht
    split at ht
    · cases ht
      exact ⟨[.setMaster, .result .ok none], by simp, rfl, rfl, rfl, rfl⟩
    · cases ht
  | createDevice dev =>
    obtain ⟨code, d, rfl⟩ := createDevice_concluded ht
    exact ⟨_, .emit_result code d s⟩
  | releaseDevice dev =>
    obtain ⟨code, d, rfl⟩ := releaseDevice_concluded ht
    exact ⟨_, .emit_result code d s⟩
  | write | read | readWrite => simp [submitted] at hs
  | flush =>
    obtain ⟨code, d, rfl⟩ := flush_concluded h ht
    exact ⟨_, .emit_result code d s⟩
  | shiftDone rx =>
    simp only [execAt, execShiftDone] at ht
    split at ht
    · cases ht
      exact ⟨[], by simp, rfl, rfl, rfl, rfl⟩
    · cases ht
  | xferComplete => exact absurd rfl hi

theorem Bystander.accounted {P : Params W} {i : Instr W} {s t : State W} {evs : List (Event W)} (h : Bystander s t evs)
    (hi : submitted i = []) : Accounted P i s t evs where
  trace := h.trace
  callbacks := by rw [h.callbacks, held_congr h.cur h.q, accepted_of_no_submission hi]; simp
  released := fun _ => by rw [h.releases, releasesDue_congr h.cur h.q, hi]; simp
  rejected := fun hr => absurd ((accepted_of_no_submission hi).trans hi.symm) hr

/-- The `Result` that ends a submission speaks of no descriptor. -/
theorem Submitted.accounted {P : Params W} {i : Instr W} {s u : State W} {evs : List (Event W)}
    (h : Submitted P (submitted i) (accepted P i s) s u evs) (code : ResultCode) :
    Accounted P i s (endWith code u) (evs ++ [.result code none]) where
  trace := by rw [endWith_trace, h.told.trace, List.append_assoc]
  callbacks := by rw [callbacksOf_append]; simpa [callbacksOf, held] using h.callbacks
  released := fun ha => by rw [releasesOf_append]; simpa [releasesOf, releasesDue] using h.releases ha
  rejected := fun hr => by
    obtain ⟨rfl, rfl⟩ := h.rejected hr
    obtain ⟨-, hrel, -, -⟩ := releases_say (submitted i)
    exact ⟨by rw [releasesOf_append, hrel]; simp [releasesOf], rfl⟩

theorem submission_accounted {P : Params W} {i : Instr W} {s t : State W} (h : Inv P s) (hi : submitted i ≠ [])
    (ht : execAt P i s = .next t) : ∃ evs, Accounted P i s t evs := by
  rw [execAt_submitOp hi, submitOp] at ht
  split at ht
  case isFalse => cases ht
  case isTrue hds =>
    obtain ⟨hr, -⟩ := refuseDevices_eq_next.1 ht
    obtain ⟨code, u, evs, hs, x⟩ := submit_spec h hi hds
    rw [hs] at hr
    cases hr
    exact ⟨_, Submitted.accounted x code⟩

/-- A handler run that answers is one of the current descriptor, which is there while a completion is pending (R181). -/
theorem xferComplete_handled {P : Params W} {s t : State W} (h : Inv P s) (ht : execAt P .xferComplete s = .next t) :
    ∃ c evs, s.cur = some c ∧ Handled P s.rxr c { s with ifrIF := false } t evs := by
  by_cases hen : handlerEnabled s
  case neg => simp [execAt, xferCompleteAt, runHandler, if_neg hen] at ht
  case pos =>
    obtain ⟨c, hc⟩ := Option.isSome_iff_exists.1 (h.busy_current (h.busy_iff.2 (.inr hen.1)))
    obtain ⟨hb, dev, hd, ha, -, hl⟩ := h.current hc
    have hx : s.xip = false := Bool.eq_false_iff.2 fun hx => h.one_exchange ⟨hx, hen.1⟩
    have hm : Mid P { s with ifrIF := false } := h.mid.congr rfl rfl rfl rfl rfl
    obtain ⟨u, evs, hu, x⟩ := handleByte_spec (rx := s.rxr) hm h.queue_bounded hd ha hb hl hx rfl
    rw [xferComplete_eq hen hc] at ht
    obtain ⟨hr, -⟩ := refuseDevices_eq_next.1 ht
    rw [hu] at hr
    cases hr
    exact ⟨c, evs, hc, x⟩

theorem xferComplete_accounted {P : Params W} {s t : State W} (h : Inv P s) (ht : execAt P .xferComplete s = .next t) :
    ∃ evs, Accounted P .xferComplete s t evs := by
  obtain ⟨c, evs, hc, x⟩ := xferComplete_handled h ht
  refine ⟨evs, x.told.trace, ?_, fun _ => ?_, fun hr => absurd (accepted_of_no_submission rfl) hr⟩
  · rw [x.callbacks, accepted_of_no_submission rfl]
    simp [held, hc]
  · rw [x.releases]
    simp [releasesDue, hc, submitted]

/-- Every operation from a state that meets the invariant keeps account of the descriptors held. -/
theorem execAt_accounted {P : Params W} {i : Instr W} {s t : State W} (h : Inv P s) (ht : execAt P i s = .next t) :
    ∃ evs, Accounted P i s t evs := by
  by_cases hs : submitted i = []
  · by_cases hi : i = .xferComplete
    · subst hi
      exact xferComplete_accounted h ht
    · obtain ⟨evs, hb⟩ := execAt_bystander h hs hi ht
      exact ⟨evs, hb.accounted hs⟩
  · exact submission_accounted h hs ht

/-- Settles O51: `execAt_accounted`. -/
theorem callbacksFireOnceInEnqueueOrder : Obligations.CallbacksFireOnceInEnqueueOrder := by
  intro W P i s t h ht
  obtain ⟨evs, ha⟩ := execAt_accounted h ht
  exact ⟨evs, ha.trace, ha.callbacks⟩

/-- Settles O53: `execAt_accounted`. -/
theorem everyDescriptorIsReleasedOnceInOrder : Obligations.EveryDescriptorIsReleasedOnceInOrder := by
  intro W P i s t h ht
  obtain ⟨evs, ha⟩ := execAt_accounted h ht
  exact ⟨evs, ha.trace, ha.released, ha.rejected⟩

/-! ### Callbacks over a run (R172) -/

theorem callbacksDue_append (ds es : List (Desc W)) : callbacksDue (ds ++ es) = callbacksDue ds ++ callbacksDue es :=
  List.filterMap_append

theorem acceptedBy_cons {P : Params W} {i : Instr W} {is : List (Instr W)} {s u : State W} (hu : execAt P i s = .next u) :
    acceptedBy P (i :: is) s = accepted P i s ++ acceptedBy P is u := by
  rw [acceptedBy, hu]

/-- Over a run: what fires, then what is still owed at its end, is what was owed and then what it accepted. -/
theorem runAt_callbacks {P : Params W} {is : List (Instr W)} {s t : State W} (h : Inv P s)
    (ht : runAt P is s = .next t) :
    Inv P t ∧ ∃ evs, t.trace = s.trace ++ evs ∧
      callbacksOf evs ++ callbacksDue (held t) = callbacksDue (held s ++ acceptedBy P is s) := by
  induction is generalizing s with
  | nil =>
    cases ht
    exact ⟨h, [], by simp, by simp [callbacksOf, acceptedBy]⟩
  | cons i is ih =>
    obtain ⟨u, hu, hrest⟩ := andThen_eq_next ht
    obtain ⟨evs, ha⟩ := execAt_accounted h hu
    obtain ⟨hi, evs', htr, hcb⟩ := ih (execAt_keeps_inv h hu) hrest
    refine ⟨hi, evs ++ evs', by rw [htr, ha.trace, List.append_assoc], ?_⟩
    calc callbacksOf (evs ++ evs') ++ callbacksDue (held t)
        = callbacksOf evs ++ callbacksDue (held u) ++ callbacksDue (acceptedBy P is u) := by
          rw [callbacksOf_append, List.append_assoc, hcb, callbacksDue_append, List.append_assoc]
      _ = callbacksDue (held s ++ acceptedBy P (i :: is) s) := by
          rw [ha.callbacks, acceptedBy_cons hu, ← callbacksDue_append, List.append_assoc]

/-- Settles O52: `runAt_callbacks`; a state that is IDLE holds no descriptor. -/
theorem runToIdleFiresEveryCallbackInOrder : Obligations.RunToIdleFiresEveryCallbackInOrder := by
  intro W P is s t h ht he
  obtain ⟨hi, evs, htr, hcb⟩ := runAt_callbacks h ht
  obtain ⟨hq, hc, -⟩ := hi.idle he
  have hheld : held t = [] := by simp [held, hq, hc]
  rw [hheld] at hcb
  exact ⟨evs, htr, by simpa [callbacksDue] using hcb⟩

/-! ### Reachable states (R170) -/

/-- An operation keeps the cursors of the current descriptor off the platform's devices: one that moves them is checked
(R45), any other leaves `CUR`. -/
theorem execAt_noDevice {P : Params W} {i : Instr W} {s t : State W} (h : Inv P s) (hn : noDevice P s)
    (ht : execAt P i s = .next t) : noDevice P t := by
  by_cases hi : submitted i ≠ [] ∨ i = .xferComplete
  · rw [execAt_eq_refuseDevices hi] at ht
    exact (refuseDevices_eq_next.1 ht).2
  · simp only [not_or, not_not] at hi
    obtain ⟨_, hb⟩ := execAt_bystander h hi.1 hi.2 ht
    rw [noDevice, hb.cur]
    exact hn

theorem Reachable.inv_noDevice {P : Params W} {s : State W} (h : Reachable P s) : Inv P s ∧ noDevice P s := by
  induction h with
  | reset => exact ⟨resetMeetsTheInvariant W P, fun _ hc => nomatch hc⟩
  | script bytes s _ ih => exact ⟨ih.1.script bytes, ih.2⟩
  | hostStore a v s _ ih => exact ⟨ih.1.hostStore a v, ih.2⟩
  | operation i s t _ ht ih => exact ⟨execAt_keeps_inv ih.1 ht, execAt_noDevice ih.1 ih.2 ht⟩

theorem Reachable.inv {P : Params W} {s : State W} (h : Reachable P s) : Inv P s := h.inv_noDevice.1

/-- Settles O13: `Reachable.inv_noDevice`; a step is an operation with its packet taken off the script. -/
theorem reachableStatesMeetTheInvariant : Obligations.ReachableStatesMeetTheInvariant := by
  refine ⟨fun W P s h => h.inv_noDevice, fun P s t h ht => ?_⟩
  obtain ⟨⟨i, s'⟩, hf, hx⟩ := andThen_eq_next ht
  obtain ⟨rest, -, rfl⟩ := fetch_eq_next hf
  exact .operation i _ t (.script rest s h) hx

theorem Inv.busy_iff_current {P : Params W} {s : State W} (h : Inv P s) : s.engine = .busy ↔ s.cur ≠ none := by
  refine ⟨fun he => Option.isSome_iff_ne_none.1 (h.busy_current he), fun hc => ?_⟩
  obtain ⟨c, hc⟩ := Option.ne_none_iff_exists'.1 hc
  exact (h.current hc).1

/-- Settles O14: clauses of the invariant, and `Inv.busy_iff_current`. -/
theorem reachableEngineStateRules : Obligations.ReachableEngineStateRules := fun _ _ _ h =>
  ⟨h.inv.idle_iff, h.inv.busy_iff_current, h.inv.busy_iff, h.inv.one_exchange⟩

/-- Settles O15: `Inv.idle` and `Inv.current`. -/
theorem reachableSelectLineRules : Obligations.ReachableSelectLineRules := by
  intro W P s h
  refine ⟨fun he => ?_, fun he => ?_⟩
  · obtain ⟨-, -, hx, hi⟩ := h.inv.idle he
    exact ⟨hx, hi, h.inv.idle_deasserted he⟩
  · obtain ⟨c, hc⟩ := Option.isSome_iff_exists.1 (h.inv.busy_current he)
    obtain ⟨-, a, hd, ha, hl⟩ := h.inv.current hc
    exact ⟨c, a, hc, hd, ha, hl⟩

/-! ### FLUSH and rejected submissions (R177, R179, R180) -/

/-- A run answers alike from two states that differ in unread registers only. -/
theorem follows_runAt (P : Params W) (is : List (Instr W)) : FollowsState (runAt P is) := by
  induction is with
  | nil => exact Follows.answers (f := id) fun _ _ h => .refl h
  | cons i is ih =>
    intro s s' h t ht
    obtain ⟨u, hu, hrest⟩ := andThen_eq_next ht
    obtain ⟨u', hu', ha⟩ := follows_execAt P i s s' h u hu
    obtain ⟨t', ht', hb⟩ := ih u u' ha.same t hrest
    exact ⟨t', by rw [runAt, hu', andThen_next, ht'], ha.trans hb⟩

/-- From two states that differ in the trace only, the same procedures lead to two such states. -/
theorem After.eq_of_trace {s t t' : State W} {tr : List (Event W)} (h : After s { s with trace := tr } t t') :
    t' = { t with trace := t'.trace } := by
  have hs := h.same
  cases t'
  simp only [State.mk.injEq]
  exact ⟨hs.engine, hs.cur, hs.active, hs.q, hs.dir, hs.lvl, h.txr rfl, hs.rxr, hs.xip, hs.ifrIF, hs.ctrlIE, h.mstr rfl,
    h.cfg rfl, hs.mem, trivial, h.script rfl⟩

/-- Settles O25: `follows_runAt`, from two states that differ in the trace only. -/
theorem flushWhileBusyDisturbsNothing : Obligations.FlushWhileBusyDisturbsNothing := by
  intro W P s he
  refine ⟨_, execFlush_busy he, rfl, fun is t ht => ?_⟩
  have hsame : SameButUnread s (endWith .flushFailed s) := ⟨rfl, rfl, rfl, rfl, rfl, rfl, rfl, rfl, rfl, rfl, rfl⟩
  obtain ⟨t', ht', ha⟩ := follows_runAt P is _ _ hsame t ht
  obtain ⟨evs, htr, htr'⟩ := ha.tr
  exact ⟨evs, htr, by rw [ht', ha.eq_of_trace, htr']; rfl⟩

/-- Settles O24: `execFlush_idle`, with nothing to release. -/
theorem flushOfAnEmptyIdleQueueIsANoOp : Obligations.FlushOfAnEmptyIdleQueueIsANoOp := by
  intro s he hq
  rw [exec, execFlush_idle he, flushAll_of_empty hq]
  rfl

/-- Settles O27: `submit_overflow`, and then the `Result`. -/
theorem overflowReleasesAndChangesNothingElse : Obligations.OverflowReleasesAndChangesNothingElse := by
  intro i s hw hne hover
  have hfree : freeSlots Config.params s < (submitted i).length := by
    have : 0 < (submitted i).length := List.length_pos_of_ne_nil hne
    unfold freeSlots
    omega
  rw [exec_eq_execAt, execAt_submit hne hw, refuseDevices_params, submit_overflow hfree]
  rfl

/-! ### Runs of exchanges (R182) -/

@[simp] theorem capturesOf_nil (c : Desc W) : capturesOf c [] = [] := by
  cases h : c.capture <;> simp [capturesOf, storesFrom, h]

@[simp] theorem afterExchanges_zero (c : Desc W) : afterExchanges 0 c = c := by
  obtain ⟨dev, da, re, mo, ca, cb⟩ := c
  cases ca <;> simp [afterExchanges]

@[simp] theorem afterExchanges_callback (n : Nat) (c : Desc W) : (afterExchanges n c).callback = c.callback := rfl

theorem ended_afterExchanges (m n : Nat) (c : Desc W) : ended m (afterExchanges n c) = ended (m + n) c := by
  induction n generalizing c with
  | zero => simp
  | succ n ih =>
    rw [afterExchanges_succ, ih, ← Nat.add_assoc, ended_succ]
    rfl

/-- After as many exchanges as it has bytes left, a descriptor has none left. -/
theorem afterExchanges_remaining {n : Nat} {c : Desc W} (h : n = c.remaining.toNat) :
    (afterExchanges n c).remaining = 0#_ := by
  simp [afterExchanges, h]

theorem remaining_stepped {n : Nat} {c : Desc W} (h : n + 1 ≤ c.remaining.toNat) :
    c.remaining ≠ 0#_ ∧ n ≤ (stepped c).remaining.toNat := by
  have hne : c.remaining ≠ 0#_ := fun e => by simp [e] at h
  have hpred : (stepped c).remaining.toNat + 1 = c.remaining.toNat := count_pred hne
  exact ⟨hne, by omega⟩

/-- The events of the exchanges of `c` that receive `rxs`, none of them its last, from memory `m`: each stores where `c`
captures and loads the next byte (R116 to R118). -/
def exchangeEvents (c : Desc W) : List Byte → Memory → List (Event W)
  | [], _ => []
  | rx :: rxs, m =>
    storeEvents (capturesOf c [rx]) ++ .load (Memory.byteAt (storeAll (capturesOf c [rx]) m) (nextAddr c.data)) ::
      exchangeEvents (stepped c) rxs (storeAll (capturesOf c [rx]) m)

/-- A run of exchanges with bytes left touches nothing but `CUR`, `TXR`, `RXR`, the memory and the trace. -/
theorem runAt_xfers {P : Params W} {rxs : List Byte} {s : State W} {c : Desc W} (hx : s.xip = true) (hi : s.ifrIF = false)
    (he : s.ctrlIE = true) (hc : s.cur = some c) (hr : rxs.length ≤ c.remaining.toNat)
    (hd : ∀ j, j ≤ rxs.length → ¬ cursorOnDevice P (afterExchanges j c)) :
    ∃ txr rxr, runAt P (xfers rxs) s = .next { s with
      cur := some (afterExchanges rxs.length c), txr := txr, rxr := rxr, mem := storeAll (capturesOf c rxs) s.mem,
      trace := s.trace ++ exchangeEvents c rxs s.mem } := by
  induction rxs generalizing s c with
  | nil => exact ⟨s.txr, s.rxr, by simp [xfers, runAt, exchangeEvents, storeAll, ← hc]⟩
  | cons rx rxs ih =>
    obtain ⟨hne, hr'⟩ := remaining_stepped hr
    have hd' (j : Nat) (hj : j ≤ rxs.length) : ¬ cursorOnDevice P (afterExchanges j (stepped c)) := by
      rw [← afterExchanges_succ]
      exact hd (j + 1) (Nat.succ_le_succ hj)
    have h0 : ¬ cursorOnDevice P (stepped c) := by simpa using hd' 0 (Nat.zero_le _)
    rw [xfers, runAt_append, xfer_eq hx he hc hne h0, andThen_next]
    obtain ⟨txr, rxr, hrun⟩ := ih (s := { s with
      xip := true, ifrIF := false, rxr := rx, cur := some (stepped c), mem := storeAll (capturesOf c [rx]) s.mem,
      txr := Memory.byteAt (storeAll (capturesOf c [rx]) s.mem) (nextAddr c.data),
      trace := s.trace ++ storeEvents (capturesOf c [rx]) ++
        [.load (Memory.byteAt (storeAll (capturesOf c [rx]) s.mem) (nextAddr c.data))] }) rfl rfl he rfl hr' hd'
    refine ⟨txr, rxr, hrun.trans ?_⟩
    simp [afterExchanges_succ, capturesOf_cons c rx rxs, storeAll_append, exchangeEvents, hx, hi]

theorem exchangeEvents_say (c : Desc W) (rxs : List Byte) (m : Memory) :
    storesOf (exchangeEvents c rxs m) = capturesOf c rxs ∧ callbacksOf (exchangeEvents c rxs m) = [] ∧
      releasesOf (exchangeEvents c rxs m) = [] ∧
      ∀ p, Event.selAssert p ∉ exchangeEvents c rxs m ∧ Event.selDeassert p ∉ exchangeEvents c rxs m := by
  induction rxs generalizing c m with
  | nil => simp [exchangeEvents, storesOf, callbacksOf, releasesOf]
  | cons rx rxs ih =>
    obtain ⟨h1, h2, h3, -, h4⟩ := storeEvents_say (capturesOf c [rx])
    obtain ⟨k1, k2, k3, k4⟩ := ih (stepped c) (storeAll (capturesOf c [rx]) m)
    rw [capturesOf_cons]
    simp [exchangeEvents, storesOf, callbacksOf, releasesOf, h1, h2, h3, h4, k1, k2, k3, k4]

/-- The loads of a run of exchanges: the byte at the advanced cursor, as memory is after the stores so far. -/
theorem exchangeEvents_loads (c : Desc W) (rxs : List Byte) (m : Memory) :
    (loadsOf (exchangeEvents c rxs m)).length = rxs.length ∧
      ∀ j, j < rxs.length → (loadsOf (exchangeEvents c rxs m))[j]? =
        some (Memory.byteAt (storeAll ((capturesOf c rxs).take (j + 1)) m) (c.data + BitVec.ofNat _ (j + 1))) := by
  induction rxs generalizing c m with
  | nil => simp [exchangeEvents, loadsOf]
  | cons rx rxs ih =>
    obtain ⟨-, -, -, hno, -⟩ := storeEvents_say (capturesOf c [rx])
    obtain ⟨hlen, hget⟩ := ih (stepped c) (storeAll (capturesOf c [rx]) m)
    have hloads : loadsOf (exchangeEvents c (rx :: rxs) m) =
        Memory.byteAt (storeAll (capturesOf c [rx]) m) (nextAddr c.data) ::
          loadsOf (exchangeEvents (stepped c) rxs (storeAll (capturesOf c [rx]) m)) := by
      simp [exchangeEvents, loadsOf, hno]
    rw [hloads]
    refine ⟨congrArg (· + 1) hlen, fun j hj => ?_⟩
    rw [capturesOf_take, storeAll_append, addr_succ]
    cases j with
    | zero => simp [storeAll]
    | succ j => exact hget j (Nat.lt_of_succ_lt_succ hj)

/-- Settles O54: `runAt_xfers` gives the state, `exchangeEvents_say` and `exchangeEvents_loads` what its events say. -/
theorem exchangesMoveOneByteEach : Obligations.ExchangesMoveOneByteEach := by
  intro W P rxs s c hx hi he hc hr hd
  obtain ⟨txr, rxr, hrun⟩ := runAt_xfers hx hi he hc hr hd
  obtain ⟨hst, hcb, hrel, hsel⟩ := exchangeEvents_say c rxs s.mem
  obtain ⟨hlen, hget⟩ := exchangeEvents_loads c rxs s.mem
  exact ⟨_, _, hrun, rfl, rfl, rfl, rfl, rfl, rfl, rfl, hx, hi, he, rfl, hst, hcb, hrel, hsel, hlen, hget⟩

/-- The last exchange of a descriptor with nothing queued (R119, step 4b). -/
theorem runAt_xfer_last {P : Params W} {rx : Byte} {s : State W} {c : Desc W} {a : Device W} (hx : s.xip = true)
    (he : s.ctrlIE = true) (hc : s.cur = some c) (hr : c.remaining = 0#_) (ha : s.active = some a) (hq : s.q = []) :
    runAt P (xfer rx) s = .next { s with
      engine := .idle, cur := none, xip := false, ifrIF := false, rxr := rx,
      mem := storeAll (capturesOf c [rx]) s.mem, lvl := setPin s.lvl a.lbit (!P.selActive),
      trace := s.trace ++ (storeEvents (capturesOf c [rx]) ++ callbackEvents c ++
        [.release (ended 1 c), .selDeassert a.lbit]) } := by
  have hshift : execAt P (.shiftDone rx) s = .next (completeExchange rx s) := if_pos hx
  rw [xfer, runAt, hshift, andThen_next, runAt,
    xferComplete_eq (s := completeExchange rx s) ⟨rfl, he⟩ hc, handleByte_last hr (by exact ha) (by exact hq),
    refuseDevices_next (by simp [noDevice])]
  simp [runAt, completeExchange]

/-- Settles O55: `runAt_xfers` through the bytes that are left to load, then `runAt_xfer_last`. -/
theorem nBytesTakeExactlyNCompletions : Obligations.NBytesTakeExactlyNCompletions := by
  intro W P rxs rx s c h hx he hc hq hr hd
  have hi : s.ifrIF = false := Bool.eq_false_iff.2 fun hi => h.one_exchange ⟨hx, hi⟩
  obtain ⟨hb, a, -, ha, -⟩ := h.current hc
  obtain ⟨txr, rxr, hrun⟩ := runAt_xfers hx hi he hc (Nat.le_of_eq hr) hd
  obtain ⟨-, hcb, -, -⟩ := exchangeEvents_say c rxs s.mem
  obtain ⟨-, h1, h2, h3, -⟩ := storeEvents_say (capturesOf (afterExchanges rxs.length c) [rx])
  obtain ⟨k1, k2, k3, -⟩ := callbackEvents_says (afterExchanges rxs.length c)
  have hend : ended 1 (afterExchanges rxs.length c) = ended (c.remaining.toNat + 1) c := by
    rw [ended_afterExchanges, hr, Nat.add_comm]
  refine ⟨_, _, _, hrun, hb, rfl, hcb,
    runAt_xfer_last (a := a) hx he rfl (afterExchanges_remaining hr) ha hq, rfl, rfl, _, rfl, ?_, ?_, ?_⟩
  · simp [callbacksOf, h1, k1]
  · simp [loadsOf, h3, k3]
  · simp [releasesOf, h2, k2, hend]

end Sys2Proof.Machine
end

section
/-!
PROOFS. Exceptions (60_exceptions.md): a descriptor without device, found while IDLE (R191) and in the handler (R195), and who
writes the one-bit items and the port registers (R198; R19 to R22 of 10_state.md), `CTRL.MSTR` and `ACTIVE` by `ACTIVATE`
(R93).
-/

namespace Sys2Proof.Machine

variable {W : Widths}

/-! ### A descriptor without device (R191, R195) -/

/-- Settles O29: at rest no line is held, so START_NEXT only releases the descriptor (`startLoop_null_last`). -/
theorem nullDeviceWhileIdleIsReleasedAndReported : Obligations.NullDeviceWhileIdleIsReleasedAndReported := by
  intro i s c h he hs hd
  obtain ⟨hq, hc, -⟩ := h.idle he
  have hw : i.wellFormed Config.params := (wellFormed_iff_submitted (by simp [hs])).2 (by simpa [hs, hd] using deviceOk_none)
  rw [exec_submit_idle he hq hw hs, startLoop_null_last hd (by exact h.idle_deasserted he)]
  simp [endWith, emit, nullEvents, he, hq, hc]

/-- Settles O38: a READ_WRITE descriptor ends with its line held (`handleByte_held`), and START_NEXT deasserts it after the
report; any other ends with its line deasserted (`handleByte_chained`), and START_NEXT finds none. -/
theorem nullDeviceInTheHandlerIsADiag : Obligations.NullDeviceInTheHandlerIsADiag := by
  intro s c d a h hi he hc hr hca hq hd
  obtain ⟨-, a', hca', ha, hl⟩ := h.current hc
  obtain rfl : a = a' := Option.some.inj (hca.symm.trans hca')
  rw [exec_xferComplete_eq ⟨hi, he⟩ hc]
  by_cases hm : c.mode = .readWrite
  · rw [handleByte_held hr hm (by exact ha) (by simp [hq])]
    simp only [startNext, hq]
    rw [startLoop_null_last_held hd (by exact ha) (by exact hl)]
    simp [hm, callbackEvents, nullEvents]
  · rw [handleByte_chained hr hm (by exact ha) (by simp [hq])]
    simp only [startNext, hq]
    rw [startLoop_null_last hd (by simp [ha, asserted])]
    simp [hm, callbackEvents, nullEvents]

/-! ### Events that are no `ACTIVATE` (R93) -/

/-- None of the events is one that `ACTIVATE` emits. -/
def ActivationFree (evs : List (Event W)) : Prop := ∀ e ∈ evs, e ≠ .setMaster ∧ ∀ p, e ≠ .dirOut p

@[simp] theorem activationFree_nil : ActivationFree ([] : List (Event W)) := List.forall_mem_nil _

@[simp] theorem activationFree_cons (e : Event W) (evs : List (Event W)) :
    ActivationFree (e :: evs) ↔ (e ≠ .setMaster ∧ ∀ p, e ≠ .dirOut p) ∧ ActivationFree evs := List.forall_mem_cons

@[simp] theorem activationFree_append (a b : List (Event W)) :
    ActivationFree (a ++ b) ↔ ActivationFree a ∧ ActivationFree b := List.forall_mem_append

@[simp] theorem activationFree_callbackEvents (c : Desc W) : ActivationFree (callbackEvents c) := by
  cases h : c.callback <;> simp [callbackEvents, h]

@[simp] theorem activationFree_nullEvents (ctx : Context) (d : Desc W) : ActivationFree (nullEvents ctx d) := by
  cases ctx <;> simp [nullEvents]

@[simp] theorem activationFree_releases (ds : List (Desc W)) : ActivationFree (ds.map Event.release) :=
  List.forall_mem_map.2 fun _ _ => by simp

@[simp] theorem activationFree_storeEvents (ws : List (Addr W × Byte)) : ActivationFree (storeEvents ws) :=
  List.forall_mem_map.2 fun _ _ => by simp

/-! ### Who writes `CTRL.MSTR` and `ACTIVE` (R21, R93) -/

/-- What the events `evs` from `s` to `t` say of `CTRL.MSTR` and `ACTIVE`, where only `ACTIVATE` has written them:
`CTRL.MSTR` is set exactly by `SetMaster`, which comes with a `DirOut`, and no change of `ACTIVE` comes without one. -/
structure Announced (s t : State W) (evs : List (Event W)) : Prop where
  trace : t.trace = s.trace ++ evs
  master : t.ctrlMSTR = true ↔ s.ctrlMSTR = true ∨ Event.setMaster ∈ evs
  paired : Event.setMaster ∈ evs ↔ ∃ p, Event.dirOut p ∈ evs
  active : t.active ≠ s.active → ∃ p, Event.dirOut p ∈ evs

/-- Some events say so. -/
def Announces (s t : State W) : Prop := ∃ evs, Announced s t evs

theorem Announces.trans {s t u : State W} (h : Announces s t) (k : Announces t u) : Announces s u := by
  obtain ⟨a, ha⟩ := h
  obtain ⟨b, hb⟩ := k
  refine ⟨a ++ b, by rw [hb.trace, ha.trace, List.append_assoc], ?_, ?_, fun hne => ?_⟩
  · rw [hb.master, ha.master, List.mem_append, or_assoc]
  · simp only [List.mem_append, ha.paired, hb.paired, exists_or]
  · simp only [List.mem_append, exists_or]
    by_cases ht : t.active = s.active
    · exact .inr (hb.active (ht ▸ hne))
    · exact .inl (ha.active ht)

/-- Where `CTRL.MSTR` and `ACTIVE` are as before, and no event is one of `ACTIVATE`. -/
theorem announces_of_free {s t : State W} {evs : List (Event W)} (hf : ActivationFree evs)
    (ht : t.trace = s.trace ++ evs) (hm : t.ctrlMSTR = s.ctrlMSTR) (ha : t.active = s.active) : Announces s t := by
  have hmaster : Event.setMaster ∉ evs := fun he => (hf _ he).1 rfl
  have hdir : ¬ ∃ p, Event.dirOut p ∈ evs := fun ⟨p, he⟩ => (hf _ he).2 p rfl
  exact ⟨evs, ht, by simp [hm, hmaster], iff_of_false hmaster hdir, fun hne => absurd ha hne⟩

/-- Where trace, `CTRL.MSTR` and `ACTIVE` are as before. -/
theorem announces_silent {s t : State W} (ht : t.trace = s.trace) (hm : t.ctrlMSTR = s.ctrlMSTR)
    (ha : t.active = s.active) : Announces s t :=
  announces_of_free (evs := []) activationFree_nil (by simp [ht]) hm ha

theorem announces_deassert (P : Params W) (a : Device W) (s : State W) : Announces s (deassertLine P a s) :=
  announces_of_free (evs := [.selDeassert a.lbit]) (by simp) rfl rfl rfl

theorem announces_switchGuard (P : Params W) (dev : Device W) (s : State W) : Announces s (switchGuard P dev s) := by
  rcases switchGuard_cases P dev s with h | ⟨a, -, -, -, h⟩ <;> rw [h]
  · exact announces_silent rfl rfl rfl
  · exact announces_deassert P a s

theorem announces_activate (dev : Device W) (s : State W) : Announces s (activate dev s) := by
  by_cases ha : s.active = some dev
  · rw [activate_same ha]
    exact announces_silent rfl rfl rfl
  · rw [activate_other ha]
    exact ⟨[.dirOut dev.dbit, .setMaster], by simp, by simp, by simp, fun _ => ⟨dev.dbit, by simp⟩⟩

theorem announces_exhausted {P : Params W} {c : Desc W} {s t : State W} {more : Bool}
    (h : exhausted P c s = .next (more, t)) : Announces s t := by
  rcases ha : s.active with _ | a
  · rw [exhausted_no_active ha] at h
    cases h
  · by_cases hq : s.q = []
    · rw [exhausted_last ha hq] at h
      cases h
      exact announces_of_free (by simp) (List.append_assoc ..) rfl rfl
    · by_cases hm : c.mode = .readWrite
      · rw [exhausted_held ha hq hm] at h
        cases h
        exact announces_of_free (by simp) (List.append_assoc ..) rfl rfl
      · rw [exhausted_chained ha hq hm] at h
        cases h
        exact announces_of_free (by simp) (List.append_assoc ..) rfl rfl

theorem announces_releaseLine (P : Params W) (s : State W) : Announces s (releaseLine P s) := by
  by_cases hl : ∀ a ∈ s.active, ¬ asserted P a s
  · rw [releaseLine_quiet hl]
    exact announces_silent rfl rfl rfl
  · simp only [not_forall, not_not] at hl
    obtain ⟨a, ha, hl⟩ := hl
    rw [releaseLine_held ha hl]
    exact announces_deassert P a s

theorem announces_dropNullDevice (P : Params W) (ctx : Context) (d : Desc W) (s : State W) :
    Announces s (dropNullDevice P ctx d s).2 := by
  have h0 : Announces s { s with cur := none, trace := s.trace ++ nullEvents ctx d } :=
    announces_of_free (activationFree_nullEvents ctx d) rfl rfl rfl
  rw [dropNullDevice_eq]
  split
  · exact (h0.trans (announces_releaseLine P _)).trans (announces_silent rfl rfl rfl)
  · exact h0

theorem announces_startExchange {P : Params W} {dev : Device W} {d : Desc W} {s t : State W}
    (h : startExchange P dev d s = .next t) : Announces s t := by
  by_cases hl : s.xip = true ∨ s.ifrIF = true
  · rw [startExchange_collides hl] at h
    cases h
  · simp only [not_or, Bool.not_eq_true] at hl
    rw [startExchange_eq hl.1 hl.2] at h
    cases h
    exact announces_of_free (evs := [.selAssert dev.lbit, .load (memRead d.data s)]) (by simp) rfl rfl rfl

theorem announces_startPass {P : Params W} {ctx : Context} {d : Desc W} {s t : State W} {more : Bool}
    (h : startPass P ctx d s = .next (more, t)) : Announces s t := by
  have h0 : Announces s (setCur d s) := announces_silent rfl rfl rfl
  rcases hd : d.device with _ | dev
  · simp only [startPass, hd] at h
    have h1 := h0.trans (announces_dropNullDevice P ctx d (setCur d s))
    rwa [Host.Outcome.next.inj h] at h1
  · have h1 := (h0.trans (announces_switchGuard P dev _)).trans (announces_activate dev _)
    simp only [startPass, hd] at h
    split at h
    case isTrue => exact h1.trans (announces_exhausted h)
    case isFalse =>
      obtain ⟨u, hu, hk⟩ := andThen_eq_next h
      cases hk
      exact h1.trans (announces_startExchange hu)

theorem announces_startLoop {P : Params W} {ctx : Context} {ds : List (Desc W)} {res code : ResultCode} {s t : State W}
    (h : startLoop P ctx ds res s = .next (code, t)) : Announces s t := by
  induction ds generalizing res s with
  | nil => cases h
  | cons d rest ih =>
    have h0 : Announces s { s with q := rest } := announces_silent rfl rfl rfl
    unfold startLoop at h
    split at h
    next => cases h
    next => cases h
    next hp =>
      cases h
      exact h0.trans (announces_startPass hp)
    next hp => exact h0.trans ((announces_startPass hp).trans (ih h))

theorem announces_submit {P : Params W} {ds : List (Desc W)} {s t : State W} {code : ResultCode}
    (h : submit P ds s = .next (code, t)) : Announces s t := by
  by_cases hroom : freeSlots P s < ds.length
  · rw [submit_overflow hroom] at h
    cases h
    exact announces_of_free (activationFree_releases ds) rfl rfl rfl
  · rw [submit, if_neg hroom] at h
    obtain ⟨q, hq⟩ := enqueueAll_only_q P ds s
    have h0 : Announces s (enqueueAll P ds s) := hq ▸ announces_silent rfl rfl rfl
    unfold kick at h
    split at h
    next =>
      cases h
      exact h0
    next => exact h0.trans (announces_startLoop h)

theorem announces_handleByte {P : Params W} {rx : Byte} {c : Desc W} {s t : State W}
    (h : handleByte P rx c s = .next t) : Announces s t := by
  have h0 : Announces s (afterByte rx c s) := by
    rw [afterByte_eq]
    exact announces_of_free (activationFree_storeEvents _) rfl rfl rfl
  rw [handleByte_eq] at h
  split at h
  case isTrue =>
    by_cases hl : s.xip = true ∨ s.ifrIF = true
    · rw [continueTransfer_collides (by exact hl)] at h
      cases h
    · simp only [not_or, Bool.not_eq_true] at hl
      rw [continueTransfer_eq (by exact hl.1) (by exact hl.2)] at h
      cases h
      exact h0.trans (announces_of_free (evs := [.load _]) (by simp) rfl rfl rfl)
  case isFalse =>
    obtain ⟨⟨more, u⟩, hu, hk⟩ := andThen_eq_next h
    have h1 := h0.trans (announces_exhausted hu)
    cases more with
    | false =>
      cases hk
      exact h1
    | true =>
      obtain ⟨⟨code, v⟩, hv, hk⟩ := andThen_eq_next hk
      cases hk
      exact h1.trans (announces_startLoop hv)

/-! ### Who writes the other control registers (R19 to R22, R198) -/

/-- What every operation but INIT and SHIFT_DONE does to the control registers: the port registers and what INIT writes are
as before, no completion becomes pending, and `CTRL.MSTR` and `ACTIVE` are written by `ACTIVATE` only. -/
structure Controlled (s t : State W) : Prop where
  rxr : t.rxr = s.rxr
  ifrIF : t.ifrIF = true → s.ifrIF = true
  ctrlIE : t.ctrlIE = s.ctrlIE
  cfg : t.cfg = s.cfg
  announces : Announces s t

theorem controlled_result (code : ResultCode) (dev : Option (Device W)) (s : State W) :
    Controlled s (emit (.result code dev) s) :=
  ⟨rfl, id, rfl, rfl, announces_of_free (evs := [.result code dev]) (by simp) rfl rfl rfl⟩

theorem submitOp_controlled {P : Params W} {ds : List (Desc W)} {s t : State W} (h : submitOp P ds s = .next t) :
    Controlled s t := by
  obtain ⟨code, u, hs, rfl⟩ := submitOp_eq_next h
  obtain ⟨hk, -⟩ := kept_submit hs
  have hr := controlled_result code none u
  exact ⟨hk.rxr, hk.ifrIF ▸ id, hk.ctrlIE, hk.cfg, (announces_submit hs).trans hr.announces⟩

theorem execFlush_controlled {s t : State W} (h : execFlush s = .next t) : Controlled s t := by
  cases he : s.engine with
  | busy =>
    rw [execFlush_busy he] at h
    cases h
    exact controlled_result ..
  | idle =>
    rw [execFlush_idle he, flushAll, releaseAll_eq] at h
    cases h
    exact ⟨rfl, id, rfl, rfl, announces_of_free (by simp) (List.append_assoc ..) rfl rfl⟩

theorem xferComplete_controlled {P : Params W} {s t : State W} (h : execAt P .xferComplete s = .next t) :
    Controlled s t := by
  by_cases hen : handlerEnabled s
  case neg => simp [execAt, xferCompleteAt, runHandler, if_neg hen] at h
  case pos =>
    have h0 : Announces s { s with ifrIF := false } := announces_silent rfl rfl rfl
    rcases Option.eq_none_or_eq_some s.cur with hc | ⟨c, hc⟩
    · rw [xferComplete_no_current hen hc] at h
      cases h
      exact ⟨rfl, fun _ => hen.1, rfl, rfl, h0⟩
    · rw [xferComplete_eq hen hc] at h
      obtain ⟨hb, -⟩ := refuseDevices_eq_next.1 h
      have hk := kept_handleByte hb
      exact ⟨hk.rxr, fun _ => hen.1, hk.ctrlIE, hk.cfg, h0.trans (announces_handleByte hb)⟩

theorem execAt_controlled {P : Params W} {i : Instr W} {s t : State W} (hinit : ∀ cfg, i ≠ .init cfg)
    (hshift : ∀ rx, i ≠ .shiftDone rx) (h : execAt P i s = .next t) : Controlled s t := by
  cases i with
  | init cfg => exact absurd rfl (hinit cfg)
  | createDevice dev =>
    obtain ⟨code, dev, rfl⟩ := createDevice_concluded h
    exact controlled_result code dev s
  | releaseDevice dev =>
    obtain ⟨code, dev, rfl⟩ := releaseDevice_concluded h
    exact controlled_result code dev s
  | write | read | readWrite => exact submitOp_controlled h
  | flush => exact execFlush_controlled h
  | shiftDone rx => exact absurd rfl (hshift rx)
  | xferComplete => exact xferComplete_controlled h

theorem execInit_eq_next {cfg : BusConfig W} {s t : State W} (h : execInit cfg s = .next t) :
    t = { s with engine := .idle, ifrIF := false, ctrlIE := true, ctrlMSTR := true, cfg := cfg,
                 trace := s.trace ++ [.setMaster, .result .ok none] } := by
  unfold execInit at h
  split at h
  · cases h
    simp [endWith, setMaster, emit]
  · cases h

theorem execShiftDone_eq_next {rx : Byte} {s t : State W} (h : execShiftDone rx s = .next t) :
    t = completeExchange rx s := by
  unfold execShiftDone at h
  split at h
  · cases h
    rfl
  · cases h

/-- Settles O46: INIT and SHIFT_DONE by what each writes; every other operation by `execAt_controlled`. -/
theorem whoWritesTheControlRegisters : Obligations.WhoWritesTheControlRegisters := by
  intro W P i s t h
  by_cases hinit : ∃ cfg, i = .init cfg
  · obtain ⟨cfg, rfl⟩ := hinit
    obtain rfl := execInit_eq_next h
    exact ⟨fun hi => absurd rfl (hi cfg), fun _ => ⟨rfl, by simp⟩, fun _ => rfl, _, rfl, by simp, by simp,
      fun hne => absurd rfl hne⟩
  by_cases hshift : ∃ rx, i = .shiftDone rx
  · obtain ⟨rx, rfl⟩ := hshift
    obtain rfl := execShiftDone_eq_next h
    exact ⟨fun _ => ⟨rfl, rfl⟩, fun hs => absurd rfl (hs rx), id, [], by simp, by simp, by simp,
      fun hne => absurd rfl hne⟩
  obtain ⟨hrxr, hIF, hIE, hcfg, evs, ha⟩ := execAt_controlled (not_exists.1 hinit) (not_exists.1 hshift) h
  exact ⟨fun _ => ⟨hIE, hcfg⟩, fun _ => ⟨hrxr, hIF⟩, fun he => hIE.trans he, evs, ha.trace, ha.master,
    by simp [hinit, ha.paired], ha.active⟩

end Sys2Proof.Machine
end

section
/-!
PROOFS. Reset, initialisation and hazards (70_reset_and_hazards.md): INIT right after reset (R221), and the two ways the engine
stays BUSY for ever: a completion pending while the handler is masked (R222, U16), and an exchange whose SHIFT_DONE never
happens (R229). In both, neither hardware step runs, so that both follow from one lemma about such runs, `runAt_stalled`.
-/

namespace Sys2Proof.Machine

variable {W : Widths}

/-! ### INIT after reset (R221) -/

/-- Settles O8: after reset INIT is enabled, and `exec_init_enabled` says what it does. -/
theorem initAfterResetGivesS0 : Obligations.InitAfterResetGivesS0 := fun _ =>
  exec_init_enabled ⟨rfl, rfl, rfl, rfl, rfl⟩

/-! ### While BUSY without a hardware step -/

/-- All that can happen from `s` to `t` while the engine is BUSY and neither hardware step runs: the queue grows at its end,
and events are emitted that are no callback and no load. -/
def Stalled (s t : State W) : Prop :=
  ∃ more evs, callbacksOf evs = [] ∧ loadsOf evs = [] ∧ t = { s with q := s.q ++ more, trace := s.trace ++ evs }

theorem Stalled.refl (s : State W) : Stalled s s := ⟨[], [], rfl, rfl, by simp⟩

theorem Stalled.trans {s t u : State W} (h : Stalled s t) (k : Stalled t u) : Stalled s u := by
  obtain ⟨more, evs, hc, hl, rfl⟩ := h
  obtain ⟨more', evs', hc', hl', rfl⟩ := k
  exact ⟨more ++ more', evs ++ evs', by simp [hc, hc'], by simp [hl, hl'], by simp⟩

/-- Ending a host operation stalls: its `Result` is no callback and no load. -/
theorem stalled_result (code : ResultCode) (dev : Option (Device W)) (s : State W) :
    Stalled s (emit (.result code dev) s) :=
  ⟨[], [.result code dev], rfl, rfl, by simp [emit]⟩

/-- While BUSY, `SUBMIT` releases what finds no room, and only enqueues what does (R141). -/
theorem stalled_submit {P : Params W} {ds : List (Desc W)} {s t : State W} {code : ResultCode} (he : s.engine = .busy)
    (hne : ds ≠ []) (h : submit P ds s = .next (code, t)) : Stalled s t := by
  by_cases hroom : freeSlots P s < ds.length
  · rw [submit_overflow hroom] at h
    cases h
    obtain ⟨hc, -, hl, -⟩ := releases_say ds
    exact ⟨[], ds.map Event.release, hc, hl, by simp⟩
  · rw [submit_busy hroom hne he] at h
    cases h
    exact ⟨ds, [], rfl, rfl, by simp⟩

theorem stalled_submitOp {P : Params W} {ds : List (Desc W)} {s t : State W} (he : s.engine = .busy) (hne : ds ≠ [])
    (h : submitOp P ds s = .next t) : Stalled s t := by
  obtain ⟨code, u, hs, rfl⟩ := submitOp_eq_next h
  exact (stalled_submit he hne hs).trans (stalled_result code none u)

/-- While BUSY, INIT is refused and every host operation stalls; the hardware steps are excluded. -/
theorem execAt_stalled {P : Params W} {i : Instr W} {s t : State W} (he : s.engine = .busy) (hh : ¬ handlerEnabled s)
    (hs : ∀ rx, i = .shiftDone rx → ¬ shiftEnabled s) (h : execAt P i s = .next t) : Stalled s t := by
  cases i with
  | init cfg => simp [execAt, execInit, initEnabled, he] at h
  | createDevice dev =>
    obtain ⟨code, d, rfl⟩ := createDevice_concluded h
    exact stalled_result code d s
  | releaseDevice dev =>
    obtain ⟨code, d, rfl⟩ := releaseDevice_concluded h
    exact stalled_result code d s
  | write | read | readWrite => exact stalled_submitOp he (List.cons_ne_nil _ _) h
  | flush =>
    cases (execFlush_busy he).symm.trans h
    exact stalled_result .flushFailed none s
  | shiftDone rx => simp [execAt, execShiftDone, if_neg (hs rx rfl)] at h
  | xferComplete => simp [execAt, xferCompleteAt, runHandler, if_neg hh] at h

/-- A run without a hardware step stalls: what enables and disables the two is left as it was by every step. -/
theorem runAt_stalled {P : Params W} {is : List (Instr W)} {s t : State W} (he : s.engine = .busy)
    (hh : ¬ handlerEnabled s) (hs : ∀ rx, .shiftDone rx ∈ is → ¬ shiftEnabled s) (h : runAt P is s = .next t) :
    Stalled s t := by
  induction is generalizing s with
  | nil =>
    cases h
    exact .refl _
  | cons i is ih =>
    obtain ⟨u, hu, hrest⟩ := andThen_eq_next h
    have hstep : Stalled s u := execAt_stalled he hh (fun rx hi => hs rx (by simp [hi])) hu
    refine hstep.trans ?_
    obtain ⟨more, evs, -, -, rfl⟩ := hstep
    exact ih he hh (fun rx hmem => hs rx (List.mem_cons_of_mem i hmem)) hrest

/-! ### The two hangs (R222, R229) -/

/-- Settles O56: masked, the handler is not enabled, and with a completion pending no exchange is in flight (R181). -/
theorem transferBeforeInitHangsBusy : Obligations.TransferBeforeInitHangsBusy := by
  intro W P is s t h hIE hIF ht
  have he : s.engine = .busy := h.busy_iff.2 (.inr hIF)
  have hh : ¬ handlerEnabled s := fun ⟨_, hen⟩ => by simp [hIE] at hen
  have hs : ¬ shiftEnabled s := fun hx => h.one_exchange ⟨hx, hIF⟩
  obtain ⟨-, -, -, -, rfl⟩ := runAt_stalled he hh (fun _ _ => hs) ht
  exact ⟨he, hIE, hIF, rfl⟩

/-- Settles O57: with an exchange in flight no completion is pending (R181), so that the handler is not enabled. -/
theorem missingShiftDoneHangsBusy : Obligations.MissingShiftDoneHangsBusy := by
  intro W P is s t h hx hno ht
  have he : s.engine = .busy := h.busy_iff.2 (.inl hx)
  have hIF : s.ifrIF = false := Bool.eq_false_iff.2 fun hi => h.one_exchange ⟨hx, hi⟩
  have hh : ¬ handlerEnabled s := fun ⟨hen, _⟩ => by simp [hIF] at hen
  obtain ⟨more, evs, hc, hl, rfl⟩ := runAt_stalled he hh (fun rx hmem => absurd hmem (hno rx)) ht
  exact ⟨he, hx, hIF, rfl, rfl, rfl, ⟨more, rfl⟩, evs, rfl, hc, hl⟩

end Sys2Proof.Machine
end
